-- ==== Sys2Proof/Word.lean ====
section
/-! DEFINITION. The types of the values the spec's rules speak of (00_scope.md R10, R12): bytes, symbols,
node indices, codes, and the entries of the two stores. -/

namespace Sys2Proof

/-- A byte, bit 7 the most significant (R10). -/
abbrev Byte := BitVec 8

/-- "Symbol: one byte (0-255)" (R12, R13). -/
abbrev Symbol := BitVec 8

/-- `Index`: a number 0 to `NODES - 1`, 9 bits wide (R6, R12). -/
abbrev Index := BitVec 9

/-- A sequence of bits, the first one first; `false` is the bit 0, `true` the bit 1 (R10). A `Code` of the
spec has 1 to 255 of them (R12), which `Code.legal` of WellFormed.lean says. -/
abbrev Code := List Bool

/-- `CTEntry` (R12): `none` is `NONE`, `some c` is `CODE(c)`. -/
abbrev CTEntry := Option Code

/-- `Node` (R12, 10_state.md R33): the three tags of an entry of the tree store; tag 3 is never stored
(93_implementation_defined.md U14), so it has no constructor. -/
inductive Node where
  | invalid
  | leaf (sym : Symbol)
  | internal (c0 c1 : Index)
deriving DecidableEq, Repr

/-- A store: the entries that differ from what an unlisted index reads as, each with its index. Its canonical
form is `Store.wf` of Machine/Stores.lean. -/
abbrev Store (α : Type) := List (Nat × α)

end Sys2Proof
end

