-- ==== Sys2Proof/Machine/Bits.lean ====
section
/-! DEFINITION. Bit order and byte order (20_memory.md R54 to R56): "first is most significant" for bits and
for bytes, and the packed form of a bit stream (30_encoding.md R85). -/

namespace Sys2Proof

/-- `v[i] <- b` for one bit of a byte (00_scope.md R10, R11). -/
def setBit (v : Byte) (i : Nat) (b : Bool) : Byte :=
  if b then v ||| (1#8 <<< i) else v &&& ~~~(1#8 <<< i)

/-- The bits of a byte, bit 7 first and bit 0 last (R54). -/
def msbBits (v : Byte) : List Bool := (List.range 8).map fun j => v.getLsbD (7 - j)

/-- The byte whose bit `7 - j` is the `j`-th of the first eight bits of `l`, zero where `l` has none (R54). -/
def byteOfBits (l : List Bool) : Byte :=
  (List.range 8).foldl (fun v j => setBit v (7 - j) (l.getD j false)) 0#8

/-- `ceil(n / 8)` (R54). -/
def byteCount (n : Nat) : Nat := (n + 7) / 8

/-- The packed bytes of a stream: stream bit `k` is bit `7 - (k mod 8)` of byte `k div 8`, and the bits after the
last one are 0 (R54, R85). -/
def packBits (l : List Bool) : List Byte :=
  (List.range (byteCount l.length)).map fun k => byteOfBits (l.drop (8 * k))

/-- `paddingBitCount` of a stream of `n` bits, `(8 - (n mod 8)) mod 8` (30_encoding.md R85). -/
def padCount (n : Nat) : Nat := (8 - n % 8) % 8

/-- All the bits of a byte sequence, bit 7 of the first byte first (R54). -/
def unpackBits (bs : List Byte) : List Bool := bs.flatMap msbBits

/-- The stream of a packed form: "the first `8 * |packedBytes| - paddingBitCount` bits of the bytes read bit 7
first" (30_encoding.md R85). -/
def streamBits (bs : List Byte) (pad : Nat) : List Bool := (unpackBits bs).take (8 * bs.length - pad)

/-- The two bytes of a 16-bit value, most significant first (R56). -/
def bytes16 (v : BitVec 16) : List Byte := [v.extractLsb' 8 8, v.extractLsb' 0 8]

end Sys2Proof
end

