-- ==== Sys2Proof/Config.lean ====
section
/-! DEFINITION. The parameters of the block (00_scope.md R6), the configuration, which is fixed for the life of the
block (10_state.md R34), and the one value that the spec leaves free, a number the host reports. -/

namespace Sys2Proof

/-- `NSYM`: number of code-table entries (R6). -/
abbrev nsym : Nat := 256

/-- `MINLEN`: minimum code length (R6). -/
abbrev minLen : Nat := 1

/-- `MAXLEN`: maximum code length the table holds (R6, R7). -/
abbrev maxLen : Nat := 255

/-- `NODES`: number of tree-store entries (R6, R7). -/
abbrev nodes : Nat := 512

/-- `ROOT`: index of the root node in the tree store (R6). -/
abbrev root : Index := 0#9

/-- `SINGLE_CODE`: the code of the only symbol of a one-symbol alphabet (R6, 92_eei_decisions.md D8). -/
abbrev singleCode : Code := [false]

/-- `PADMAX`: largest legal padding count (R6). -/
abbrev padMax : Nat := 7

/-- `MAXPAY`: largest response payload in bytes (R6, 41_encoder_ops.md R126). -/
abbrev maxPay : Nat := 32

/-- The space-saved percentage the host reports (45_host_context.md R192): a free value of the input and the container.
DESIGN CHOICE (log 17): the source gives no formula, and whether the container's header bytes count is not to be assumed
(91_not_in_source.md N9), so nothing is known of it but what it is computed from. -/
opaque Config.spaceSavedPercentage (input container : List Byte) : Rat

/-- `STORE_MODE` (R6, 92_eei_decisions.md D9): whether the stores are written by commands or fixed. -/
inductive StoreMode where
  | loadable
  | rom
deriving DecidableEq, Repr

/-- The open parameters of the block: `STORE_MODE`, `ROM_CT`, `ROM_TS` (R6, 40_config_ops.md R107). -/
structure Config where
  storeMode : StoreMode
  romCt : Store CTEntry
  romTs : Store Node
deriving DecidableEq, Repr

/-- The default configuration: `STORE_MODE = LOADABLE` (R6: "default `LOADABLE`"). The images are not used in
this mode. -/
def Config.loadable : Config := { storeMode := .loadable, romCt := [], romTs := [] }

/-- A block with fixed stores (40_config_ops.md R107). -/
def Config.rom (ct : Store CTEntry) (ts : Store Node) : Config :=
  { storeMode := .rom, romCt := ct, romTs := ts }

end Sys2Proof
end

