-- ==== Sys2Proof/Syntax.lean ====
section
/-! DEFINITION. The thirteen commands of `BC1`, "one constructor per row of rule R79" (30_encoding.md R84). -/

namespace Sys2Proof

/-- `Command` (30_encoding.md R84), one constructor per row of the opcode table. -/
inductive Instr where
  /-- `RST`: reset the block (R160). -/
  | rst
  /-- `STAT`: read the status word (R161). -/
  | stat
  /-- `CLRC`: clear the code table (R101). -/
  | clrc
  /-- `LDC sym, code`: load one code (R102). -/
  | ldc (sym : Symbol) (code : Code)
  /-- `CLRT`: clear the tree store (R103). -/
  | clrt
  /-- `LDL idx, sym`: load a leaf node (R104). -/
  | ldl (idx : Index) (sym : Symbol)
  /-- `LDI idx, c0, c1`: load an internal node (R105). -/
  | ldi (idx c0 c1 : Index)
  /-- `EST`: start an encoder session (R121). -/
  | est
  /-- `ESYM sym`: encode one symbol (R122). -/
  | esym (sym : Symbol)
  /-- `EFL`: flush and end the encoder session (R124). -/
  | efl
  /-- `DST`: start a decoder session (R141). -/
  | dst
  /-- `DBYTE b`: hand in one packed byte (R144). -/
  | dbyte (b : Byte)
  /-- `DEND pad`: hand in the padding count and end the decoder session (R145). -/
  | dend (pad : Byte)
deriving DecidableEq, Repr

/-- The five store-writing commands (30_encoding.md R80 (3), R81). -/
def Instr.writesStore : Instr → Bool
  | .clrc | .ldc _ _ | .clrt | .ldl _ _ | .ldi _ _ _ => true
  | .rst | .stat | .est | .esym _ | .efl | .dst | .dbyte _ | .dend _ => false

end Sys2Proof
end

