-- ==== Sys2Proof/WellFormed.lean ====
section
/-! DEFINITION. When a command has legal field values (30_encoding.md R84: "every command with legal field
values has exactly one encoding"). Symbols, byte operands and indices are legal by their types; a code is not. -/

namespace Sys2Proof

/-- A `Code` of the spec: 1 to `MAXLEN` bits (00_scope.md R12, 30_encoding.md R78). -/
def Code.legal (c : Code) : Bool := decide (minLen ≤ c.length) && decide (c.length ≤ maxLen)

/-- The command has legal field values (30_encoding.md R84). -/
def Instr.wf : Instr → Bool
  | .ldc _ c => Code.legal c
  | .rst | .stat | .clrc | .clrt | .ldl _ _ | .ldi _ _ _ | .est | .esym _ | .efl | .dst | .dbyte _ | .dend _ => true

/-- The command exists in a block of this mode: the five store-writing ones do not in `ROM` mode
(30_encoding.md R81). -/
def Instr.existsIn (m : StoreMode) (i : Instr) : Bool :=
  match m with
  | .loadable => true
  | .rom => !i.writesStore

end Sys2Proof
end

