-- ==== Sys2Proof/Machine/Operands.lean ====
section
/-! DEFINITION. Operand assembly (30_encoding.md section 2): the index fields of formats `L` and `I` (R77) and
the code operand of format `C` (R78), each with the bytes it is written as. A byte operand (R73) is "used as it
stands" and needs no function. -/

namespace Sys2Proof

/-- An index field (R77): `field = 256 * hi + lo`; a field of 512 or more has a reserved bit set and names no
index; otherwise the index is `field[8:0]`. -/
def fieldIndex (hi lo : Byte) : Option Index :=
  let field := 256 * hi.toNat + lo.toNat
  if field < nodes then some (BitVec.ofNat 9 field) else none

/-- The two bytes of an index field, most significant first, the reserved bits zero (R77). -/
def indexBytes (i : Index) : List Byte := [BitVec.ofNat 8 (i.toNat / 256), BitVec.ofNat 8 (i.toNat % 256)]

/-- Whether the number of code bytes is `ceil(len / 8)` (R71). -/
def codeLengthOk (len : Byte) (codeBytes : List Byte) : Bool :=
  decide (codeBytes.length = byteCount len.toNat)

/-- The code of format `C`: code bit `i` is bit `7 - (i mod 8)` of code byte `i div 8` (R78, 20_memory.md R55). -/
def codeOfBytes (len : Byte) (codeBytes : List Byte) : Code := (unpackBits codeBytes).take len.toNat

/-- The unused low bits of the last code byte, which must be zero (R78). -/
def codeUnusedBits (len : Byte) (codeBytes : List Byte) : List Bool := (unpackBits codeBytes).drop len.toNat

end Sys2Proof
end

