-- ==== Sys2Proof/Decode.lean ====
section
/-! DEFINITION. `decode_cmd` of 30_encoding.md R84, total on any byte sequence, with the reason of R80 for each
illegal command; the encoder, written from the same format table R71 and opcode map R79; and the reading of an
opcode-table word. -/

namespace Sys2Proof

/-- The command formats (30_encoding.md R71). -/
inductive Format where
  | n | b | c | l | i
deriving DecidableEq, Repr

/-- The thirteen opcodes (30_encoding.md R79). -/
inductive Opcode where
  | rst | stat | clrc | ldc | clrt | ldl | ldi | est | esym | efl | dst | dbyte | dend
deriving DecidableEq, Repr

/-- Byte 0 of the command (30_encoding.md R79, column "opcode"). -/
def Opcode.byte : Opcode → Byte
  | .rst => 0x01#8
  | .stat => 0x02#8
  | .clrc => 0x10#8
  | .ldc => 0x11#8
  | .clrt => 0x18#8
  | .ldl => 0x19#8
  | .ldi => 0x1A#8
  | .est => 0x20#8
  | .esym => 0x21#8
  | .efl => 0x22#8
  | .dst => 0x30#8
  | .dbyte => 0x31#8
  | .dend => 0x32#8

/-- The format of the command (30_encoding.md R79, column "format"). -/
def Opcode.format : Opcode → Format
  | .rst | .stat | .clrc | .clrt | .est | .efl | .dst => .n
  | .esym | .dbyte | .dend => .b
  | .ldc => .c
  | .ldl => .l
  | .ldi => .i

/-- The store-writing opcodes `0x10`, `0x11`, `0x18`, `0x19`, `0x1A` (30_encoding.md R81). -/
def Opcode.writesStore : Opcode → Bool
  | .clrc | .ldc | .clrt | .ldl | .ldi => true
  | .rst | .stat | .est | .esym | .efl | .dst | .dbyte | .dend => false

/-- The rows of 30_encoding.md R79, in its order. -/
def opcodeRows : List Opcode :=
  [.rst, .stat, .clrc, .ldc, .clrt, .ldl, .ldi, .est, .esym, .efl, .dst, .dbyte, .dend]

/-- "An opcode selects a command by the whole of byte 0" (30_encoding.md R79). -/
def opcodeOf (b : Byte) : Option Opcode := opcodeRows.find? fun o => decide (o.byte = b)

/-- The length rule R83 gives a command: fixed by the opcode, for format `C` `3 + ceil(len / 8)`. -/
def commandLength (o : Opcode) (len : Byte) : Nat :=
  match o.format with
  | .n => 1
  | .b => 2
  | .c => 3 + byteCount len.toNat
  | .l => 4
  | .i => 7

/-- Why a transaction is an illegal command, in the order of the tests of 30_encoding.md R80. -/
inductive Illegal where
  /-- R80 (1): it has 0 bytes. -/
  | empty
  /-- R80 (2): byte 0 is not one of the thirteen opcodes. -/
  | reservedOpcode
  /-- R80 (3), R81: a store-writing opcode when `STORE_MODE = ROM`. -/
  | storeFixed
  /-- R80 (4): its length is not the length R83 gives, or `len = 0`. -/
  | wrongLength
  /-- R80 (5): a reserved bit of an index field or an unused bit of the last code byte is set. -/
  | reservedBits
deriving DecidableEq, Repr

/-- What `decode_cmd` answers: a command or `ILLEGAL` (30_encoding.md R84). -/
inductive Decoded where
  | command (i : Instr)
  | illegal (why : Illegal)
deriving DecidableEq, Repr

/-- Format `N` (30_encoding.md R72): no field but the opcode. -/
def decodeN (i : Instr) : List Byte → Decoded
  | [] => .command i
  | _ :: _ => .illegal .wrongLength

/-- Format `B` (30_encoding.md R73): one 8-bit operand, used as it stands. -/
def decodeB (f : Byte → Instr) : List Byte → Decoded
  | [val] => .command (f val)
  | _ => .illegal .wrongLength

/-- Format `C` (30_encoding.md R71, R78). -/
def decodeC (f : Symbol → Code → Instr) : List Byte → Decoded
  | sym :: len :: code =>
    if len = 0#8 ∨ codeLengthOk len code = false then .illegal .wrongLength
    else if (codeUnusedBits len code).any id then .illegal .reservedBits
    else .command (f sym (codeOfBytes len code))
  | _ => .illegal .wrongLength

/-- Format `L` (30_encoding.md R71, R77). -/
def decodeL (f : Index → Symbol → Instr) : List Byte → Decoded
  | [ih, il, sym] =>
    match fieldIndex ih il with
    | some idx => .command (f idx sym)
    | none => .illegal .reservedBits
  | _ => .illegal .wrongLength

/-- Format `I` (30_encoding.md R71, R77). -/
def decodeI (f : Index → Index → Index → Instr) : List Byte → Decoded
  | [ih, il, ah, al, bh, bl] =>
    match fieldIndex ih il, fieldIndex ah al, fieldIndex bh bl with
    | some idx, some c0, some c1 => .command (f idx c0 c1)
    | _, _, _ => .illegal .reservedBits
  | _ => .illegal .wrongLength

/-- The bytes after the opcode, read by the opcode's format (30_encoding.md R79). -/
def decodeOperands (o : Opcode) (rest : List Byte) : Decoded :=
  match o with
  | .rst => decodeN .rst rest
  | .stat => decodeN .stat rest
  | .clrc => decodeN .clrc rest
  | .ldc => decodeC .ldc rest
  | .clrt => decodeN .clrt rest
  | .ldl => decodeL .ldl rest
  | .ldi => decodeI .ldi rest
  | .est => decodeN .est rest
  | .esym => decodeB .esym rest
  | .efl => decodeN .efl rest
  | .dst => decodeN .dst rest
  | .dbyte => decodeB .dbyte rest
  | .dend => decodeB .dend rest

/-- `decode_cmd` (30_encoding.md R84), the tests of R80 in their order. The mode is a fixed parameter that removes
five opcodes (R83). -/
def decode (m : StoreMode) : List Byte → Decoded
  | [] => .illegal .empty
  | op :: rest =>
    match opcodeOf op with
    | none => .illegal .reservedOpcode
    | some o =>
      match m, o.writesStore with
      | .rom, true => .illegal .storeFixed
      | _, _ => decodeOperands o rest

/-- The one encoding of a command with legal fields (30_encoding.md R71, R77, R78, R79). -/
def encode : Instr → List Byte
  | .rst => [Opcode.rst.byte]
  | .stat => [Opcode.stat.byte]
  | .clrc => [Opcode.clrc.byte]
  | .ldc sym c => Opcode.ldc.byte :: sym :: BitVec.ofNat 8 c.length :: packBits c
  | .clrt => [Opcode.clrt.byte]
  | .ldl idx sym => Opcode.ldl.byte :: (indexBytes idx ++ [sym])
  | .ldi idx c0 c1 => Opcode.ldi.byte :: (indexBytes idx ++ indexBytes c0 ++ indexBytes c1)
  | .est => [Opcode.est.byte]
  | .esym sym => [Opcode.esym.byte, sym]
  | .efl => [Opcode.efl.byte]
  | .dst => [Opcode.dst.byte]
  | .dbyte b => [Opcode.dbyte.byte, b]
  | .dend pad => [Opcode.dend.byte, pad]

/-- Byte `k` of an opcode-table word: bits `8k+7` to `8k` (byte 0 is the first transmitted). -/
def wordByte (w k : Nat) : Byte := BitVec.ofNat 8 (w / 2 ^ (8 * k))

/-- The transaction an opcode-table word stands for: `nbits` bits of `w`, then zero bytes up to the length R83
gives a command of that opcode (log 5). -/
def transactionOfWord (nbits w : Nat) : List Byte :=
  let v := w % 2 ^ nbits
  let given := (nbits + 7) / 8
  let needed := match opcodeOf (wordByte v 0) with
    | some o => commandLength o (wordByte v 2)
    | none => 1
  (List.range (max given needed)).map (wordByte v)

/-- What the decoder reads from an opcode-table word, in a block of the default mode `LOADABLE`. -/
def decodeTableWord (nbits w : Nat) : Option Instr :=
  match decode Config.loadable.storeMode (transactionOfWord nbits w) with
  | .command i => some i
  | .illegal _ => none

end Sys2Proof
end

