-- ==== Sys2Proof/Machine/State.lean ====
section
/-! DEFINITION. The state of the block, "exactly this tuple" (10_state.md R20), with the model's own fields beside
it: the configuration, the transactions delivered and the responses given. -/

namespace Sys2Proof.Machine

/-- `Phase` (00_scope.md R12; 10_state.md R22, R23). -/
inductive Phase where
  | idle
  | run
deriving DecidableEq, Repr

/-- The causes a command of the block can raise (60_exceptions.md R210). Cause 4 is "no command" and 7 to 15 are
"never produced", so they have no constructor (93_implementation_defined.md U14). -/
inductive Cause where
  /-- 1, raised by `ESYM` (R211). -/
  | lookupError
  /-- 2, raised by `DBYTE` and `DEND` (R212). -/
  | corruptStreamError
  /-- 3, raised by `DEND` (R213). -/
  | formatError
  /-- 5, raised by any illegal transaction (R215). -/
  | commandError
  /-- 6, raised when a phase precondition fails (R217). -/
  | sequenceError
deriving DecidableEq, Repr

/-- The statuses of a response (30_encoding.md R87). -/
inductive Status where
  | ok
  | fault (c : Cause)
  | refused (c : Cause)
deriving DecidableEq, Repr

/-- A response: "a `status` byte and a `payload`" (30_encoding.md R86). -/
structure Response where
  status : Status
  payload : List Byte
deriving DecidableEq, Repr

/-- The state of the block (10_state.md R20), and three fields of the model. -/
structure State where
  /-- `FLT`, 4 bits: the cause of the first fault since reset; `none` is 0 (R21). -/
  flt : Option Cause
  /-- `EPH`: whether an encoder session is open (R22). -/
  eph : Phase
  /-- `EACC`: the pending bits of the encoded stream, left-aligned (R24). -/
  eacc : BitVec 8
  /-- `ECNT`: the number of pending bits (R25). -/
  ecnt : BitVec 3
  /-- `DPH`: whether a decoder session is open (R23). -/
  dph : Phase
  /-- `DCUR`: the node the walk stands on (R28). -/
  dcur : Index
  /-- `DHOLD`: the held byte (R30). -/
  dhold : BitVec 8
  /-- `DHV`: whether `DHOLD` holds a byte not yet consumed (R31). -/
  dhv : Bool
  /-- `CT`: the code table (R32); an unlisted symbol reads as `NONE`. -/
  ct : Store CTEntry
  /-- `TS`: the tree store (R33); an unlisted index reads as `INVALID`. -/
  ts : Store Node
  /-- The model's: the configuration (R34), which no step changes (log 1). -/
  cfg : Config
  /-- The model's: the transactions delivered and not yet taken, oldest first (log 2). -/
  inbox : List (List Byte)
  /-- The model's: the responses given, oldest first (log 2). -/
  outbox : List Response
deriving DecidableEq, Repr

/-- The faults that stop the machine. There is none: a fault of the block is a next state with `FLT` written
(60_exceptions.md R216), and "every command of the block terminates with a response"
(93_implementation_defined.md). Safe: nothing is stopped (log 7). -/
inductive Fault where
deriving DecidableEq, Repr

/-- The refusals of the model. -/
inductive Refusal where
  /-- Raised by an arm of `exec` whose instruction has no meaning yet. Safe: the machine stops there. No arm
  raises it now. -/
  | notModelled (mnemonic : String)
deriving DecidableEq, Repr

/-- `reset_state(cfg)` (70_reset_and_hazards.md R242): the values of 10_state.md R38 for a block of configuration
`cfg`, with no transaction delivered. -/
def State.resetOf (cfg : Config) : State where
  flt := none
  eph := .idle
  eacc := 0#8
  ecnt := 0#3
  dph := .idle
  dcur := root
  dhold := 0#8
  dhv := false
  ct := match cfg.storeMode with
    | .loadable => []
    | .rom => cfg.romCt
  ts := match cfg.storeMode with
    | .loadable => []
    | .rom => cfg.romTs
  cfg := cfg
  inbox := []
  outbox := []

/-- The block right after reset (10_state.md R38, 70_reset_and_hazards.md R240), in the default mode `LOADABLE`
(00_scope.md R6). -/
def State.reset : State := State.resetOf Config.loadable

end Sys2Proof.Machine
end

