-- ==== Sys2Proof/Machine/Stores.lean ====
section
/-! DEFINITION. Reading and writing the stores (20_memory.md R50 to R53): one access width, the whole entry, and
every index names an entry. A store lists, by rising index, the entries that differ from `d`, which is what an
unlisted index reads as. -/

namespace Sys2Proof

/-- `MemRead(space, i)` (00_scope.md R11, 20_memory.md R51, R52). -/
def Store.read {α : Type} (d : α) : Store α → Nat → α
  | [], _ => d
  | (j, v) :: rest, i => if j = i then v else Store.read d rest i

/-- Entry `i` no longer listed. -/
def Store.erase {α : Type} : Store α → Nat → Store α
  | [], _ => []
  | (j, v) :: rest, i => if j = i then rest else (j, v) :: Store.erase rest i

/-- Entry `i` listed with value `v`, in its place by rising index. -/
def Store.insert {α : Type} : Store α → Nat → α → Store α
  | [], i, v => [(i, v)]
  | (j, w) :: rest, i, v =>
    if i < j then (i, v) :: (j, w) :: rest
    else if i = j then (i, v) :: rest
    else (j, w) :: Store.insert rest i v

/-- `MemWrite(space, i, v)` (00_scope.md R11). Writing what an unlisted index reads as removes the entry. -/
def Store.write {α : Type} [DecidableEq α] (d : α) (m : Store α) (i : Nat) (v : α) : Store α :=
  if v = d then Store.erase m i else Store.insert m i v

/-- Indices strictly rising from `lo` on and below `size`, no entry equal to `d`. -/
def Store.wfFrom {α : Type} [DecidableEq α] (d : α) (size : Nat) : Nat → Store α → Bool
  | _, [] => true
  | lo, (j, v) :: rest =>
    decide (lo ≤ j) && decide (j < size) && decide (v ≠ d) && Store.wfFrom d size (j + 1) rest

/-- The canonical form of a store of `size` entries. -/
def Store.wf {α : Type} [DecidableEq α] (d : α) (size : Nat) (m : Store α) : Bool := Store.wfFrom d size 0 m

namespace Machine

/-- `CT[sym]` (20_memory.md R51). -/
def State.readCT (s : State) (sym : Symbol) : CTEntry := Store.read none s.ct sym.toNat

/-- `CT[sym] <- e`. -/
def State.writeCT (s : State) (sym : Symbol) (e : CTEntry) : State :=
  { s with ct := Store.write none s.ct sym.toNat e }

/-- `for s in 0..255: CT[s] <- NONE` (40_config_ops.md R101). -/
def State.clearCT (s : State) : State := { s with ct := [] }

/-- `TS[i]` of a tree image (20_memory.md R52). -/
def readNode (ts : Store Node) (i : Index) : Node := Store.read .invalid ts i.toNat

/-- `TS[i]` (20_memory.md R52). -/
def State.readTS (s : State) (i : Index) : Node := readNode s.ts i

/-- `TS[i] <- n`. -/
def State.writeTS (s : State) (i : Index) (n : Node) : State :=
  { s with ts := Store.write .invalid s.ts i.toNat n }

/-- `for i in 0..511: TS[i] <- INVALID` (40_config_ops.md R103). -/
def State.clearTS (s : State) : State := { s with ts := [] }

/-- The entry of the code table as the hardware holds it, its length field (10_state.md R32): 0 is `NONE`. -/
def ctLenField : CTEntry → BitVec 8
  | none => 0#8
  | some c => BitVec.ofNat 8 c.length

/-- The entry's bit field (10_state.md R32): `c[i]` in position `i`, the positions from `len` on zero. -/
def ctBitField : CTEntry → BitVec 255
  | none => 0#255
  | some c => (BitVec.ofBoolListLE c).setWidth 255

/-- The 20 bits of a tree-store entry as the hardware holds it (10_state.md R33): a 2-bit tag, then 18 payload
bits. -/
def nodeWord : Node → BitVec 20
  | .invalid => 0#20
  | .leaf sym => 1#2 ++ (0#10 ++ sym)
  | .internal c0 c1 => 2#2 ++ (c0 ++ c1)

/-- The node a 20-bit entry holds; `none` for a word that is never stored (10_state.md R33: tag 3, or a payload
bit set that the tag leaves zero). -/
def nodeOfWord (w : BitVec 20) : Option Node :=
  let payload := w.extractLsb' 0 18
  match (w.extractLsb' 18 2).toNat with
  | 0 => if payload = 0#18 then some .invalid else none
  | 1 => if payload.extractLsb' 8 10 = 0#10 then some (.leaf (payload.extractLsb' 0 8)) else none
  | 2 => some (.internal (payload.extractLsb' 9 9) (payload.extractLsb' 0 9))
  | _ => none

/-- Every code a code table lists has 1 to 255 bits (10_state.md R32). -/
def codesLegal (ct : Store CTEntry) : Bool :=
  ct.all fun entry =>
    match entry.2 with
    | none => true
    | some c => Code.legal c

/-- A code table's canonical form, with legal codes. -/
def codeTableWf (ct : Store CTEntry) : Bool := Store.wf none nsym ct && codesLegal ct

/-- A tree store's canonical form. -/
def treeStoreWf (ts : Store Node) : Bool := Store.wf .invalid nodes ts

/-- Both stores of the state are in their canonical form. -/
def Memory.wf (s : State) : Bool := codeTableWf s.ct && treeStoreWf s.ts

/-- The images of a `ROM` block are in canonical form; nothing more is required of them (40_config_ops.md R107). -/
def configWf (cfg : Config) : Bool := codeTableWf cfg.romCt && treeStoreWf cfg.romTs

end Machine

end Sys2Proof
end

