-- ==== Sys2Proof/Machine/Flags.lean ====
section
/-! DEFINITION. The fault flag's codes (60_exceptions.md R210), the status bytes of a response (30_encoding.md R86,
R87) and the `STATUS` word (10_state.md R36). -/

namespace Sys2Proof.Machine

/-- The cause codes (60_exceptions.md R210). -/
def causeCode : Cause → BitVec 4
  | .lookupError => 1#4
  | .corruptStreamError => 2#4
  | .formatError => 3#4
  | .commandError => 5#4
  | .sequenceError => 6#4

/-- The four bits of `FLT` (10_state.md R21): 0 when there is no fault. -/
def fltBits : Option Cause → BitVec 4
  | none => 0#4
  | some c => causeCode c

/-- "Encoding as one bit: `IDLE = 0`, `RUN = 1`" (10_state.md R22, R23). -/
def phaseBit : Phase → BitVec 1
  | .idle => 0#1
  | .run => 1#1

/-- `ROMF`: "1 when `STORE_MODE = ROM`, else 0" (10_state.md R36). -/
def romfBit : StoreMode → BitVec 1
  | .loadable => 0#1
  | .rom => 1#1

/-- The `STATUS` word (10_state.md R36, 43_system_ops.md R161): `FLT` in 11:8, `EPH` 7, `DPH` 6, `DHV` 5, `ROMF` 4,
`ECNT` 2:0, the others 0. -/
def statusWord (s : State) : BitVec 16 :=
  0#4 ++ (fltBits s.flt ++ (phaseBit s.eph ++ (phaseBit s.dph ++ (BitVec.ofBool s.dhv ++
    (romfBit s.cfg.storeMode ++ (0#1 ++ s.ecnt))))))

/-- The status byte (30_encoding.md R87): `0x00`, `0x80 + cause`, `0xC0 + cause`. -/
def statusByte : Status → Byte
  | .ok => 0x00#8
  | .fault c => 0x80#8 + (causeCode c).setWidth 8
  | .refused c => 0xC0#8 + (causeCode c).setWidth 8

/-- The byte form of a response (30_encoding.md R86): status, payload length, payload. -/
def responseBytes (r : Response) : List Byte :=
  statusByte r.status :: BitVec.ofNat 8 r.payload.length :: r.payload

end Sys2Proof.Machine
end

