-- ==== Sys2Proof/Machine/Ops.lean ====
section
/-! DEFINITION. What every command shares (60_exceptions.md R218): its one response, the refusal while faulted
(R219), taking a fault (R216), the exit from the faulted condition (R220), and the tests before a command's
body. -/

namespace Sys2Proof.Machine

/-- Give the response: "exactly one response" to every transaction (30_encoding.md R70). -/
def respond (r : Response) (s : State) : State := { s with outbox := s.outbox ++ [r] }

/-- A command that completes returns status `OK` (40_config_ops.md R100). -/
def complete (payload : List Byte) (s : State) : State := respond { status := .ok, payload := payload } s

/-- `REFUSED(FLT)`: "empty payload, no state change" (60_exceptions.md R219). -/
def refuse (c : Cause) (s : State) : State := respond { status := .refused c, payload := [] } s

/-- `raise X` (60_exceptions.md R216), applied to the state before the command: its one effect is `FLT <- c`, its
response `FAULT(c)` with an empty payload. -/
def raiseFault (c : Cause) (s : State) : State :=
  respond { status := .fault c, payload := [] } { s with flt := some c }

/-- The only exit from the faulted condition (60_exceptions.md R220): "every piece of state <- its reset value"
(43_system_ops.md R160). The model's own port fields stay. -/
def restart (s : State) : State :=
  { State.resetOf s.cfg with inbox := s.inbox, outbox := s.outbox }

/-- What a command's body does: it raises a fault, or it leaves a state and the payload it emitted. -/
inductive Effect where
  | raise (c : Cause)
  | done (s : State) (payload : List Byte)

/-- Steps 3 to 7 of 60_exceptions.md R218 for one command: refused while faulted; otherwise performed, with every
effect undone when it raises (R216). -/
def perform (body : State → Effect) (s : State) : State :=
  match s.flt with
  | some c => refuse c s
  | none =>
    match body s with
    | .raise c => raiseFault c s
    | .done t payload => complete payload t

/-- Step 5 of 60_exceptions.md R218: the phase precondition, else `raise SequenceError` (R217). -/
def needPhase (phase : State → Phase) (need : Phase) (body : State → Effect) (s : State) : Effect :=
  if phase s = need then body s else .raise .sequenceError

/-- A store-writing command exists only when `STORE_MODE = LOADABLE` (40_config_ops.md R101 to R105: "CommandError
when `STORE_MODE = ROM`"). The decoder already finds this (30_encoding.md R80 (3)); the test stands here too so that
the meaning holds for every state (log 8). -/
def needLoadable (body : State → Effect) (s : State) : Effect :=
  match s.cfg.storeMode with
  | .loadable => body s
  | .rom => .raise .commandError

/-- A code operand has 1 to 255 bits (30_encoding.md R78: "`len = 0` is an illegal command"). The decoder already
finds this; a longer code can be written by no transaction (log 8). -/
def needLegalCode (code : Code) (body : State → Effect) (s : State) : Effect :=
  if Code.legal code then body s else .raise .commandError

/-- An illegal command (60_exceptions.md R218 steps 3 and 4): refused while faulted, else `raise CommandError`
(R215). -/
def performIllegal (s : State) : State := perform (fun _ => .raise .commandError) s

end Sys2Proof.Machine
end

