-- ==== Sys2Proof/Machine/ConfigCmds.lean ====
section
/-! DEFINITION. The store-loading commands (40_config_ops.md): `CLRC`, `LDC`, `CLRT`, `LDL`, `LDI`. They check the
form of the command and nothing about the contents (R106). -/

namespace Sys2Proof.Machine

/-- `CLRC` (40_config_ops.md R101). -/
def execClrc (s : State) : Host.Outcome State Fault Refusal :=
  .next (perform (needLoadable (needPhase State.eph .idle fun t => .done t.clearCT [])) s)

/-- `LDC sym, code` (40_config_ops.md R102). -/
def execLdc (sym : Symbol) (code : Code) (s : State) : Host.Outcome State Fault Refusal :=
  .next (perform (needLoadable (needLegalCode code (needPhase State.eph .idle fun t =>
    .done (t.writeCT sym (some code)) []))) s)

/-- `CLRT` (40_config_ops.md R103). -/
def execClrt (s : State) : Host.Outcome State Fault Refusal :=
  .next (perform (needLoadable (needPhase State.dph .idle fun t => .done t.clearTS [])) s)

/-- `LDL idx, sym` (40_config_ops.md R104). -/
def execLdl (idx : Index) (sym : Symbol) (s : State) : Host.Outcome State Fault Refusal :=
  .next (perform (needLoadable (needPhase State.dph .idle fun t => .done (t.writeTS idx (.leaf sym)) [])) s)

/-- `LDI idx, c0, c1` (40_config_ops.md R105). -/
def execLdi (idx c0 c1 : Index) (s : State) : Host.Outcome State Fault Refusal :=
  .next (perform (needLoadable (needPhase State.dph .idle fun t => .done (t.writeTS idx (.internal c0 c1)) [])) s)

end Sys2Proof.Machine
end

