-- ==== Sys2Proof/Machine/Walker.lean ====
section
/-! DEFINITION. The walker step of the decoder (42_decoder_ops.md R142, R143). -/

namespace Sys2Proof.Machine

/-- The register of the walker with the symbols the command has emitted so far. -/
structure Walker where
  dcur : Index
  out : List Byte
deriving DecidableEq, Repr

/-- The child a bit selects: `c0` on bit 0, `c1` on bit 1 (42_decoder_ops.md R142). -/
def childOf (b : Bool) (c0 c1 : Index) : Index := if b then c1 else c0

/-- `walk1(b)` on the tree image `ts` (42_decoder_ops.md R142); `none` is `raise CorruptStreamError`. -/
def walk1 (ts : Store Node) (w : Walker) (b : Bool) : Option Walker :=
  match readNode ts w.dcur with
  | .invalid => none
  | .leaf sym => if b then none else some { w with out := w.out ++ [sym] }
  | .internal c0 c1 =>
    match readNode ts (childOf b c0 c1) with
    | .invalid => none
    | .leaf sym => some { dcur := root, out := w.out ++ [sym] }
    | .internal _ _ => some { w with dcur := childOf b c0 c1 }

/-- Walk bits one after the other, stopping at the first that raises (60_exceptions.md R218). -/
def walkBits (ts : Store Node) (w : Walker) : List Bool → Option Walker
  | [] => some w
  | b :: rest =>
    match walk1 ts w b with
    | none => none
    | some w' => walkBits ts w' rest

/-- `consume(B, k)`: the first `k` bits of byte `B`, most significant first (42_decoder_ops.md R143). -/
def consume (ts : Store Node) (w : Walker) (held : Byte) (k : Nat) : Option Walker :=
  walkBits ts w ((msbBits held).take k)

end Sys2Proof.Machine
end

