-- ==== Sys2Proof/Machine/DecoderCmds.lean ====
section
/-! DEFINITION. The decoder commands (42_decoder_ops.md): `DST`, `DBYTE`, `DEND`. -/

namespace Sys2Proof.Machine

/-- `DST` (42_decoder_ops.md R141). -/
def execDst (s : State) : Host.Outcome State Fault Refusal :=
  .next (perform (needPhase State.dph .idle fun t =>
    .done { t with dcur := root, dhold := 0#8, dhv := false, dph := .run } []) s)

/-- The walk of the held byte's first `k` bits, none when no byte is held (42_decoder_ops.md R144, R145). -/
def consumeHeld (s : State) (k : Nat) : Option Walker :=
  if s.dhv then consume s.ts { dcur := s.dcur, out := [] } s.dhold k
  else some { dcur := s.dcur, out := [] }

/-- The body of `DBYTE b` (42_decoder_ops.md R144). -/
def takeByte (b : Byte) (s : State) : Effect :=
  match consumeHeld s 8 with
  | none => .raise .corruptStreamError
  | some w => .done { s with dcur := w.dcur, dhold := b, dhv := true } w.out

/-- `DBYTE b` (42_decoder_ops.md R144). -/
def execDbyte (b : Byte) (s : State) : Host.Outcome State Fault Refusal :=
  .next (perform (needPhase State.dph .run (takeByte b)) s)

/-- The body of `DEND pad` (42_decoder_ops.md R145), its tests in their order. -/
def endStream (pad : Byte) (s : State) : Effect :=
  if pad.toNat > padMax then .raise .formatError
  else if s.dhv = false ∧ pad ≠ 0#8 then .raise .formatError
  else
    match consumeHeld s (8 - pad.toNat) with
    | none => .raise .corruptStreamError
    | some w =>
      if w.dcur ≠ root then .raise .corruptStreamError
      else .done { s with dcur := w.dcur, dhold := 0#8, dhv := false, dph := .idle } w.out

/-- `DEND pad` (42_decoder_ops.md R145). -/
def execDend (pad : Byte) (s : State) : Host.Outcome State Fault Refusal :=
  .next (perform (needPhase State.dph .run (endStream pad)) s)

end Sys2Proof.Machine
end

