-- ==== Sys2Proof/Machine/Packer.lean ====
section
/-! DEFINITION. The packer step of the encoder (41_encoder_ops.md R123). -/

namespace Sys2Proof.Machine

/-- The registers of the packer with the bytes the command has emitted so far. -/
structure Packer where
  eacc : BitVec 8
  ecnt : BitVec 3
  out : List Byte
deriving DecidableEq, Repr

/-- `pack(b)` (41_encoder_ops.md R123). -/
def pack (p : Packer) (b : Bool) : Packer :=
  let acc := setBit p.eacc (7 - p.ecnt.toNat) b
  if p.ecnt = 7#3 then { eacc := 0#8, ecnt := 0#3, out := p.out ++ [acc] }
  else { p with eacc := acc, ecnt := p.ecnt + 1#3 }

/-- `for i in 0..|c|-1: pack(c[i])` (41_encoder_ops.md R122). -/
def packAll (p : Packer) : List Bool → Packer
  | [] => p
  | b :: rest => packAll (pack p b) rest

end Sys2Proof.Machine
end

