-- ==== Sys2Proof/Machine/EncoderCmds.lean ====
section
/-! DEFINITION. The encoder commands (41_encoder_ops.md): `EST`, `ESYM`, `EFL`. -/

namespace Sys2Proof.Machine

/-- `EST` (41_encoder_ops.md R121). -/
def execEst (s : State) : Host.Outcome State Fault Refusal :=
  .next (perform (needPhase State.eph .idle fun t =>
    .done { t with eacc := 0#8, ecnt := 0#3, eph := .run } []) s)

/-- The body of `ESYM sym` (41_encoder_ops.md R122): look the code up and pack its bits. -/
def encodeSymbol (sym : Symbol) (s : State) : Effect :=
  match s.readCT sym with
  | none => .raise .lookupError
  | some c =>
    let p := packAll { eacc := s.eacc, ecnt := s.ecnt, out := [] } c
    .done { s with eacc := p.eacc, ecnt := p.ecnt } p.out

/-- `ESYM sym` (41_encoder_ops.md R122). -/
def execEsym (sym : Symbol) (s : State) : Host.Outcome State Fault Refusal :=
  .next (perform (needPhase State.eph .run (encodeSymbol sym)) s)

/-- What `EFL` emits (41_encoder_ops.md R124): the padding count, then, only when it is not 0, the final byte. -/
def flushBytes (s : State) : List Byte :=
  if s.ecnt = 0#3 then [0#8] else [8#8 - s.ecnt.setWidth 8, s.eacc]

/-- `EFL` (41_encoder_ops.md R124). -/
def execEfl (s : State) : Host.Outcome State Fault Refusal :=
  .next (perform (needPhase State.eph .run fun t =>
    .done { t with eacc := 0#8, ecnt := 0#3, eph := .idle } (flushBytes t)) s)

end Sys2Proof.Machine
end

