-- ==== Sys2Proof/Machine/SystemCmds.lean ====
section
/-! DEFINITION. The system commands (43_system_ops.md): `RST`, `STAT`, "the only commands performed while the block
is faulted". -/

namespace Sys2Proof.Machine

/-- `RST` (43_system_ops.md R160): performed in every state. -/
def execRst (s : State) : Host.Outcome State Fault Refusal := .next (complete [] (restart s))

/-- `STAT` (43_system_ops.md R161): performed in every state; bits 15:8 of `STATUS` first. -/
def execStat (s : State) : Host.Outcome State Fault Refusal := .next (complete (bytes16 (statusWord s)) s)

end Sys2Proof.Machine
end

