-- ==== Sys2Proof/Machine/Dispatch.lean ====
section
/-! DEFINITION. One command performed on one state: one arm per row of 30_encoding.md R79. -/

namespace Sys2Proof.Machine

def exec (i : Instr) (s : State) : Host.Outcome State Fault Refusal :=
  match i with
  -- 43_system_ops.md
  | .rst => Sys2Proof.Machine.execRst s
  | .stat => Sys2Proof.Machine.execStat s
  -- 40_config_ops.md
  | .clrc => Sys2Proof.Machine.execClrc s
  | .ldc sym code => Sys2Proof.Machine.execLdc sym code s
  | .clrt => Sys2Proof.Machine.execClrt s
  | .ldl idx sym => Sys2Proof.Machine.execLdl idx sym s
  | .ldi idx c0 c1 => Sys2Proof.Machine.execLdi idx c0 c1 s
  -- 41_encoder_ops.md
  | .est => Sys2Proof.Machine.execEst s
  | .esym sym => Sys2Proof.Machine.execEsym sym s
  | .efl => Sys2Proof.Machine.execEfl s
  -- 42_decoder_ops.md
  | .dst => Sys2Proof.Machine.execDst s
  | .dbyte b => Sys2Proof.Machine.execDbyte b s
  | .dend pad => Sys2Proof.Machine.execDend pad s

end Sys2Proof.Machine
end

