-- ==== Sys2Proof/Machine/Port.lean ====
section
/-! DEFINITION. The command port at the level of whole transactions (30_encoding.md R70, 00_scope.md R8): the model's
own fields `inbox` and `outbox` (log 2). -/

namespace Sys2Proof.Machine

/-- The oldest transaction delivered, and the state without it (20_memory.md R62: "in the order delivered"). -/
def takeTransaction (s : State) : Option (List Byte × State) :=
  match s.inbox with
  | [] => none
  | t :: rest => some (t, { s with inbox := rest })

/-- The host delivers a transaction, after those delivered before. -/
def deliver (t : List Byte) (s : State) : State := { s with inbox := s.inbox ++ [t] }

/-- A transaction put ahead of every other one. -/
def deliverFirst (t : List Byte) (s : State) : State := { s with inbox := t :: s.inbox }

end Sys2Proof.Machine
end

