-- ==== Sys2Proof/Machine/Step.lean ====
section
/-! DEFINITION. One step of the block: one transaction, taken, decoded and answered (60_exceptions.md R218). -/

namespace Sys2Proof.Machine

/-- `step(t)` of 60_exceptions.md R218 on the oldest transaction delivered. With none delivered the block waits
"with its state kept" (70_reset_and_hazards.md R253; 60_exceptions.md R222; log 3). -/
def step (s : State) : Host.Outcome State Fault Refusal :=
  match takeTransaction s with
  | none => .next s
  | some (t, s') =>
    match decode s'.cfg.storeMode t with
    | .command i => exec i s'
    | .illegal _ => .next (performIllegal s')

/-- `s` with the transaction of an opcode-table word delivered ahead of any other, so that the next step takes it
(log 4, log 5). -/
def State.withFetchWord (s : State) (nbits w : Nat) : State := deliverFirst (transactionOfWord nbits w) s

end Sys2Proof.Machine
end

