-- ==== Sys2Proof/Machine/Builder.lean ====
section
/-! DEFINITION. The host's analyzer and tree builder (45_host_context.md sections 2 and 3): what the host computes
before it loads the block. The block never sees these; its state holds no frequency (10_state.md R34). -/

namespace Sys2Proof.Software

/-- FrequencyTable (R172), in the order the host enumerates it: symbols with their counts. -/
abbrev FreqTable := List (Symbol × Nat)

/-- CodeTreeNode (R173): a leaf holds a symbol and its frequency; an internal node its combined frequency and
exactly two children. -/
inductive Tree where
  | leaf (sym : Symbol) (freq : Nat)
  | node (freq : Nat) (first second : Tree)
deriving DecidableEq, Repr

/-- The frequency a node holds (R173). -/
def Tree.freq : Tree → Nat
  | .leaf _ f => f
  | .node f _ _ => f

/-- The number of nodes. -/
def Tree.size : Tree → Nat
  | .leaf _ _ => 1
  | .node _ first second => 1 + first.size + second.size

/-- The symbols of the leaves, first child's first. -/
def Tree.symbols : Tree → List Symbol
  | .leaf sym _ => [sym]
  | .node _ first second => first.symbols ++ second.symbols

/-- FrequencyAnalyzer (R171, R172): every symbol that occurs, once, with its count, in the reference order
`ENUM_ORDER`, ascending symbol (R187). -/
def analyze (input : List Byte) : FreqTable :=
  (List.range nsym).filterMap fun n =>
    let sym := BitVec.ofNat 8 n
    if input.count sym = 0 then none else some (sym, input.count sym)

/-- The contents of a table: the count of every symbol, 0 where there is no entry. They do not say in which order
the entries were enumerated. -/
def tableCounts (table : FreqTable) (sym : Symbol) : Nat :=
  ((table.filter fun entry => decide (entry.1 = sym)).map Prod.snd).sum

/-- An order on nodes: whether the first is to be extracted before the second. -/
abbrev NodeOrder := Tree → Tree → Bool

/-- `TIEBREAK` (R176): an order on nodes that "depends only on the contents of the table (symbols and counts) and on
the merges already made, never on the order in which a table was enumerated". It is given the counts and the internal
nodes created so far, the oldest first (log 13). -/
abbrev TieBreak := (Symbol → Nat) → List Tree → NodeOrder

/-- A strict order on nodes, total on different ones, that refines "lower frequency first" (R176). -/
structure NodeOrder.Admissible (before : NodeOrder) : Prop where
  irrefl : ∀ a, before a a = false
  trans : ∀ a b c, before a b = true → before b c = true → before a c = true
  total : ∀ a b, a ≠ b → before a b = true ∨ before b a = true
  refines : ∀ a b, a.freq < b.freq → before a b = true

/-- What R176 asks of `TIEBREAK`: whatever the table's contents and the merges made, it is such an order. -/
def TieBreak.Admissible (tieBreak : TieBreak) : Prop :=
  ∀ (counts : Symbol → Nat) (merges : List Tree), NodeOrder.Admissible (tieBreak counts merges)

/-- The node to be extracted first, and the others. -/
def extractMin (before : NodeOrder) : List Tree → Option (Tree × List Tree)
  | [] => none
  | t :: rest =>
    match extractMin before rest with
    | none => some (t, [])
    | some (m, others) => if before m t then some (m, t :: others) else some (t, m :: others)

/-- "Repeatedly extract the two minimum-frequency nodes, create an internal node whose frequency is their sum ...
and reinsert it. Continue until one node remains" (R174): the first extracted is the first child. `merges` are the
internal nodes created so far; both nodes of a merge are extracted by the one order that `TIEBREAK` gives for them. -/
def mergeAll (order : List Tree → NodeOrder) : Nat → List Tree → List Tree → Option Tree
  | 0, _, _ => none
  | fuel + 1, merges, ts =>
    match extractMin (order merges) ts with
    | none => none
    | some (a, rest) =>
      match extractMin (order merges) rest with
      | none => some a
      | some (b, others) =>
        let merged := Tree.node (a.freq + b.freq) a b
        mergeAll order fuel (merges ++ [merged]) (merged :: others)

/-- `build(table) → root` (R174, R175): one leaf per symbol, merged. For one symbol the tree is the single leaf.
For the empty table there is no tree (R177; 93_implementation_defined.md U4; log 14). -/
def build (tieBreak : TieBreak) (table : FreqTable) : Option Tree :=
  mergeAll (tieBreak (tableCounts table)) table.length [] (table.map fun entry => .leaf entry.1 entry.2)

/-- The traversal of R178: "append '0' when descending to the first child, '1' to the second; at a leaf, record
the accumulated bitstring". -/
def leafPaths : Tree → Code → List (Symbol × Code)
  | .leaf sym _, acc => [(sym, acc)]
  | .node _ first second, acc => leafPaths first (acc ++ [false]) ++ leafPaths second (acc ++ [true])

/-- `deriveCodes(root) → CodeTable` (R178, R179); for the single-leaf tree the code is `"0"` (R175). -/
def deriveCodes : Tree → List (Symbol × Code)
  | .leaf sym _ => [(sym, singleCode)]
  | .node f first second => leafPaths (.node f first second) []

/-- The code a tree gives a symbol (R178). -/
def codeIn (t : Tree) (sym : Symbol) : Option Code := ((deriveCodes t).find? fun e => decide (e.1 = sym)).map Prod.snd

end Sys2Proof.Software
end

