-- ==== Sys2Proof/Machine/Pseudo.lean ====
section
/-! DEFINITION. The pseudo-instructions of 30_encoding.md R90, each a fixed expansion to commands; they are also how
the host runs `encode` and `decode` on the block (45_host_context.md R182, R183). -/

namespace Sys2Proof.Software

/-- `ESTR "text"`: one `ESYM` per byte, in order (R90). -/
def estr (text : List Byte) : List Instr := text.map .esym

/-- `ENCODE "text"`: `EST`, then `ESTR`, then `EFL` (R90, R182). -/
def encodeSession (text : List Byte) : List Instr := .est :: estr text ++ [.efl]

/-- `DECODE b0 ... bk, pad`: `DST`, the `DBYTE`s, then `DEND pad` (R90, R183). -/
def decodeSession (packed : List Byte) (pad : Byte) : List Instr := .dst :: packed.map .dbyte ++ [.dend pad]

/-- One `LDL` or `LDI` per node of the tree, numbered from `i` on in preorder (45_host_context.md R180): the node,
then the first child's subtree, then the second child's. DESIGN CHOICE (log 20): they are issued by rising index, parent
first, where R90 gives the numbering alone and R180 says "in any order". -/
def loadNodes : Tree → Nat → List Instr
  | .leaf sym _, i => [.ldl (BitVec.ofNat 9 i) sym]
  | .node _ first second, i =>
    .ldi (BitVec.ofNat 9 i) (BitVec.ofNat 9 (i + 1)) (BitVec.ofNat 9 (i + 1 + first.size)) ::
      (loadNodes first (i + 1) ++ loadNodes second (i + 1 + first.size))

/-- `LDTREE <tree>` (R90). -/
def ldTree (t : Tree) : List Instr := .clrt :: loadNodes t 0

/-- `LDCODES <tree>`: `CLRC`, then one `LDC` per leaf symbol, in ascending order of the symbol (R90, R181). -/
def ldCodes (t : Tree) : List Instr :=
  .clrc :: (List.range nsym).filterMap fun n =>
    let sym := BitVec.ofNat 8 n
    ((deriveCodes t).find? fun entry => decide (entry.1 = sym)).map fun entry => .ldc sym entry.2

end Sys2Proof.Software
end

