-- ==== Sys2Proof/Machine/Assembler.lean ====
section
/-! DEFINITION. The assembler's text (30_encoding.md R89) and the pseudo-instructions that are written as text (R90:
`ESTR`, `ENCODE`, `DECODE`). What R89 leaves open of the text is fixed in log 15. -/

namespace Sys2Proof.Software

/-- The pieces of a line. -/
inductive Token where
  /-- A mnemonic. -/
  | name (letters : List Char)
  /-- A number, `97` or `0x61`. -/
  | number (n : Nat)
  /-- A quoted ASCII character, as its number. -/
  | char (n : Nat)
  /-- A quoted text or bitstring. -/
  | text (chars : List Char)
  | comma
deriving DecidableEq, Repr

/-- The value of a digit in the given base. -/
def digitValue (base : Nat) (c : Char) : Option Nat :=
  let n := c.toNat
  let v :=
    if 48 ≤ n ∧ n ≤ 57 then some (n - 48)
    else if 65 ≤ n ∧ n ≤ 70 then some (n - 55)
    else if 97 ≤ n ∧ n ≤ 102 then some (n - 87)
    else none
  v.filter fun d => decide (d < base)

/-- The value of the digits that follow, and the characters after the last digit. -/
def scanDigits (base : Nat) (acc : Nat) : List Char → Nat × List Char
  | [] => (acc, [])
  | c :: rest =>
    match digitValue base c with
    | none => (acc, c :: rest)
    | some d => scanDigits base (acc * base + d) rest

/-- The capital letters at the front, and the characters after them. -/
def scanLetters : List Char → List Char × List Char
  | [] => ([], [])
  | c :: rest =>
    if 65 ≤ c.toNat ∧ c.toNat ≤ 90 then (c :: (scanLetters rest).1, (scanLetters rest).2) else ([], c :: rest)

/-- The characters up to the closing double quote, and those after it; `none` when there is no closing one. -/
def scanText : List Char → Option (List Char × List Char)
  | [] => none
  | c :: rest => if c = '"' then some ([], rest) else (scanText rest).map fun r => (c :: r.1, r.2)

/-- One token, and the characters after it. -/
def scanToken : List Char → Option (Token × List Char)
  | ',' :: rest => some (.comma, rest)
  | '\'' :: c :: '\'' :: rest => if c.toNat < 128 then some (.char c.toNat, rest) else none
  | '"' :: rest => (scanText rest).map fun r => (.text r.1, r.2)
  | '0' :: 'x' :: d :: rest =>
    (digitValue 16 d).map fun v => let r := scanDigits 16 v rest; (.number r.1, r.2)
  | c :: rest =>
    match digitValue 10 c with
    | some v => let r := scanDigits 10 v rest; some (.number r.1, r.2)
    | none => match scanLetters (c :: rest) with
      | ([], _) => none
      | (letters, after) => some (.name letters, after)
  | [] => none

/-- The tokens of a line; a comment runs from `;` to its end (R89). Every token takes a character, so the line's
length bounds their number. DESIGN CHOICE (log 15): blanks and tabs may stand between tokens, and none has to, so a
mnemonic may run into its first operand, and the bytes of `DECODE` into each other where they are quoted characters:
`ESYM97` is `ESYM 97`. -/
def tokens : Nat → List Char → Option (List Token)
  | _, [] => some []
  | _, ';' :: _ => some []
  | 0, _ :: _ => none
  | fuel + 1, c :: rest =>
    if c = ' ' ∨ c = '\t' then tokens fuel rest
    else
      match scanToken (c :: rest) with
      | none => none
      | some (t, after) => (tokens fuel after).map fun ts => t :: ts

/-- "A symbol or byte operand is a number or a quoted ASCII character" (R89). -/
def byteOperand : Token → Option Byte
  | .number n => if n < 256 then some (BitVec.ofNat 8 n) else none
  | .char n => some (BitVec.ofNat 8 n)
  | .name _ | .text _ | .comma => none

/-- "An index is a number 0 to 511" (R89). -/
def indexOperand : Token → Option Index
  | .number n => if n < nodes then some (BitVec.ofNat 9 n) else none
  | .char _ | .name _ | .text _ | .comma => none

/-- The bits of a quoted run of digits (00_scope.md R10). -/
def bitChars : List Char → Option Code
  | [] => some []
  | '0' :: rest => (bitChars rest).map (false :: ·)
  | '1' :: rest => (bitChars rest).map (true :: ·)
  | _ :: _ => none

/-- "A code is a quoted bitstring" (R89), of 1 to 255 bits (R78). -/
def codeOperand : Token → Option Code
  | .text chars => (bitChars chars).filter Code.legal
  | .number _ | .char _ | .name _ | .comma => none

/-- The bytes of a quoted ASCII text (R90). -/
def textBytes (chars : List Char) : Option (List Byte) :=
  if chars.all fun c => decide (c.toNat < 128) then some (chars.map fun c => BitVec.ofNat 8 c.toNat) else none

/-- The bytes of `DECODE` up to the comma, and the padding count after it (R90). DESIGN CHOICE (log 15): there may be no
byte before the comma, though R90 writes `b0 b1 ... bk, pad`; `DECODE , pad` is `DST`, `DEND pad`. -/
def decodeOperandsText : List Token → Option (List Byte × Byte)
  | [.comma, p] => (byteOperand p).map fun pad => ([], pad)
  | t :: rest =>
    match byteOperand t, decodeOperandsText rest with
    | some b, some (bs, pad) => some (b :: bs, pad)
    | _, _ => none
  | [] => none

/-- A command without operands, by its mnemonic. -/
def plainCommand (letters : List Char) : Option Instr :=
  if letters = ['R', 'S', 'T'] then some .rst
  else if letters = ['S', 'T', 'A', 'T'] then some .stat
  else if letters = ['C', 'L', 'R', 'C'] then some .clrc
  else if letters = ['C', 'L', 'R', 'T'] then some .clrt
  else if letters = ['E', 'S', 'T'] then some .est
  else if letters = ['E', 'F', 'L'] then some .efl
  else if letters = ['D', 'S', 'T'] then some .dst
  else none

/-- A command with one byte operand, by its mnemonic. -/
def byteCommand (letters : List Char) (v : Byte) : Option Instr :=
  if letters = ['E', 'S', 'Y', 'M'] then some (.esym v)
  else if letters = ['D', 'B', 'Y', 'T', 'E'] then some (.dbyte v)
  else if letters = ['D', 'E', 'N', 'D'] then some (.dend v)
  else none

/-- The commands a line stands for: one for a command, the fixed expansion for a pseudo-instruction, none for an
empty line or a comment; `none` when the line is not in the form of R89. -/
def assembleTokens : List Token → Option (List Instr)
  | [] => some []
  | [.name m] => (plainCommand m).map fun i => [i]
  | [.name m, .text chars] =>
    if m = ['E', 'S', 'T', 'R'] then (textBytes chars).map estr
    else if m = ['E', 'N', 'C', 'O', 'D', 'E'] then (textBytes chars).map encodeSession
    else none
  | .name m :: a :: rest =>
    if m = ['D', 'E', 'C', 'O', 'D', 'E'] then
      (decodeOperandsText (a :: rest)).map fun r => decodeSession r.1 r.2
    else
      match rest with
      | [] => (byteOperand a).bind fun v => (byteCommand m v).map fun i => [i]
      | [.comma, b] =>
        if m = ['L', 'D', 'C'] then
          match byteOperand a, codeOperand b with
          | some sym, some c => some [.ldc sym c]
          | _, _ => none
        else if m = ['L', 'D', 'L'] then
          match indexOperand a, byteOperand b with
          | some idx, some sym => some [.ldl idx sym]
          | _, _ => none
        else none
      | [.comma, b, .comma, c] =>
        if m = ['L', 'D', 'I'] then
          match indexOperand a, indexOperand b, indexOperand c with
          | some idx, some c0, some c1 => some [.ldi idx c0 c1]
          | _, _, _ => none
        else none
      | _ => none
  | _ => none

/-- The commands of one line of text (R89: "one command per line"). -/
def assembleLine (line : List Char) : Option (List Instr) :=
  (tokens line.length line).bind assembleTokens

/-- The commands of a text of several lines. -/
def assemble (text : List Char) : Option (List Instr) :=
  ((text.splitOn '\n').mapM assembleLine).map List.flatten

end Sys2Proof.Software
end

