-- ==== Sys2Proof/Machine/Container.lean ====
section
/-! DEFINITION. The host's container format and errors (45_host_context.md sections 5 and 7). -/

namespace Sys2Proof.Software

/-- The error classes in the one numbering of 60_exceptions.md R210 (R194), and the model's own refusal. -/
inductive HostError where
  /-- 1, the block's. -/
  | lookupError
  /-- 2, the block's. -/
  | corruptStreamError
  /-- 3, the host's `read` or the block. -/
  | formatError
  /-- 4, the host's `compress`. -/
  | emptyInputError
  /-- 5, the block's. -/
  | commandError
  /-- 6, the block's. -/
  | sequenceError
  /-- The spec says `refuse` (93_implementation_defined.md U4, U5, U6): no meaning is given (log 14). -/
  | unspecified
deriving DecidableEq, Repr

/-- A cause the block reports, as the host reports it (R194). -/
def HostError.ofCause : Machine.Cause → HostError
  | .lookupError => .lookupError
  | .corruptStreamError => .corruptStreamError
  | .formatError => .formatError
  | .commandError => .commandError
  | .sequenceError => .sequenceError

/-- The code of an error class (60_exceptions.md R210, R214). -/
def HostError.code : HostError → Option Nat
  | .lookupError => some 1
  | .corruptStreamError => some 2
  | .formatError => some 3
  | .emptyInputError => some 4
  | .commandError => some 5
  | .sequenceError => some 6
  | .unspecified => none

/-- A 4-byte integer, "most significant byte first" (R186). -/
def bytes32 (v : BitVec 32) : List Byte :=
  [v.extractLsb' 24 8, v.extractLsb' 16 8, v.extractLsb' 8 8, v.extractLsb' 0 8]

/-- The value of four bytes in file order, signed (R186). -/
def int32 (b0 b1 b2 b3 : Byte) : Int := (b0 ++ (b1 ++ (b2 ++ b3))).toInt

/-- A non-negative number as a 4-byte integer. -/
def nat32 (n : Nat) : List Byte := bytes32 (BitVec.ofNat 32 n)

/-- One table entry: "(1-byte symbol, 4-byte integer frequency)" (R184). -/
def entryBytes (entry : Symbol × Nat) : List Byte := entry.1 :: nat32 entry.2

/-- `write(table, stream) → container bytes` (R184, R187). -/
def writeContainer (table : FreqTable) (packed : List Byte) (pad : Nat) : List Byte :=
  nat32 table.length ++ (table.flatMap entryBytes ++ (nat32 pad ++ packed))

/-- A 4-byte field and the bytes after it; `none` when the buffer is truncated (R188). -/
def readInt : List Byte → Option (Int × List Byte)
  | b0 :: b1 :: b2 :: b3 :: rest => some (int32 b0 b1 b2 b3, rest)
  | _ => none

/-- `n` table entries and the bytes after them (R184, R188). -/
def readEntries : Nat → List Byte → Option (List (Symbol × Int) × List Byte)
  | 0, bytes => some ([], bytes)
  | n + 1, sym :: bytes =>
    match readInt bytes with
    | none => none
    | some (f, rest) =>
      match readEntries n rest with
      | none => none
      | some (entries, after) => some ((sym, f) :: entries, after)
  | _ + 1, [] => none

/-- A table of R172's invariant: every symbol once, every count positive, at most what a 4-byte integer holds
(93_implementation_defined.md U5, U6). -/
def tableSpecified (table : List (Symbol × Int)) : Bool :=
  decide ((table.map Prod.fst).Nodup) && table.all fun entry => decide (0 < entry.2) && decide (entry.2 < 2 ^ 31)

/-- What `read` gives: the table, the packed bytes and the padding count. -/
structure Contents where
  table : FreqTable
  packed : List Byte
  pad : Nat
deriving DecidableEq, Repr

/-- `read(bytes) → (table, stream)` (R188, R189, R200): the fields in order. A table outside R172's invariant is not
specified (U5; log 14). -/
def readContainer (bytes : List Byte) : Except HostError Contents :=
  match readInt bytes with
  | none => .error .formatError
  | some (tableSize, afterSize) =>
    if tableSize < 1 ∨ 256 < tableSize then .error .formatError
    else
      match readEntries tableSize.toNat afterSize with
      | none => .error .formatError
      | some (entries, afterTable) =>
        match readInt afterTable with
        | none => .error .formatError
        | some (pad, packed) =>
          if pad < 0 ∨ 7 < pad then .error .formatError
          else if tableSpecified entries then
            .ok { table := entries.map fun e => (e.1, e.2.toNat), packed := packed, pad := pad.toNat }
          else .error .unspecified

end Sys2Proof.Software
end

