-- ==== Sys2Proof/Machine/Pipeline.lean ====
section
/-! DEFINITION. The host's pipeline (45_host_context.md section 6), driving the block only through transactions and
responses (R182, R183, R190, R191, R195). -/

namespace Sys2Proof.Software

open Sys2Proof.Machine (State Response)

/-- Deliver one command, let the block take one step, and take its response (00_scope.md R8). -/
def issue (i : Instr) (s : State) : Option (State × Response) :=
  match Machine.step (Machine.deliver (encode i) s) with
  | .next t => t.outbox.getLast?.map fun r => (t, r)
  | .fault _ => none
  | .refused _ => none

/-- Issue commands in order and collect the payloads. "When any command of a session returns a status other than
`OK`, the host abandons the session, discards every byte the session delivered, reports the error" (R195,
60_exceptions.md R232). -/
def issueAll : List Instr → State → Except HostError (State × List (List Byte))
  | [], s => .ok (s, [])
  | i :: rest, s =>
    match issue i s with
    | none => .error .unspecified
    | some (t, r) =>
      match r.status with
      | .fault c => .error (HostError.ofCause c)
      | .refused c => .error (HostError.ofCause c)
      | .ok =>
        match issueAll rest t with
        | .error e => .error e
        | .ok (u, payloads) => .ok (u, r.payload :: payloads)

/-- The packed form from the payloads of an encoder session (41_encoder_ops.md R125): the payloads up to the last in
order, then the final byte if there is one; the padding count is byte 0 of the last payload. -/
def packedForm (payloads : List (List Byte)) : List Byte × Nat :=
  let last := payloads.getLastD []
  (payloads.dropLast.flatten ++ last.drop 1, (last.headD 0#8).toNat)

/-- `encode(bytes, codeTable)` on the block (R182). -/
def encodeOnBlock (text : List Byte) (s : State) : Except HostError (State × List Byte × Nat) :=
  match issueAll (encodeSession text) s with
  | .error e => .error e
  | .ok (t, payloads) => .ok (t, packedForm payloads)

/-- `decode(bits, root)` on the block (R183). -/
def decodeOnBlock (packed : List Byte) (pad : Nat) (s : State) : Except HostError (State × List Byte) :=
  match issueAll (decodeSession packed (BitVec.ofNat 8 pad)) s with
  | .error e => .error e
  | .ok (t, payloads) => .ok (t, payloads.flatten)

/-- The parameters the spec leaves to the host (R176, R187; 92_eei_decisions.md D25). -/
structure HostParams where
  tieBreak : TieBreak
  enumOrder : FreqTable → FreqTable

/-- The encoded bit count the host computes, `8 * |packedBytes| - paddingBitCount` (R192). -/
def encodedBitCount (packed : List Byte) (pad : Nat) : Nat := 8 * packed.length - pad

/-- What `compress` reports beside the container, "observability output (not part of the on-disk format)" (R192,
R193). -/
structure Statistics where
  originalSize : Nat
  encodedBits : Nat
  spaceSaved : Rat
deriving DecidableEq, Repr

/-- The statistics of a compression (R192); the percentage is a free value (log 17). -/
def statisticsOf (input packed : List Byte) (pad : Nat) (container : List Byte) : Statistics :=
  { originalSize := input.length, encodedBits := encodedBitCount packed pad,
    spaceSaved := Config.spaceSavedPercentage input container }

/-- What `compress` leaves: the block, the container, the statistics. -/
structure Compressed where
  block : State
  container : List Byte
  statistics : Statistics
deriving DecidableEq, Repr

/-- The loading commands of a run on a block of mode `m`: "With `STORE_MODE = ROM` steps 3 and 4 of rules R244 and R245
do not exist" (70_reset_and_hazards.md R245), so there are none. -/
def loadSteps (m : StoreMode) (cmds : List Instr) : List Instr :=
  match m with
  | .loadable => cmds
  | .rom => []

/-- `compress(inputBytes) → container` with its statistics (R190, R192) with a block in state `s`.
DESIGN CHOICE (log 18): of "`RST` or clear the stores" it issues `RST`, in every state of the block, which also ends an
open session of either unit. In a block with `STORE_MODE = ROM` it loads nothing (R244, R245) and the block encodes with
`ROM_CT`; DESIGN CHOICE (log 19): the tree of the input's table is built there too, and the container holds that table,
though the codes are the ROM's. DESIGN CHOICE (log 20): of the orders R181 leaves to the host it loads by `LDCODES`:
ascending symbols. -/
def compress (hp : HostParams) (input : List Byte) (s : State) : Except HostError Compressed :=
  if input = [] then .error .emptyInputError
  else
    let table := hp.enumOrder (analyze input)
    if table.any fun entry => decide (2 ^ 31 ≤ entry.2) then .error .unspecified
    else
      match build hp.tieBreak table with
      | none => .error .unspecified
      | some tree =>
        match issueAll (.rst :: loadSteps s.cfg.storeMode (ldCodes tree)) s with
        | .error e => .error e
        | .ok (t, _) =>
          match encodeOnBlock input t with
          | .error e => .error e
          | .ok (u, packed, pad) =>
            let container := writeContainer table packed pad
            .ok { block := u, container := container, statistics := statisticsOf input packed pad container }

/-- `decompress(container) → outputBytes` (R191) with a block in state `s`.
DESIGN CHOICE (log 18): it starts with `RST`, which R191 does not name, in every state of the block; that also ends an
open session of either unit. In a block with `STORE_MODE = ROM` it loads nothing (R245) and the block decodes with
`ROM_TS`; DESIGN CHOICE (log 19): the tree of the stored table is built there too, and is not used. DESIGN CHOICE
(log 20): of the numberings and orders R180 leaves to the host it loads by `LDTREE`: preorder, by rising index. -/
def decompress (hp : HostParams) (container : List Byte) (s : State) : Except HostError (State × List Byte) :=
  match readContainer container with
  | .error e => .error e
  | .ok c =>
    match build hp.tieBreak (hp.enumOrder c.table) with
    | none => .error .unspecified
    | some tree =>
      match issueAll (.rst :: loadSteps s.cfg.storeMode (ldTree tree)) s with
      | .error e => .error e
      | .ok (t, _) => decodeOnBlock c.packed c.pad t

end Sys2Proof.Software
end

