-- ==== Sys2Proof/Machine/Properties.lean ====
section
/-! DEFINITION. The source's testable properties (45_host_context.md R196), "all of host and block together", each for
an input, for the parameters of the host and for the blocks that compress and decompress. -/

namespace Sys2Proof.Software

open Sys2Proof.Machine (State)

/-- "Round-trip: ... `decompress(compress(B)) == B`": the block in state `s` compresses, the one in `s'`
decompresses. -/
def RoundTrips (hp : HostParams) (input : List Byte) (s s' : State) : Prop :=
  ∃ r, compress hp input s = .ok r ∧ ∃ t', decompress hp r.container s' = .ok (t', input)

/-- "Determinism: ... compressing B twice yields byte-identical containers". -/
def Deterministic (hp : HostParams) (input : List Byte) (s s' : State) : Prop :=
  ∃ r r', compress hp input s = .ok r ∧ compress hp input s' = .ok r' ∧ r.container = r'.container

/-- "Prefix-free: ... no code is a prefix of another code for a different symbol". -/
def PrefixFree (codes : List (Symbol × Code)) : Prop :=
  ∀ a ∈ codes, ∀ b ∈ codes, a.1 ≠ b.1 → ¬ a.2 <+: b.2

/-- "Frequency conservation: sum of frequencies in the table recovered from a container equals the length of the
decompressed output". -/
def FrequencyConserved (hp : HostParams) (input : List Byte) (s s' : State) : Prop :=
  ∀ r c t' output, compress hp input s = .ok r → readContainer r.container = .ok c →
    decompress hp r.container s' = .ok (t', output) → (c.table.map Prod.snd).sum = output.length

/-- The length of the stream of an input in the codes of a tree. -/
def encodedBitLength (tree : Tree) (input : List Byte) : Nat :=
  (input.map fun b => ((codeIn tree b).getD []).length).sum

/-- "Padding bound: `paddingBitCount` is always in [0,7]; `packedBytes.length * 8 - paddingBitCount ==
encodedBitLength`". -/
def PaddingBounded (hp : HostParams) (input : List Byte) (s : State) : Prop :=
  ∀ r c tree, compress hp input s = .ok r → readContainer r.container = .ok c → build hp.tieBreak c.table = some tree →
    c.pad ≤ padMax ∧ c.packed.length * 8 = encodedBitLength tree input + c.pad

/-- "Single-symbol edge case: input consisting of one repeated byte ... compresses and decompresses correctly despite
the degenerate one-leaf tree". -/
def SingleSymbolCase (hp : HostParams) (sym : Symbol) (n : Nat) (s s' : State) : Prop :=
  build hp.tieBreak (hp.enumOrder (analyze (List.replicate n sym))) = some (.leaf sym n) ∧
  RoundTrips hp (List.replicate n sym) s s'

/-- The input `"aaaab"`. -/
def twoSymbolInput : List Byte := [0x61#8, 0x61#8, 0x61#8, 0x61#8, 0x62#8]

/-- "Two-symbol minimal case: input "aaaab" (frequencies a:4,b:1) — verify the merge produces a 2-leaf tree, codes have
length 1 each, and round-trip holds". -/
def TwoSymbolCase (hp : HostParams) (s s' : State) : Prop :=
  analyze twoSymbolInput = [(0x61#8, 4), (0x62#8, 1)] ∧
  (∃ tree, build hp.tieBreak (hp.enumOrder (analyze twoSymbolInput)) = some tree ∧ tree.symbols.length = 2 ∧
    ∀ e ∈ deriveCodes tree, e.2.length = 1) ∧
  RoundTrips hp twoSymbolInput s s'

/-- "Truncated container: feeding `read` a buffer cut off mid-table must raise FormatError". -/
def TruncationRejected (hp : HostParams) (input : List Byte) (s : State) : Prop :=
  ∀ r c k, compress hp input s = .ok r → readContainer r.container = .ok c → k < 4 + 5 * c.table.length →
    readContainer (r.container.take k) = .error .formatError

/-- "Empty-input rejection: `compress("")` raises EmptyInputError and produces no container". -/
def EmptyInputRejected (hp : HostParams) (s : State) : Prop := compress hp [] s = .error .emptyInputError

end Sys2Proof.Software
end

