-- ==== Sys2Proof/Machine/TreeImage.lean ====
section
/-! DEFINITION. Well-formed tree images and the codes of a tree image (10_state.md R39, R40): "a definition the host
duties and the test vectors use; the block never evaluates it". -/

namespace Sys2Proof.Machine

/-- The node reached from `i` by a sequence of child choices, 0 for `c0`, 1 for `c1` (10_state.md R40). -/
def follow (ts : Store Node) (i : Index) : List Bool → Option Index
  | [] => some i
  | b :: rest =>
    match readNode ts i with
    | .internal c0 c1 => follow ts (childOf b c0 c1) rest
    | .leaf _ | .invalid => none

/-- Entry `i` is reachable from `ROOT`. -/
def Reachable (ts : Store Node) (i : Index) : Prop := ∃ path, follow ts root path = some i

/-- `TS` is a well-formed tree image (10_state.md R39). -/
structure WellFormedImage (ts : Store Node) : Prop where
  /-- (a) the root is a leaf or an internal node. -/
  rootPresent : readNode ts root ≠ .invalid
  /-- (b) children of reachable internal nodes are present. -/
  childrenPresent : ∀ i c0 c1, Reachable ts i → readNode ts i = .internal c0 c1 →
    readNode ts c0 ≠ .invalid ∧ readNode ts c1 ≠ .invalid
  /-- (b) and none of them is the root. -/
  childrenNotRoot : ∀ i c0 c1, Reachable ts i → readNode ts i = .internal c0 c1 → c0 ≠ root ∧ c1 ≠ root
  /-- (c) no entry is reachable by two different paths. -/
  onePath : ∀ p q i, follow ts root p = some i → follow ts root q = some i → p = q
  /-- (d) no symbol is held by two reachable leaves. -/
  oneLeaf : ∀ i j sym, Reachable ts i → Reachable ts j → readNode ts i = .leaf sym → readNode ts j = .leaf sym → i = j

/-- Symbol `sym` is held by a reachable leaf. -/
def HeldSymbol (ts : Store Node) (sym : Symbol) : Prop := ∃ i, Reachable ts i ∧ readNode ts i = .leaf sym

/-- `c` is `code_TS(sym)` (10_state.md R40): the child choices on the path to the leaf that holds `sym`; for an
image whose root is a leaf, `SINGLE_CODE`. -/
def IsCodeOf (ts : Store Node) (sym : Symbol) (c : Code) : Prop :=
  if readNode ts root = .leaf sym then c = singleCode
  else ∃ i, follow ts root c = some i ∧ readNode ts i = .leaf sym

/-- `CT` matches `TS` (10_state.md R40). -/
def TableMatches (ct : Store CTEntry) (ts : Store Node) : Prop :=
  ∀ sym, HeldSymbol ts sym → ∃ c, IsCodeOf ts sym c ∧ Store.read none ct sym.toNat = some c

end Sys2Proof.Machine
end

