-- ==== Sys2Proof/Safety.lean ====
section
/-! DEFINITION. The invariants the spec gives the block, and the terms the statements are made in. -/

namespace Sys2Proof.Machine

/-- The invariant every step keeps, each field from the rule it names. -/
structure State.Inv (s : State) : Prop where
  /-- Both stores are in canonical form, with codes of 1 to 255 bits (10_state.md R32, R33). -/
  memory : Memory.wf s = true
  /-- 10_state.md R26: `EACC[7 - ECNT : 0] = 0`. -/
  packer : ∀ i, i + s.ecnt.toNat < 8 → s.eacc.getLsbD i = false
  /-- The packer is empty while no encoder session is open (10_state.md R38, 41_encoder_ops.md R124). -/
  packerIdle : s.eph = .idle → s.eacc = 0#8 ∧ s.ecnt = 0#3
  /-- 10_state.md R29. -/
  walker : s.flt = none → s.dcur ≠ root → s.dph = .run ∧ ∃ c0 c1, s.readTS s.dcur = .internal c0 c1
  /-- 10_state.md R31: "When `DHV = 0` the value of `DHOLD` is 0". -/
  hold : s.dhv = false → s.dhold = 0#8
  /-- 10_state.md R31: no byte is held after `DEND`. -/
  holdIdle : s.dph = .idle → s.dhv = false
  /-- 70_reset_and_hazards.md R243: with `STORE_MODE = ROM` the stores are the images. -/
  rom : s.cfg.storeMode = .rom → s.ct = s.cfg.romCt ∧ s.ts = s.cfg.romTs
  /-- The images of a `ROM` block are in canonical form. -/
  config : s.cfg.storeMode = .rom → configWf s.cfg = true

/-- The pending bits of the packer, oldest first: bit `j` is `EACC[7 - j]` (10_state.md R24). -/
def pendingBits (eacc : BitVec 8) (ecnt : BitVec 3) : List Bool := (msbBits eacc).take ecnt.toNat

/-- The phase precondition of each command (60_exceptions.md R217). -/
def phaseOk (i : Instr) (s : State) : Bool :=
  match i with
  | .clrc | .ldc _ _ | .est => decide (s.eph = .idle)
  | .esym _ | .efl => decide (s.eph = .run)
  | .clrt | .ldl _ _ | .ldi _ _ _ | .dst => decide (s.dph = .idle)
  | .dbyte _ | .dend _ => decide (s.dph = .run)
  | .rst | .stat => true

/-- The state after a command completed with this payload, given the state `s` its effect left
(40_config_ops.md R100). -/
def State.answered (s : State) (payload : List Byte) : State :=
  { s with outbox := s.outbox ++ [{ status := .ok, payload := payload }] }

/-- The state after a command performed in `s` raised `c` (60_exceptions.md R216). -/
def State.afterFault (s : State) (c : Cause) : State :=
  { s with flt := some c, outbox := s.outbox ++ [{ status := .fault c, payload := [] }] }

/-- The state after a transaction was refused in `s` (60_exceptions.md R219). -/
def State.afterRefusal (s : State) (c : Cause) : State :=
  { s with outbox := s.outbox ++ [{ status := .refused c, payload := [] }] }

/-- The last response given. -/
def State.lastResponse (s : State) : Option Response := s.outbox.getLast?

/-- Every response is `OK`. -/
def AllOk (rs : List Response) : Prop := ∀ r ∈ rs, r.status = .ok

/-- The payloads of responses, in order. -/
def payloadsOf (rs : List Response) : List (List Byte) := rs.map Response.payload

/-- `k` steps: `k` transactions taken one after the other (20_memory.md R62). -/
def runSteps (k : Nat) (s : State) : Host.Outcome State Fault Refusal := Host.Core.run Sys2Proof.core k s

/-- Bit `k` of a byte sequence, bit 7 of byte 0 first (20_memory.md R54). -/
def bitOfBytes (bytes : List Byte) (k : Nat) : Bool := (bytes.getD (k / 8) 0#8).getLsbD (7 - k % 8)

/-- The length of a transaction with this opcode is not the one R83 gives, or its `len` is 0
(30_encoding.md R80 (4)). -/
def WrongLength (o : Opcode) (t : List Byte) : Prop :=
  (o = .ldc ∧ (t.length < 3 ∨ t.getD 2 0#8 = 0#8)) ∨ t.length ≠ commandLength o (t.getD 2 0#8)

/-- The value of a 16-bit index field of a transaction (30_encoding.md R77). -/
def fieldValue (t : List Byte) (at_ : Nat) : Nat := 256 * (t.getD at_ 0#8).toNat + (t.getD (at_ + 1) 0#8).toNat

/-- A reserved field bit of a transaction of the right length is set (30_encoding.md R80 (5), R77, R78). -/
def ReservedBitSet (o : Opcode) (t : List Byte) : Prop :=
  match o with
  | .ldl => 512 ≤ fieldValue t 1
  | .ldi => 512 ≤ fieldValue t 1 ∨ 512 ≤ fieldValue t 3 ∨ 512 ≤ fieldValue t 5
  | .ldc => ∃ k, (t.getD 2 0#8).toNat ≤ k ∧ k < 8 * (t.drop 3).length ∧ bitOfBytes (t.drop 3) k = true
  | .rst | .stat | .clrc | .clrt | .est | .esym | .efl | .dst | .dbyte | .dend => False

/-- The symbol of an `ESYM`. -/
def esymOperand : Instr → Option Symbol
  | .esym sym => some sym
  | .rst | .stat | .clrc | .ldc _ _ | .clrt | .ldl _ _ | .ldi _ _ _ | .est | .efl | .dst | .dbyte _ | .dend _ => none

/-- The byte of a `DBYTE`. -/
def dbyteOperand : Instr → Option Byte
  | .dbyte b => some b
  | .rst | .stat | .clrc | .ldc _ _ | .clrt | .ldl _ _ | .ldi _ _ _ | .est | .esym _ | .efl | .dst | .dend _ => none

/-- The payloads of the responses to those commands that `pick` selects. -/
def payloadsTo (pick : Instr → Bool) (cmds : List Instr) (rs : List Response) : List (List Byte) :=
  ((cmds.zip rs).filter fun e => pick e.1).map fun e => e.2.payload

end Sys2Proof.Machine
end

