-- ==== Sys2Proof/Certificates/Slice0/Obligations.lean ====
section
/-! DEFINITION. The statements about the block, from the numbered rules of spec/. A statement about a command says
first where it completes and what it leaves, then where it raises a fault. `t = { s with … }` is the frame: every
field not named is as before. The fields `inbox` and `outbox` are the model's port (log 2, log 10), and no rule speaks
of them: that a command leaves the one and puts its response at the end of the other is the model's. `derived by the
spec` marks a rule that the spec itself gives as an inference from others. -/

open Sys2Proof Sys2Proof.Machine

/-! ### Encoding (30_encoding.md) -/

/-- 95_test_vectors.md section 3.1, every family: words written out from the encoding. -/
def Obligations.DecodesTheWordsOfTheTable : Prop :=
  decode .loadable [0x01#8] = .command .rst ∧
  decode .loadable [0x02#8] = .command .stat ∧
  decode .loadable [0x11#8, 0x41#8, 0x09#8, 0xB3#8, 0x80#8] =
    .command (.ldc 0x41#8 [true, false, true, true, false, false, true, true, true]) ∧
  decode .loadable [0x19#8, 0x01#8, 0xFF#8, 0x61#8] = .command (.ldl 511#9 0x61#8) ∧
  decode .loadable [0x1A#8, 0x00#8, 0x00#8, 0x00#8, 0x01#8, 0x00#8, 0x02#8] = .command (.ldi 0#9 1#9 2#9) ∧
  decode .loadable [0x21#8, 0x61#8] = .command (.esym 0x61#8) ∧
  decode .loadable [0x32#8, 0x08#8] = .command (.dend 0x08#8)

/-- 30_encoding.md R84 (derived by the spec from R71, R77, R78, R80): a command with legal fields that exists in the
mode is what its encoding decodes to. -/
def Obligations.DecodeOfEncodeIsTheCommand : Prop :=
  ∀ (m : StoreMode) (i : Instr), i.wf = true → i.existsIn m = true → decode m (encode i) = .command i

/-- 30_encoding.md R84 (derived by the spec): an accepted transaction is the one encoding of its command, which has
legal fields and exists in the mode; so two different accepted transactions are two different commands. -/
def Obligations.AcceptedTransactionIsTheEncoding : Prop :=
  ∀ (m : StoreMode) (t : List Byte) (i : Instr), decode m t = .command i →
    t = encode i ∧ i.wf = true ∧ i.existsIn m = true

/-- 30_encoding.md R80: the five tests in their order, and what an illegal command does. -/
def Obligations.IllegalCommandsAreThoseOfTheRule : Prop :=
  (∀ m, decode m [] = .illegal .empty) ∧
  (∀ m b rest, (∀ o : Opcode, o.byte ≠ b) → decode m (b :: rest) = .illegal .reservedOpcode) ∧
  (∀ m (o : Opcode) rest,
    (m = .rom ∧ o.writesStore = true → decode m (o.byte :: rest) = .illegal .storeFixed) ∧
    (¬ (m = .rom ∧ o.writesStore = true) →
      (WrongLength o (o.byte :: rest) → decode m (o.byte :: rest) = .illegal .wrongLength) ∧
      (¬ WrongLength o (o.byte :: rest) →
        (ReservedBitSet o (o.byte :: rest) → decode m (o.byte :: rest) = .illegal .reservedBits) ∧
        (¬ ReservedBitSet o (o.byte :: rest) → ∃ i, decode m (o.byte :: rest) = .command i)))) ∧
  (∀ (s : State) t rest why, s.inbox = t :: rest → decode s.cfg.storeMode t = .illegal why →
    match s.flt with
    | none => step s = .next (State.afterFault { s with inbox := rest } .commandError)
    | some c => step s = .next (State.afterRefusal { s with inbox := rest } c))

/-- 30_encoding.md R81: with `STORE_MODE = ROM` the five store-writing opcodes spell no command. -/
def Obligations.RomModeHasNoStoreWritingCommand : Prop :=
  ∀ rest, ∀ b ∈ [0x10#8, 0x11#8, 0x18#8, 0x19#8, 0x1A#8], decode .rom (b :: rest) = .illegal .storeFixed

/-! ### One step (60_exceptions.md R218) -/

/-- 60_exceptions.md R218: a step runs the decoded command: exec of it, on the state without the transaction. That with
none delivered nothing happens is the model's choice (log 3). -/
def Obligations.StepPerformsTheDecodedCommand : Prop :=
  (∀ (s : State) t rest i, s.inbox = t :: rest → decode s.cfg.storeMode t = .command i →
    step s = exec i { s with inbox := rest }) ∧
  (∀ s : State, s.inbox = [] → step s = .next s)

/-- 60_exceptions.md R217: SequenceError is raised, when the block is not faulted, by a legal command whose phase
precondition fails, and by no other. -/
def Obligations.SequenceErrorExactlyWhenThePhaseIsWrong : Prop :=
  ∀ (s : State) (i : Instr), s.flt = none → i.wf = true → i.existsIn s.cfg.storeMode = true →
    (phaseOk i s = false → exec i s = .next (s.afterFault .sequenceError)) ∧
    (phaseOk i s = true → ∃ t r, exec i s = .next t ∧ t.lastResponse = some r ∧
      r.status ≠ .fault .sequenceError)

/-- 60_exceptions.md R219: while faulted every transaction other than a well-formed `RST` or `STAT` is refused. -/
def Obligations.FaultedBlockRefuses : Prop :=
  ∀ (s : State) c t rest, s.flt = some c → s.inbox = t :: rest → t ≠ [0x01#8] → t ≠ [0x02#8] →
    step s = .next (State.afterRefusal { s with inbox := rest } c)

/-- 60_exceptions.md R216: a step whose response is `FAULT(c)` has one effect on the block, `FLT <- c`, from a block
not faulted, and an empty payload. -/
def Obligations.FaultIsPrecise : Prop :=
  ∀ (s t : State) r c, step s = .next t → t.outbox = s.outbox ++ [r] → r.status = .fault c →
    s.flt = none ∧ t = State.afterFault { s with inbox := s.inbox.tail } c

/-- 10_state.md R21, 60_exceptions.md R220: `FLT` changes only by a fault, from 0 to its cause, or by `RST`, to 0. -/
def Obligations.FaultFlagChangesOnlyByFaultOrReset : Prop :=
  ∀ s t : State, step s = .next t →
    t.flt = s.flt ∨
    (s.flt = none ∧ ∃ c, t.flt = some c ∧ t.lastResponse = some { status := .fault c, payload := [] }) ∨
    (s.inbox.head? = some [0x01#8] ∧ t.flt = none)

/-- 20_memory.md R62: a command sees no effect of a later one: what a step does to the block and answers does not
depend on the transactions behind the one it takes. -/
def Obligations.CommandSeesNoLaterCommand : Prop :=
  ∀ (s t : State) x rest rest', s.inbox = x :: rest → step s = .next t →
    t.inbox = rest ∧ step { s with inbox := x :: rest' } = .next { t with inbox := rest' }

/-- 30_encoding.md R70 and 41_encoder_ops.md R126 (derived by the spec from R122, R124): exactly one response to every
transaction, with a payload of at most 32 bytes, at most 8 from a decoder command and at most 2 from `EFL`; a payload
comes only with `OK`. -/
def Obligations.OneBoundedResponsePerTransaction : Prop :=
  ∀ (s t : State) x rest, codeTableWf s.ct = true → s.inbox = x :: rest → step s = .next t →
    ∃ r, t.outbox = s.outbox ++ [r] ∧ r.payload.length ≤ maxPay ∧ (r.status ≠ .ok → r.payload = []) ∧
      (∀ i, decode s.cfg.storeMode x = .command i →
        (i = .efl → r.payload.length ≤ 2) ∧ (∀ b, i = .dbyte b ∨ i = .dend b → r.payload.length ≤ 8))

/-- 30_encoding.md R87 with the codes of 60_exceptions.md R210: the status bytes. -/
def Obligations.StatusBytesAreTheOnesListed : Prop :=
  statusByte .ok = 0x00#8 ∧
  [Cause.lookupError, .corruptStreamError, .formatError, .commandError, .sequenceError].map
    (fun c => (statusByte (.fault c), statusByte (.refused c))) =
    [(0x81#8, 0xC1#8), (0x82#8, 0xC2#8), (0x83#8, 0xC3#8), (0x85#8, 0xC5#8), (0x86#8, 0xC6#8)] ∧
  (∀ st, statusByte st ∈ [0x00#8, 0x81#8, 0x82#8, 0x83#8, 0x85#8, 0x86#8, 0xC1#8, 0xC2#8, 0xC3#8, 0xC5#8, 0xC6#8])

/-! ### Reset and the system commands (10_state.md R38, 43_system_ops.md) -/

/-- 10_state.md R38: every piece of state after reset, in both modes, and after `RST`. -/
def Obligations.ResetValues : Prop :=
  (∀ cfg : Config, let s := State.resetOf cfg
    s.flt = none ∧ s.eph = .idle ∧ s.eacc = 0#8 ∧ s.ecnt = 0#3 ∧ s.dph = .idle ∧ s.dcur = 0#9 ∧ s.dhold = 0#8 ∧
    s.dhv = false ∧
    (cfg.storeMode = .loadable → (∀ sym, s.readCT sym = none) ∧ ∀ i, s.readTS i = .invalid) ∧
    (cfg.storeMode = .rom → (∀ sym, s.readCT sym = Store.read none cfg.romCt sym.toNat) ∧
      ∀ i, s.readTS i = readNode cfg.romTs i)) ∧
  (∀ s : State, ∃ t, exec .rst s = .next t ∧
    t = { State.resetOf s.cfg with inbox := s.inbox, outbox := s.outbox ++ [{ status := .ok, payload := [] }] })

/-- 43_system_ops.md R160, 70_reset_and_hazards.md R242: `RST` is performed in every state, puts every piece of state
at its reset value, answers `OK` with an empty payload; `01` followed by further bytes is not `RST`. -/
def Obligations.RstRestoresTheResetState : Prop :=
  (∀ s : State, ∃ t, exec .rst s = .next t ∧
    t.flt = none ∧ t.eph = .idle ∧ t.eacc = 0#8 ∧ t.ecnt = 0#3 ∧ t.dph = .idle ∧ t.dcur = 0#9 ∧ t.dhold = 0#8 ∧
    t.dhv = false ∧
    (s.cfg.storeMode = .loadable → (∀ sym, t.readCT sym = none) ∧ ∀ i, t.readTS i = .invalid) ∧
    (s.cfg.storeMode = .rom → t.ct = s.cfg.romCt ∧ t.ts = s.cfg.romTs) ∧
    t.cfg = s.cfg ∧ t.inbox = s.inbox ∧ t.outbox = s.outbox ++ [{ status := .ok, payload := [] }] ∧
    t = { State.resetOf s.cfg with inbox := t.inbox, outbox := t.outbox }) ∧
  (∀ m, decode m [0x01#8] = .command .rst) ∧
  (∀ m b rest, decode m (0x01#8 :: b :: rest) = .illegal .wrongLength)

/-- 43_system_ops.md R161, 10_state.md R36: `STAT` is performed in every state, faulted or not, writes no state, and
answers `OK` with the two bytes of the `STATUS` word, high byte first. -/
def Obligations.StatAnswersTheStatusWord : Prop :=
  (∀ m, decode m [0x02#8] = .command .stat) ∧
  ∀ s : State, ∃ hi lo : Byte, exec .stat s = .next (s.answered [hi, lo]) ∧
    (let w : BitVec 16 := hi ++ lo
     w.extractLsb' 12 4 = 0#4 ∧ w.extractLsb' 8 4 = fltBits s.flt ∧
     w.getLsbD 7 = decide (s.eph = .run) ∧ w.getLsbD 6 = decide (s.dph = .run) ∧ w.getLsbD 5 = s.dhv ∧
     w.getLsbD 4 = decide (s.cfg.storeMode = .rom) ∧ w.getLsbD 3 = false ∧ w.extractLsb' 0 3 = s.ecnt)

/-- 43_system_ops.md R161: "`STAT` never returns `EACC`, `DCUR` or `DHOLD`", nor anything of the stores (20_memory.md
R50): two states that differ only there get the same response. -/
def Obligations.StatDoesNotRevealHiddenState : Prop :=
  ∀ (s : State) eacc dcur dhold ct ts t u, exec .stat s = .next t →
    exec .stat { s with eacc := eacc, dcur := dcur, dhold := dhold, ct := ct, ts := ts } = .next u →
    t.lastResponse = u.lastResponse

/-! ### Store-loading commands (40_config_ops.md) -/

/-- 40_config_ops.md R101. -/
def Obligations.ClrcClearsTheCodeTable : Prop :=
  decode .loadable [0x10#8] = .command .clrc ∧
  (∀ s : State, s.flt = none → s.cfg.storeMode = .loadable →
    (s.eph = .idle → ∃ t : State, exec .clrc s = .next (t.answered []) ∧
      t = { s with ct := t.ct } ∧ ∀ sym, t.readCT sym = none) ∧
    (s.eph = .run → exec .clrc s = .next (s.afterFault .sequenceError))) ∧
  (∀ (s : State) rest, s.flt = none → s.cfg.storeMode = .rom → s.inbox = [0x10#8] :: rest →
    step s = .next (State.afterFault { s with inbox := rest } .commandError))

/-- 40_config_ops.md R102: the encoding, the effect on the code table, and every fault the rule gives. -/
def Obligations.LdcWritesOneCode : Prop :=
  (∀ sym code, Code.legal code = true →
    decode .loadable (0x11#8 :: sym :: BitVec.ofNat 8 code.length :: packBits code) = .command (.ldc sym code)) ∧
  (∀ (s : State) sym code, s.flt = none → Code.legal code = true → s.cfg.storeMode = .loadable →
    (s.eph = .idle → ∃ t : State, exec (.ldc sym code) s = .next (t.answered []) ∧
      t = { s with ct := t.ct } ∧ ∀ sym', t.readCT sym' = if sym' = sym then some code else s.readCT sym') ∧
    (s.eph = .run → exec (.ldc sym code) s = .next (s.afterFault .sequenceError))) ∧
  (∀ (s : State) bytes rest, s.flt = none → s.cfg.storeMode = .rom → s.inbox = (0x11#8 :: bytes) :: rest →
    step s = .next (State.afterFault { s with inbox := rest } .commandError)) ∧
  (∀ (s : State) sym len bytes rest, s.flt = none → s.inbox = (0x11#8 :: sym :: len :: bytes) :: rest →
    (len = 0#8 ∨ bytes.length ≠ (len.toNat + 7) / 8 ∨
      ∃ k, len.toNat ≤ k ∧ k < 8 * bytes.length ∧ bitOfBytes bytes k = true) →
    step s = .next (State.afterFault { s with inbox := rest } .commandError))

/-- 40_config_ops.md R103. -/
def Obligations.ClrtClearsTheTreeStore : Prop :=
  decode .loadable [0x18#8] = .command .clrt ∧
  (∀ s : State, s.flt = none → s.cfg.storeMode = .loadable →
    (s.dph = .idle → ∃ t : State, exec .clrt s = .next (t.answered []) ∧
      t = { s with ts := t.ts } ∧ ∀ i, t.readTS i = .invalid) ∧
    (s.dph = .run → exec .clrt s = .next (s.afterFault .sequenceError))) ∧
  (∀ (s : State) rest, s.flt = none → s.cfg.storeMode = .rom → s.inbox = [0x18#8] :: rest →
    step s = .next (State.afterFault { s with inbox := rest } .commandError))

/-- 40_config_ops.md R104. -/
def Obligations.LdlWritesOneLeaf : Prop :=
  (∀ ih il sym idx, idx.toNat = 256 * ih.toNat + il.toNat →
    decode .loadable [0x19#8, ih, il, sym] = .command (.ldl idx sym)) ∧
  (∀ (s : State) idx sym, s.flt = none → s.cfg.storeMode = .loadable →
    (s.dph = .idle → ∃ t : State, exec (.ldl idx sym) s = .next (t.answered []) ∧
      t = { s with ts := t.ts } ∧ ∀ i, t.readTS i = if i = idx then .leaf sym else s.readTS i) ∧
    (s.dph = .run → exec (.ldl idx sym) s = .next (s.afterFault .sequenceError))) ∧
  (∀ (s : State) bytes rest, s.flt = none → s.cfg.storeMode = .rom → s.inbox = (0x19#8 :: bytes) :: rest →
    step s = .next (State.afterFault { s with inbox := rest } .commandError)) ∧
  (∀ (s : State) ih il sym rest, s.flt = none → s.inbox = [0x19#8, ih, il, sym] :: rest →
    512 ≤ 256 * ih.toNat + il.toNat → step s = .next (State.afterFault { s with inbox := rest } .commandError))

/-- 40_config_ops.md R105: `c0` is the first child, taken on bit 0, `c1` the second. -/
def Obligations.LdiWritesOneInternalNode : Prop :=
  (∀ ih il ah al bh bl idx c0 c1, idx.toNat = 256 * ih.toNat + il.toNat → c0.toNat = 256 * ah.toNat + al.toNat →
    c1.toNat = 256 * bh.toNat + bl.toNat →
    decode .loadable [0x1A#8, ih, il, ah, al, bh, bl] = .command (.ldi idx c0 c1)) ∧
  (∀ (s : State) idx c0 c1, s.flt = none → s.cfg.storeMode = .loadable →
    (s.dph = .idle → ∃ t : State, exec (.ldi idx c0 c1) s = .next (t.answered []) ∧
      t = { s with ts := t.ts } ∧ ∀ i, t.readTS i = if i = idx then .internal c0 c1 else s.readTS i) ∧
    (s.dph = .run → exec (.ldi idx c0 c1) s = .next (s.afterFault .sequenceError))) ∧
  (∀ (s : State) bytes rest, s.flt = none → s.cfg.storeMode = .rom → s.inbox = (0x1A#8 :: bytes) :: rest →
    step s = .next (State.afterFault { s with inbox := rest } .commandError)) ∧
  (∀ (s : State) ih il ah al bh bl rest, s.flt = none → s.inbox = [0x1A#8, ih, il, ah, al, bh, bl] :: rest →
    (512 ≤ 256 * ih.toNat + il.toNat ∨ 512 ≤ 256 * ah.toNat + al.toNat ∨ 512 ≤ 256 * bh.toNat + bl.toNat) →
    step s = .next (State.afterFault { s with inbox := rest } .commandError))

/-- 20_memory.md R59: store writes are idempotent: repeating an `LDC`, `LDL` or `LDI` changes only the responses. -/
def Obligations.LoadingTwiceIsLoadingOnce : Prop :=
  ∀ (s t u : State) (i : Instr), (∃ sym c, i = .ldc sym c) ∨ (∃ idx sym, i = .ldl idx sym) ∨
      (∃ idx c0 c1, i = .ldi idx c0 c1) →
    exec i s = .next t → exec i t = .next u → u = { t with outbox := u.outbox }

/-- 20_memory.md R50 to R52: the stores are read back as they were written, entry by entry, and a write keeps the
canonical form. -/
def Obligations.StoresReadBackWhatWasWritten : Prop :=
  ∀ s : State, Memory.wf s = true →
    (∀ sym sym' c, Code.legal c = true →
      (s.writeCT sym (some c)).readCT sym' = (if sym = sym' then some c else s.readCT sym') ∧
      Memory.wf (s.writeCT sym (some c)) = true) ∧
    (∀ sym sym', (s.writeCT sym none).readCT sym' = (if sym = sym' then none else s.readCT sym')) ∧
    (∀ i j n, (s.writeTS i n).readTS j = (if i = j then n else s.readTS j) ∧ Memory.wf (s.writeTS i n) = true)

/-! ### Encoder commands (41_encoder_ops.md) -/

/-- 41_encoder_ops.md R121. -/
def Obligations.EstOpensAnEncoderSession : Prop :=
  (∀ m, decode m [0x20#8] = .command .est) ∧
  ∀ s : State, s.flt = none →
    (s.eph = .idle → ∃ t : State, exec .est s = .next (t.answered []) ∧
      t = { s with eacc := t.eacc, ecnt := t.ecnt, eph := t.eph } ∧ t.eacc = 0#8 ∧ t.ecnt = 0#3 ∧ t.eph = .run) ∧
    (s.eph = .run → exec .est s = .next (s.afterFault .sequenceError))

/-- 41_encoder_ops.md R123: `pack(b)` puts `b` at `EACC[7 - ECNT]` and no other bit, and emits the byte when that was
position 0. -/
def Obligations.PackPlacesOneBit : Prop :=
  ∀ (p : Packer) (b : Bool), ∃ acc : Byte,
    (∀ j, j < 8 → acc.getLsbD j = if j + p.ecnt.toNat = 7 then b else p.eacc.getLsbD j) ∧
    (p.ecnt.toNat = 7 → pack p b = { eacc := 0#8, ecnt := 0#3, out := p.out ++ [acc] }) ∧
    (p.ecnt.toNat < 7 → (pack p b).eacc = acc ∧ (pack p b).out = p.out ∧
      (pack p b).ecnt.toNat = p.ecnt.toNat + 1)

/-- 41_encoder_ops.md R122: the packer is given the bits of the symbol's code in order; the bytes completed are the
payload; and, by the stream, bits emitted and bits pending are the bits that were pending and then the code. -/
def Obligations.EsymAppendsTheCode : Prop :=
  (∀ m sym, decode m [0x21#8, sym] = .command (.esym sym)) ∧
  ∀ (s : State) sym, s.flt = none →
    (s.eph = .run → ∀ c, s.readCT sym = some c → ∃ t : State, ∃ bytes : List Byte,
      exec (.esym sym) s = .next (t.answered bytes) ∧ t = { s with eacc := t.eacc, ecnt := t.ecnt } ∧
      c.foldl pack { eacc := s.eacc, ecnt := s.ecnt, out := [] } = { eacc := t.eacc, ecnt := t.ecnt, out := bytes } ∧
      bytes.length = (s.ecnt.toNat + c.length) / 8 ∧ t.ecnt.toNat = (s.ecnt.toNat + c.length) % 8 ∧
      (Code.legal c = true → bytes.length ≤ 32) ∧
      unpackBits bytes ++ pendingBits t.eacc t.ecnt = pendingBits s.eacc s.ecnt ++ c) ∧
    (s.eph = .run → s.readCT sym = none → exec (.esym sym) s = .next (s.afterFault .lookupError)) ∧
    (s.eph = .idle → exec (.esym sym) s = .next (s.afterFault .sequenceError))

/-- 41_encoder_ops.md R124, R127: the padding count, then, only when it is not 0, the final byte; the session is
closed. -/
def Obligations.EflFlushesAndCloses : Prop :=
  (∀ m, decode m [0x22#8] = .command .efl) ∧
  ∀ s : State, s.flt = none →
    (s.eph = .run → ∃ t : State, ∃ count : Byte,
      exec .efl s = .next (t.answered (if s.ecnt = 0#3 then [count] else [count, s.eacc])) ∧
      t = { s with eacc := t.eacc, ecnt := t.ecnt, eph := t.eph } ∧ t.eacc = 0#8 ∧ t.ecnt = 0#3 ∧ t.eph = .idle ∧
      count.toNat = (if s.ecnt = 0#3 then 0 else 8 - s.ecnt.toNat)) ∧
    (s.eph = .idle → exec .efl s = .next (s.afterFault .sequenceError))

/-- 10_state.md R26 (derived by the spec from R121, R123, R124): every bit of `EACC` that is not pending is zero after
reset, and every step keeps it so. -/
def Obligations.UnusedPackerBitsStayZero : Prop :=
  (∀ cfg i, i + (State.resetOf cfg).ecnt.toNat < 8 → (State.resetOf cfg).eacc.getLsbD i = false) ∧
  ∀ s t : State, (∀ i, i + s.ecnt.toNat < 8 → s.eacc.getLsbD i = false) → step s = .next t →
    ∀ i, i + t.ecnt.toNat < 8 → t.eacc.getLsbD i = false

/-- 20_memory.md R54, 30_encoding.md R85: the packed bytes of a stream, bit by bit; the padding count; the inverse map;
and that no other pair satisfies the invariant of R85. -/
def Obligations.PackedFormHasTheStreamBits : Prop :=
  ∀ l : List Bool,
    (packBits l).length = (l.length + 7) / 8 ∧
    (∀ k, k < 8 * (packBits l).length →
      bitOfBytes (packBits l) k = if k < l.length then l.getD k false else false) ∧
    padCount l.length ≤ padMax ∧ 8 * (packBits l).length = l.length + padCount l.length ∧
    streamBits (packBits l) (padCount l.length) = l ∧
    (∀ n pad, pad ≤ padMax → 8 * n = l.length + pad → n = (packBits l).length ∧ pad = padCount l.length)

/-! ### Decoder commands (42_decoder_ops.md) -/

/-- 42_decoder_ops.md R141. -/
def Obligations.DstOpensADecoderSession : Prop :=
  (∀ m, decode m [0x30#8] = .command .dst) ∧
  ∀ s : State, s.flt = none →
    (s.dph = .idle → ∃ t : State, exec .dst s = .next (t.answered []) ∧
      t = { s with dcur := t.dcur, dhold := t.dhold, dhv := t.dhv, dph := t.dph } ∧
      t.dcur = 0#9 ∧ t.dhold = 0#8 ∧ t.dhv = false ∧ t.dph = .run) ∧
    (s.dph = .run → exec .dst s = .next (s.afterFault .sequenceError))

/-- 42_decoder_ops.md R142: one step of the walk, on any node and any store contents. -/
def Obligations.WalkStepFollowsTheTree : Prop :=
  ∀ (ts : Store Node) (w : Walker),
    (readNode ts w.dcur = .invalid → ∀ b, walk1 ts w b = none) ∧
    (∀ sym, readNode ts w.dcur = .leaf sym →
      walk1 ts w false = some { dcur := w.dcur, out := w.out ++ [sym] } ∧ walk1 ts w true = none) ∧
    (∀ c0 c1, readNode ts w.dcur = .internal c0 c1 → ∀ b, ∀ child, child = (if b = true then c1 else c0) →
      (readNode ts child = .invalid → walk1 ts w b = none) ∧
      (∀ sym, readNode ts child = .leaf sym → walk1 ts w b = some { dcur := 0#9, out := w.out ++ [sym] }) ∧
      (∀ d0 d1, readNode ts child = .internal d0 d1 → walk1 ts w b = some { dcur := child, out := w.out }))

/-- 42_decoder_ops.md R143: `consume(B, k)` walks `B[7]`, `B[6]`, … for `k` bits, and emits at most `k` symbols. -/
def Obligations.ConsumeWalksMostSignificantFirst : Prop :=
  ∀ (ts : Store Node) (w : Walker) (held : Byte) (k : Nat), k ≤ 8 →
    consume ts w held k = (List.range k).foldlM (fun v j => walk1 ts v (held.getLsbD (7 - j))) w ∧
    ∀ v, consume ts w held k = some v → v.out.length ≤ w.out.length + k

/-- 42_decoder_ops.md R144: the bits of the held byte are walked, the new byte is held; on a fault the old byte stays
held. -/
def Obligations.DbyteWalksTheHeldByte : Prop :=
  (∀ m b, decode m [0x31#8, b] = .command (.dbyte b)) ∧
  ∀ (s : State) b, s.flt = none →
    (s.dph = .run → s.dhv = false →
      exec (.dbyte b) s = .next (State.answered { s with dhold := b, dhv := true } [])) ∧
    (s.dph = .run → s.dhv = true →
      match (List.range 8).foldlM (fun v j => walk1 s.ts v (s.dhold.getLsbD (7 - j))) { dcur := s.dcur, out := [] } with
      | some w => exec (.dbyte b) s = .next (State.answered { s with dcur := w.dcur, dhold := b, dhv := true } w.out) ∧
          w.out.length ≤ 8
      | none => exec (.dbyte b) s = .next (s.afterFault .corruptStreamError)) ∧
    (s.dph = .idle → exec (.dbyte b) s = .next (s.afterFault .sequenceError))

/-- 42_decoder_ops.md R145: the tests in their order, the walk of the first `8 - pad` bits, the session closed with the
walk at the root. -/
def Obligations.DendWalksTheUnpaddedBits : Prop :=
  (∀ m pad, decode m [0x32#8, pad] = .command (.dend pad)) ∧
  ∀ (s : State) (pad : Byte), s.flt = none →
    (s.dph = .run → 7 < pad.toNat → exec (.dend pad) s = .next (s.afterFault .formatError)) ∧
    (s.dph = .run → pad.toNat ≤ 7 → pad ≠ 0#8 → s.dhv = false →
      exec (.dend pad) s = .next (s.afterFault .formatError)) ∧
    (s.dph = .run → pad = 0#8 → s.dhv = false → s.dcur = 0#9 →
      exec (.dend pad) s = .next (State.answered { s with dhold := 0#8, dhv := false, dph := .idle } [])) ∧
    (s.dph = .run → pad = 0#8 → s.dhv = false → s.dcur ≠ 0#9 →
      exec (.dend pad) s = .next (s.afterFault .corruptStreamError)) ∧
    (s.dph = .run → pad.toNat ≤ 7 → s.dhv = true →
      match (List.range (8 - pad.toNat)).foldlM (fun v j => walk1 s.ts v (s.dhold.getLsbD (7 - j)))
          { dcur := s.dcur, out := [] } with
      | some w =>
        if w.dcur = 0#9 then
          exec (.dend pad) s =
            .next (State.answered { s with dcur := 0#9, dhold := 0#8, dhv := false, dph := .idle } w.out) ∧
          w.out.length ≤ 8
        else exec (.dend pad) s = .next (s.afterFault .corruptStreamError)
      | none => exec (.dend pad) s = .next (s.afterFault .corruptStreamError)) ∧
    (s.dph = .idle → exec (.dend pad) s = .next (s.afterFault .sequenceError))

/-- 42_decoder_ops.md R148: `DEND` does not read the padding bits: held bytes that agree on the first `8 - pad` bits
give the same response and leave the same state, but for the held byte itself after a fault. -/
def Obligations.PaddingBitsAreNotExamined : Prop :=
  ∀ (s : State) (pad held : Byte), (∀ j, j < 8 - pad.toNat → s.dhold.getLsbD (7 - j) = held.getLsbD (7 - j)) →
    ∃ t u, exec (.dend pad) s = .next t ∧ exec (.dend pad) { s with dhold := held } = .next u ∧
      { u with dhold := t.dhold } = t

/-- 10_state.md R29 (derived by the spec from R103 to R105, R141, R142, R145): while not faulted, a walk off the root
is in an open session and on an internal node: after reset the walk is at the root, and every step keeps it so. -/
def Obligations.WalkStandsOnAnInternalNode : Prop :=
  (∀ cfg, (State.resetOf cfg).dcur = 0#9) ∧
  ∀ s t : State, (s.flt = none → s.dcur ≠ 0#9 → s.dph = .run ∧ ∃ c0 c1, s.readTS s.dcur = .internal c0 c1) →
    step s = .next t →
    (t.flt = none → t.dcur ≠ 0#9 → t.dph = .run ∧ ∃ c0 c1, t.readTS t.dcur = .internal c0 c1)

/-! ### What a command leaves alone -/

/-- 10_state.md R27, 20_memory.md R65: while its unit has a session open a store is not written, but by `RST`. -/
def Obligations.OpenSessionLocksItsStore : Prop :=
  ∀ s t : State, step s = .next t → s.inbox.head? ≠ some [0x01#8] →
    (s.eph = .run → t.ct = s.ct) ∧ (s.dph = .run → t.ts = s.ts)

/-- 10_state.md R20 (columns "written by"), 70_reset_and_hazards.md R251: an encoder command leaves the decoder and
both stores alone, a decoder command the encoder and both stores, a loading command every register but `FLT` and the
other store; none of them changes the configuration. -/
def Obligations.CommandsTouchOnlyTheirUnit : Prop :=
  ∀ (i : Instr) (s t : State), exec i s = .next t →
    ((i = .est ∨ (∃ sym, i = .esym sym) ∨ i = .efl) →
      t = { s with flt := t.flt, eph := t.eph, eacc := t.eacc, ecnt := t.ecnt, outbox := t.outbox }) ∧
    ((i = .dst ∨ (∃ b, i = .dbyte b) ∨ (∃ pad, i = .dend pad)) →
      t = { s with flt := t.flt, dph := t.dph, dcur := t.dcur, dhold := t.dhold, dhv := t.dhv, outbox := t.outbox }) ∧
    ((i = .clrc ∨ ∃ sym c, i = .ldc sym c) → t = { s with flt := t.flt, ct := t.ct, outbox := t.outbox }) ∧
    ((i = .clrt ∨ (∃ idx sym, i = .ldl idx sym) ∨ (∃ idx c0 c1, i = .ldi idx c0 c1)) →
      t = { s with flt := t.flt, ts := t.ts, outbox := t.outbox })

/-- 70_reset_and_hazards.md R243: with `STORE_MODE = ROM` the stores are equal to their images after reset, and
before and after every command. -/
def Obligations.RomStoresNeverChange : Prop :=
  (∀ cfg : Config, cfg.storeMode = .rom →
    (State.resetOf cfg).ct = cfg.romCt ∧ (State.resetOf cfg).ts = cfg.romTs) ∧
  ∀ s t : State, s.cfg.storeMode = .rom → s.ct = s.cfg.romCt → s.ts = s.cfg.romTs → step s = .next t →
    t.cfg = s.cfg ∧ t.ct = s.cfg.romCt ∧ t.ts = s.cfg.romTs

/-- 10_state.md R33: the 20-bit form of a tree-store entry, its tags, and that it holds the node. -/
def Obligations.NodeWordHoldsTheNode : Prop :=
  (∀ n : Node, nodeOfWord (nodeWord n) = some n) ∧
  (∀ w n, nodeOfWord w = some n → nodeWord n = w) ∧
  (∀ sym, (nodeWord (.leaf sym)).toNat = 2 ^ 18 + sym.toNat) ∧
  (∀ c0 c1, (nodeWord (.internal c0 c1)).toNat = 2 * 2 ^ 18 + 512 * c0.toNat + c1.toNat) ∧
  (nodeWord .invalid).toNat = 0

/-- 10_state.md R32: the length field and the bit field of a code-table entry. -/
def Obligations.CodeEntryFields : Prop :=
  ctLenField none = 0#8 ∧ ctBitField none = 0#255 ∧
  ∀ c, Code.legal c = true → (ctLenField (some c)).toNat = c.length ∧
    ∀ i, i < 255 → (ctBitField (some c)).getLsbD i = if i < c.length then c.getD i false else false

/-! ### Invariants -/

/-- The invariant of Safety.lean holds after reset. -/
def Obligations.ResetMeetsTheInvariant : Prop := State.reset.Inv

/-- The invariant of Safety.lean (10_state.md R26, R29, R31, R32, R33; 70_reset_and_hazards.md R243) is kept by every
step from every state that meets it. -/
def Obligations.EveryStepKeepsTheInvariant : Prop := ∀ s t : State, s.Inv → step s = .next t → t.Inv

/-! ### Sessions -/

/-- 41_encoder_ops.md R125 (derived by the spec from R121 to R124): an encoder session in which every command returns
`OK`, other commands coming between: its payloads are the packed form of the codes of its symbols, in order. -/
def Obligations.EncoderSessionPacksTheStream : Prop :=
  ∀ (s t : State) (mid : List Instr) (more : List (List Byte)) (rs : List Response),
    s.inbox = (Instr.est :: mid ++ [Instr.efl]).map encode ++ more → (∀ i ∈ mid, i.wf = true ∧ i ≠ .est ∧ i ≠ .efl) →
    runSteps (mid.length + 2) s = .next t → t.outbox = s.outbox ++ rs → AllOk rs →
    ∃ codes : List Code, (mid.filterMap esymOperand).map s.readCT = codes.map some ∧
      (let cmds := Instr.est :: mid ++ [.efl]
       let form := Software.packedForm (payloadsTo (fun i => (esymOperand i).isSome || decide (i = .efl)) cmds rs)
       form.1 = packBits codes.flatten ∧ form.2 = padCount codes.flatten.length ∧
       8 * form.1.length - form.2 = (codes.map List.length).sum ∧ form.2 ≤ padMax)

/-- 42_decoder_ops.md R146 (derived by the spec from R141 to R145): a decoder session in which every command returns
`OK`, other commands coming between: its payloads are the symbols of the one walk from the root over the unpadded bits
of its bytes, which ends at the root. -/
def Obligations.DecoderSessionWalksTheStream : Prop :=
  ∀ (s t : State) (mid : List Instr) (pad : Byte) (more : List (List Byte)) (rs : List Response),
    s.inbox = (Instr.dst :: mid ++ [Instr.dend pad]).map encode ++ more →
    (∀ i ∈ mid, i.wf = true ∧ i ≠ .dst ∧ ∀ p, i ≠ .dend p) →
    runSteps (mid.length + 2) s = .next t → t.outbox = s.outbox ++ rs → AllOk rs →
    walkBits s.ts { dcur := 0#9, out := [] } (streamBits (mid.filterMap dbyteOperand) pad.toNat) =
      some { dcur := 0#9,
             out := (payloadsTo (fun i => (dbyteOperand i).isSome || decide (i = .dend pad))
               (.dst :: mid ++ [.dend pad]) rs).flatten }

/-- 42_decoder_ops.md R146, R149 (derived by the spec), 10_state.md R40: on a well-formed tree image, the walk of a
bit sequence from the root back to the root emits exactly the symbols whose codes, one after the other, are the bits.
-/
def Obligations.WalkReadsConcatenatedCodes : Prop :=
  ∀ (ts : Store Node) (bits : List Bool) (syms : List Symbol), WellFormedImage ts →
    (walkBits ts { dcur := 0#9, out := [] } bits = some { dcur := 0#9, out := syms } ↔
      ∃ codes : List Code, codes.length = syms.length ∧ codes.flatten = bits ∧
        ∀ e ∈ syms.zip codes, IsCodeOf ts e.1 e.2)

/-- 42_decoder_ops.md R150 (derived by the spec from R125, R146, R147), the round trip: what an encoder session packs,
a decoder session on the same stores decodes to the same symbols, and every command of both returns `OK`. -/
def Obligations.RoundTripThroughTheBlock : Prop :=
  ∀ (s s' : State) (syms : List Symbol) (more more' : List (List Byte)),
    WellFormedImage s.ts → TableMatches s.ct s.ts → (∀ sym ∈ syms, HeldSymbol s.ts sym) →
    s.flt = none → s.eph = .idle → s.inbox = (Software.encodeSession syms).map encode ++ more →
    s'.flt = none → s'.dph = .idle → s'.ts = s.ts →
    ∃ t rs, runSteps (syms.length + 2) s = .next t ∧ t.outbox = s.outbox ++ rs ∧ AllOk rs ∧
      (let form := Software.packedForm (payloadsOf rs)
       s'.inbox = (Software.decodeSession form.1 (BitVec.ofNat 8 form.2)).map encode ++ more' →
       ∃ t' rs', runSteps (form.1.length + 2) s' = .next t' ∧ t'.outbox = s'.outbox ++ rs' ∧ AllOk rs' ∧
         (payloadsOf rs').flatten = syms)

/-- 42_decoder_ops.md R147, the one-symbol tree: the walk emits the symbol for every bit 0, raises on a bit 1; and `n`
copies of the symbol are `ceil(n / 8)` bytes `00` with `pad = (8 - n mod 8) mod 8`, both ways. -/
def Obligations.OneSymbolTree : Prop :=
  ∀ (s : State) (sym : Symbol) (n : Nat) (more : List (List Byte)),
    s.readTS 0#9 = .leaf sym → s.readCT sym = some [false] → s.flt = none →
    (∀ out, walk1 s.ts { dcur := 0#9, out := out } false = some { dcur := 0#9, out := out ++ [sym] } ∧
      walk1 s.ts { dcur := 0#9, out := out } true = none) ∧
    (s.eph = .idle → s.inbox = (Software.encodeSession (List.replicate n sym)).map encode ++ more →
      ∃ t rs, runSteps (n + 2) s = .next t ∧ t.outbox = s.outbox ++ rs ∧ AllOk rs ∧
        Software.packedForm (payloadsOf rs) = (List.replicate ((n + 7) / 8) 0#8, (8 - n % 8) % 8)) ∧
    (s.dph = .idle → s.inbox = (Software.decodeSession (List.replicate ((n + 7) / 8) 0#8)
        (BitVec.ofNat 8 ((8 - n % 8) % 8))).map encode ++ more →
      ∃ t rs, runSteps ((n + 7) / 8 + 2) s = .next t ∧ t.outbox = s.outbox ++ rs ∧ AllOk rs ∧
        (payloadsOf rs).flatten = List.replicate n sym)

/-- 41_encoder_ops.md R128, 42_decoder_ops.md R145: the empty sessions: `EST`, `EFL` answers the count 0 and no byte;
`DST`, `DEND 0` answers nothing, whatever the stores hold. -/
def Obligations.EmptySessions : Prop :=
  ∀ (s : State) (more : List (List Byte)), s.flt = none →
    (s.eph = .idle → s.inbox = [0x20#8] :: [0x22#8] :: more → ∃ t, runSteps 2 s = .next t ∧
      t.outbox = s.outbox ++ [{ status := .ok, payload := [] }, { status := .ok, payload := [0#8] }] ∧ t.eph = .idle) ∧
    (s.dph = .idle → s.inbox = [0x30#8] :: [0x32#8, 0x00#8] :: more → ∃ t, runSteps 2 s = .next t ∧
      t.outbox = s.outbox ++ [{ status := .ok, payload := [] }, { status := .ok, payload := [] }] ∧ t.dph = .idle)

/-! ### The host's side (45_host_context.md) -/

/-- 45_host_context.md R184, R186, R188: a container reads back as what was written, for every table of R172's
invariant with counts a 4-byte integer holds. -/
def Obligations.ContainerReadsBack : Prop :=
  ∀ (table : Software.FreqTable) (packed : List Byte) (pad : Nat), table ≠ [] → (table.map Prod.fst).Nodup →
    (∀ e ∈ table, 0 < e.2 ∧ e.2 < 2 ^ 31) → pad ≤ 7 →
    Software.readContainer (Software.writeContainer table packed pad) =
      .ok { table := table, packed := packed, pad := pad } ∧
    (Software.writeContainer table packed pad).length = 4 + 5 * table.length + 4 + packed.length

/-- 45_host_context.md R188, R196: a container cut off inside the table or inside the padding field is a
FormatError. -/
def Obligations.TruncatedContainerIsAFormatError : Prop :=
  ∀ (table : Software.FreqTable) (packed : List Byte) (pad k : Nat), table ≠ [] → table.length ≤ 256 →
    k < 4 + 5 * table.length + 4 →
    Software.readContainer ((Software.writeContainer table packed pad).take k) = .error .formatError

/-- 45_host_context.md R178, R179: every code has at least one bit, and no code is a prefix of the code at another
leaf. -/
def Obligations.DerivedCodesArePrefixFree : Prop :=
  ∀ t : Software.Tree, (∀ e ∈ Software.deriveCodes t, 1 ≤ e.2.length) ∧
    (Software.deriveCodes t).Pairwise (fun a b => ¬ a.2 <+: b.2 ∧ ¬ b.2 <+: a.2) ∧
    (Software.deriveCodes t).map Prod.fst = t.symbols

/-- 45_host_context.md R176, R201: with a tie-break of the kind the rule asks for, the tree depends on the contents of
the table alone, not on the order it is enumerated in, though the tie-break may look at the counts and at the merges
already made. -/
def Obligations.TreeIsAFunctionOfTheTable : Prop :=
  ∀ (before : Software.TieBreak) (table table' : Software.FreqTable), Software.TieBreak.Admissible before →
    (table.map Prod.fst).Nodup → table.Perm table' → Software.build before table = Software.build before table'

/-- 45_host_context.md R180, R181, 10_state.md R39, R40: loading a tree gives a well-formed tree image, and loading its
codes gives a code table that matches it.The commands are those of `LDTREE` and `LDCODES`, whose numbering and order are one
of those R180 and R181 leave to the host (the model's choice, log 20). -/
def Obligations.LoadingATreeGivesMatchingStores : Prop :=
  ∀ (tree : Software.Tree) (s : State), tree.symbols.Nodup → s.flt = none → s.eph = .idle → s.dph = .idle →
    s.cfg.storeMode = .loadable → s.inbox = [] →
    ∃ t payloads, Software.issueAll (Software.ldTree tree ++ Software.ldCodes tree) s = .ok (t, payloads) ∧
      WellFormedImage t.ts ∧ TableMatches t.ct t.ts ∧ (∀ sym, HeldSymbol t.ts sym ↔ sym ∈ tree.symbols) ∧
      (∀ e ∈ Software.deriveCodes tree, IsCodeOf t.ts e.1 e.2)

/-- 45_host_context.md R190, R191, R196: empty input is rejected, and "decompress(compress(B)) == B" for every non-empty
byte sequence whose counts a 4-byte integer holds, with any admissible tie-break and any enumeration order, in blocks
with loadable stores. That it holds of every such block, also of one that is faulted or has a session open, rests on the
model's choice that both runs start with `RST` (log 18), which R191 does not name. -/
def Obligations.DecompressOfCompressIsTheInput : Prop :=
  (∀ hp s, Software.compress hp [] s = .error .emptyInputError) ∧
  ∀ (hp : Software.HostParams) (input : List Byte) (s s' : State), Software.TieBreak.Admissible hp.tieBreak →
    (∀ table, (hp.enumOrder table).Perm table) → input ≠ [] → input.length < 2 ^ 31 →
    s.cfg.storeMode = .loadable → s.inbox = [] → s'.cfg.storeMode = .loadable → s'.inbox = [] →
    ∃ r, Software.compress hp input s = .ok r ∧ ∃ t', Software.decompress hp r.container s' = .ok (t', input)

/-- 45_host_context.md R192, R172, R196: what `compress` reports beside the container: the original size, which is also
the sum of the counts in the container's table, and the encoded bit count, `8 * |packedBytes| - paddingBitCount`, which
is the number of bits of the codes of the input's bytes. Of the percentage nothing is said but that it is the free
value of log 17. That the block is reset first is the model's choice (log 18). -/
def Obligations.CompressReportsItsStatistics : Prop :=
  ∀ (hp : Software.HostParams) (input : List Byte) (s : State), Software.TieBreak.Admissible hp.tieBreak →
    (∀ table, (hp.enumOrder table).Perm table) → input ≠ [] → input.length < 2 ^ 31 →
    s.cfg.storeMode = .loadable → s.inbox = [] →
    ∃ r c tree, ∃ codes : List Code, Software.compress hp input s = .ok r ∧
      Software.readContainer r.container = .ok c ∧ Software.build hp.tieBreak c.table = some tree ∧
      codes.length = input.length ∧ (∀ e ∈ input.zip codes, e ∈ Software.deriveCodes tree) ∧
      r.statistics.originalSize = input.length ∧ (c.table.map Prod.snd).sum = input.length ∧
      r.statistics.encodedBits = 8 * c.packed.length - c.pad ∧ c.pad ≤ 8 * c.packed.length ∧
      r.statistics.encodedBits = (codes.map List.length).sum ∧
      r.statistics.spaceSaved = Config.spaceSavedPercentage input r.container

/-- 45_host_context.md R196: the source's testable properties, each as Machine/Properties.lean says it, for loadable
blocks with nothing waiting. That they hold of every such block, also of one that is faulted or has a session open, rests
on the model's choice that both runs start with `RST` (log 18). -/
def Obligations.TestablePropertiesOfTheSource : Prop :=
  ∀ (hp : Software.HostParams) (s s' : State), Software.TieBreak.Admissible hp.tieBreak →
    (∀ table, (hp.enumOrder table).Perm table) →
    s.cfg.storeMode = .loadable → s.inbox = [] → s'.cfg.storeMode = .loadable → s'.inbox = [] →
    Software.EmptyInputRejected hp s ∧ Software.TwoSymbolCase hp s s' ∧
    (∀ sym n, 0 < n → n < 2 ^ 31 → Software.SingleSymbolCase hp sym n s s') ∧
    (∀ tree, Software.PrefixFree (Software.deriveCodes tree)) ∧
    (∀ input : List Byte, input ≠ [] → input.length < 2 ^ 31 →
      Software.RoundTrips hp input s s' ∧ Software.Deterministic hp input s s' ∧
      Software.FrequencyConserved hp input s s' ∧ Software.PaddingBounded hp input s ∧
      Software.TruncationRejected hp input s)

/-- 70_reset_and_hazards.md R245, 40_config_ops.md R107: with `STORE_MODE = ROM` the loading steps do not exist. When
`ROM_CT` matches `ROM_TS` and the image holds the input's bytes, `compress` and `decompress` succeed with the fixed stores
and give the input back, and the container is the same of every such block; when a byte has no code in `ROM_CT`,
`compress` answers LookupError. That both runs start with `RST`, and what the container's table holds, are the model's
choices (log 18, log 19). -/
def Obligations.RomBlocksCompressWithTheirImages : Prop :=
  ∀ (hp : Software.HostParams) (input : List Byte) (s s' : State), Software.TieBreak.Admissible hp.tieBreak →
    (∀ table, (hp.enumOrder table).Perm table) → input ≠ [] → input.length < 2 ^ 31 →
    s.cfg.storeMode = .rom → s'.cfg = s.cfg → s.inbox = [] → s'.inbox = [] →
    (TableMatches s.cfg.romCt s.cfg.romTs → (∀ b ∈ input, HeldSymbol s.cfg.romTs b) →
      Software.RoundTrips hp input s s' ∧ Software.Deterministic hp input s s') ∧
    ((∃ b ∈ input, Store.read none s.cfg.romCt b.toNat = none) →
      Software.compress hp input s = .error .lookupError)
end

