-- ==== Sys2Proof/Laws/Bits.lean ====
section
/-! SUPPORT. What the bit-order functions of Machine/Bits.lean do. -/

namespace Sys2Proof

theorem setBit_getLsbD (v : Byte) (i : Nat) (b : Bool) (j : Nat) (hi : i < 8) :
    (setBit v i b).getLsbD j = if j = i then b else v.getLsbD j := by
  unfold setBit
  by_cases hj : j = i
  · subst hj; cases b <;> simp [hi]
  · cases b <;> simp [hj]
    · intro h
      have : j < 8 := BitVec.lt_of_getLsbD h
      have : ¬ (i ≤ j ∧ j - i = 0) := by omega
      grind
    · intros
      omega

@[simp] theorem msbBits_length (v : Byte) : (msbBits v).length = 8 := by simp [msbBits]

theorem msbBits_getElem? (v : Byte) (j : Nat) (hj : j < 8) : (msbBits v)[j]? = some (v.getLsbD (7 - j)) := by
  simp [msbBits, hj]

theorem byteOfBits_getLsbD (l : List Bool) (j : Nat) (hj : j < 8) :
    (byteOfBits l).getLsbD (7 - j) = l.getD j false := by
  have h8 : List.range 8 = [0, 1, 2, 3, 4, 5, 6, 7] := by decide
  unfold byteOfBits
  rw [h8]
  simp only [List.foldl_cons, List.foldl_nil]
  rcases (by omega : j = 0 ∨ j = 1 ∨ j = 2 ∨ j = 3 ∨ j = 4 ∨ j = 5 ∨ j = 6 ∨ j = 7) with
    h | h | h | h | h | h | h | h <;> subst h <;>
    simp only [Nat.reduceSub] <;> repeat (rw [setBit_getLsbD _ _ _ _ (by decide)]; try simp only [Nat.reduceEqDiff, if_true, if_false])

theorem msbBits_byteOfBits (l : List Bool) : msbBits (byteOfBits l) = (l ++ List.replicate 8 false).take 8 := by
  apply List.ext_getElem?
  intro j
  by_cases hj : j < 8
  · rw [msbBits_getElem? _ _ hj, byteOfBits_getLsbD _ _ hj, List.getElem?_take_of_lt hj]
    by_cases hl : j < l.length
    · simp [List.getElem?_append_left hl, hl]
    · rw [List.getElem?_append_right (by omega), List.getElem?_replicate]
      simp [hl]
      omega
  · simp [hj]

theorem byteOfBits_msbBits (v : Byte) : byteOfBits (msbBits v) = v := by
  apply BitVec.eq_of_getLsbD_eq
  intro i hi
  have h := byteOfBits_getLsbD (msbBits v) (7 - i) (by omega)
  rw [show 7 - (7 - i) = i by omega] at h
  rw [h, List.getD_eq_getElem?_getD, msbBits_getElem? _ _ (by omega)]
  simp [show 7 - (7 - i) = i by omega]

theorem msbBits_injective {v w : Byte} (h : msbBits v = msbBits w) : v = w := by
  rw [← byteOfBits_msbBits v, h, byteOfBits_msbBits]

/-- Reading only the first eight bits. -/
theorem byteOfBits_take (l : List Bool) : byteOfBits (l.take 8) = byteOfBits l := by
  apply BitVec.eq_of_getLsbD_eq
  intro i hi
  have h := byteOfBits_getLsbD l (7 - i) (by omega)
  have h' := byteOfBits_getLsbD (l.take 8) (7 - i) (by omega)
  rw [show 7 - (7 - i) = i by omega] at h h'
  rw [h, h', List.getD_eq_getElem?_getD, List.getD_eq_getElem?_getD, List.getElem?_take_of_lt (by omega)]

@[simp] theorem unpackBits_nil : unpackBits [] = [] := rfl

@[simp] theorem unpackBits_cons (b : Byte) (bs : List Byte) : unpackBits (b :: bs) = msbBits b ++ unpackBits bs := rfl

@[simp] theorem unpackBits_append (as bs : List Byte) : unpackBits (as ++ bs) = unpackBits as ++ unpackBits bs := by
  simp [unpackBits]

@[simp] theorem unpackBits_length (bs : List Byte) : (unpackBits bs).length = 8 * bs.length := by
  induction bs with
  | nil => rfl
  | cons b bs ih => simp [ih]; omega

theorem unpackBits_injective : ∀ {as bs : List Byte}, unpackBits as = unpackBits bs → as = bs
  | [], [], _ => rfl
  | [], b :: bs, h => by have := congrArg List.length h; simp at this; omega
  | a :: as, [], h => by have := congrArg List.length h; simp at this
  | a :: as, b :: bs, h => by
    simp only [unpackBits_cons] at h
    obtain ⟨h1, h2⟩ := List.append_inj h (by simp)
    rw [msbBits_injective h1, unpackBits_injective h2]

@[simp] theorem packBits_length (l : List Bool) : (packBits l).length = byteCount l.length := by simp [packBits]

theorem packBits_nil : packBits [] = [] := by decide

theorem byteCount_step (n : Nat) (h : 0 < n) : byteCount n = byteCount (n - 8) + 1 := by
  unfold byteCount; omega

/-- The first byte of the packed form, and the packed form of the rest. -/
theorem packBits_step (l : List Bool) (h : l ≠ []) : packBits l = byteOfBits l :: packBits (l.drop 8) := by
  have hl : 0 < l.length := List.length_pos_iff.mpr h
  unfold packBits
  rw [byteCount_step _ hl, List.range_succ_eq_map]
  simp only [List.map_cons, List.map_map, List.length_drop, Nat.mul_zero, List.drop_zero]
  congr 1
  apply List.map_congr_left
  intro k _
  simp only [Function.comp, List.drop_drop]
  congr 2
  omega

theorem padCount_lt (n : Nat) : padCount n < 8 := by unfold padCount; omega

theorem byteCount_padCount (n : Nat) : 8 * byteCount n = n + padCount n := by unfold byteCount padCount; omega

theorem padCount_step (n : Nat) (h : 8 ≤ n) : padCount n = padCount (n - 8) := by unfold padCount; omega

/-- The bits of the packed form: the stream, then the padding zeros (R54). -/
theorem unpackBits_packBits (l : List Bool) : unpackBits (packBits l) = l ++ List.replicate (padCount l.length) false := by
  induction hn : l.length using Nat.strongRecOn generalizing l with
  | _ n ih =>
    subst hn
    by_cases h : l = []
    · subst h; simp [packBits_nil, padCount]
    · have hl : 0 < l.length := List.length_pos_iff.mpr h
      rw [packBits_step l h, unpackBits_cons, msbBits_byteOfBits, ih (l.drop 8).length (by simp; omega) (l.drop 8) rfl]
      by_cases h8 : 8 ≤ l.length
      · rw [List.take_append_of_le_length h8, ← List.append_assoc, List.take_append_drop, List.length_drop,
          padCount_step _ h8]
      · have hd : l.drop 8 = [] := List.drop_eq_nil_of_le (by omega)
        rw [hd, List.take_append, List.take_of_length_le (by omega : l.length ≤ 8), List.take_replicate]
        have hp : padCount l.length = 8 - l.length := by unfold padCount; omega
        rw [hp, show min (8 - l.length) 8 = 8 - l.length by omega]
        simp [padCount]

/-- The inverse map of R85. -/
theorem streamBits_packBits (l : List Bool) : streamBits (packBits l) (padCount l.length) = l := by
  unfold streamBits
  rw [unpackBits_packBits, packBits_length]
  have := byteCount_padCount l.length
  rw [show 8 * byteCount l.length - padCount l.length = l.length by omega]
  simp

/-- The one pair that satisfies the invariant of R85 with zero padding. -/
theorem packBits_of_unpackBits (bs : List Byte) (l : List Bool) (n : Nat) (hn : n < 8)
    (h : unpackBits bs = l ++ List.replicate n false) : bs = packBits l ∧ n = padCount l.length := by
  have hl := congrArg List.length h
  simp only [unpackBits_length, List.length_append, List.length_replicate] at hl
  have hp : n = padCount l.length := by unfold padCount; omega
  refine ⟨unpackBits_injective ?_, hp⟩
  rw [h, unpackBits_packBits, hp]

/-- The high part of two bit vectors put together. -/
theorem extract_high {a b : Nat} (x : BitVec a) (y : BitVec b) : (x ++ y).extractLsb' b a = x := by
  apply BitVec.eq_of_getLsbD_eq
  intro i hi
  simp [BitVec.getLsbD_append, hi]

/-- The low part of two bit vectors put together. -/
theorem extract_low {a b : Nat} (x : BitVec a) (y : BitVec b) : (x ++ y).extractLsb' 0 b = y := by
  apply BitVec.eq_of_getLsbD_eq
  intro i hi
  simp [BitVec.getLsbD_append, hi]

/-- A bit vector is its high part and its low part put together. -/
theorem extract_join {a b : Nat} (w : BitVec (a + b)) : w.extractLsb' b a ++ w.extractLsb' 0 b = w := by
  apply BitVec.eq_of_getLsbD_eq
  intro i hi
  rw [BitVec.getLsbD_append]
  by_cases h : i < b
  · simp [h]
  · simp [h, show i - b < a by omega]
    rw [show b + (i - b) = i by omega]

/-- The value of two bit vectors put together. -/
theorem toNat_append_eq {a b : Nat} (x : BitVec a) (y : BitVec b) : (x ++ y).toNat = x.toNat * 2 ^ b + y.toNat := by
  rw [BitVec.toNat_append, Nat.shiftLeft_eq, ← Nat.shiftLeft_eq, Nat.shiftLeft_add_eq_or_of_lt y.isLt]

/-- The packed form of zeros (42_decoder_ops.md R147). -/
theorem packBits_zeros (n : Nat) : packBits (List.replicate n false) = List.replicate ((n + 7) / 8) 0#8 := by
  unfold packBits
  rw [List.eq_replicate_iff]
  refine ⟨by simp [byteCount], ?_⟩
  intro b hb
  obtain ⟨k, _, rfl⟩ := List.mem_map.mp hb
  apply BitVec.eq_of_getLsbD_eq
  intro i hi
  have h := byteOfBits_getLsbD ((List.replicate n false).drop (8 * k)) (7 - i) (by omega)
  rw [show 7 - (7 - i) = i by omega] at h
  rw [h]
  simp [List.getD_eq_getElem?_getD, List.getElem?_replicate]
  split <;> rfl

/-- A padding count fits a byte. -/
theorem pad_ofNat (n : Nat) : (BitVec.ofNat 8 (padCount n)).toNat = padCount n := by
  have := padCount_lt n
  simp; omega

end Sys2Proof
end

