-- ==== Sys2Proof/Laws/Builder.lean ====
section
/-! SUPPORT. What the analyzer, the tree builder and the code derivation give (45_host_context.md sections 2
and 3). -/

namespace Sys2Proof.Software

theorem leafPaths_prefix (t : Tree) (acc : Code) : ∀ e ∈ leafPaths t acc, acc <+: e.2 := by
  induction t generalizing acc with
  | leaf sym f => intro e he; simp only [leafPaths, List.mem_singleton] at he; subst he; exact List.prefix_rfl
  | node f a b iha ihb =>
    intro e he
    simp only [leafPaths, List.mem_append] at he
    rcases he with he | he
    · exact (List.prefix_append _ _).trans (iha _ e he)
    · exact (List.prefix_append _ _).trans (ihb _ e he)

/-- Paths that part are no prefixes of each other. -/
theorem prefix_split {acc a b : Code} (ha : acc ++ [false] <+: a) (hb : acc ++ [true] <+: b) : ¬ a <+: b ∧ ¬ b <+: a := by
  obtain ⟨p, rfl⟩ := ha
  obtain ⟨q, rfl⟩ := hb
  constructor
  · rintro ⟨r, h⟩; simp at h
  · rintro ⟨r, h⟩; simp at h

/-- Paths to different leaves are no prefixes of each other (45_host_context.md R179). -/
theorem leafPaths_pairwise (t : Tree) (acc : Code) :
    (leafPaths t acc).Pairwise (fun a b => ¬ a.2 <+: b.2 ∧ ¬ b.2 <+: a.2) := by
  induction t generalizing acc with
  | leaf sym f => simp [leafPaths]
  | node f a b iha ihb =>
    simp only [leafPaths]
    rw [List.pairwise_append]
    exact ⟨iha _, ihb _, fun x hx y hy => prefix_split (leafPaths_prefix _ _ x hx) (leafPaths_prefix _ _ y hy)⟩

theorem leafPaths_symbols (t : Tree) (acc : Code) : (leafPaths t acc).map Prod.fst = t.symbols := by
  induction t generalizing acc with
  | leaf sym f => rfl
  | node f a b iha ihb => simp [leafPaths, Tree.symbols, iha, ihb]

theorem deriveCodes_symbols (t : Tree) : (deriveCodes t).map Prod.fst = t.symbols := by
  cases t with
  | leaf sym f => rfl
  | node f a b => exact leafPaths_symbols _ _

/-- Every code has at least one bit (45_host_context.md R179). -/
theorem derive_nonempty (t : Tree) : ∀ e ∈ deriveCodes t, 1 ≤ e.2.length := by
  cases t with
  | leaf sym f => intro e he; simp only [deriveCodes, List.mem_singleton] at he; subst he; simp
  | node f a b =>
    intro e he
    simp only [deriveCodes, leafPaths, List.mem_append] at he
    rcases he with he | he
    · have := (leafPaths_prefix _ _ e he).length_le; simpa using this
    · have := (leafPaths_prefix _ _ e he).length_le; simpa using this

/-- A path is shorter than the number of leaves. -/
theorem leafPaths_length (t : Tree) (acc : Code) : ∀ e ∈ leafPaths t acc, e.2.length + 1 ≤ acc.length + t.symbols.length := by
  induction t generalizing acc with
  | leaf sym f => intro e he; simp only [leafPaths, List.mem_singleton] at he; subst he; simp [Tree.symbols]
  | node f a b iha ihb =>
    have hp : ∀ t : Tree, 0 < t.symbols.length := by
      intro t; induction t with
      | leaf => simp [Tree.symbols]
      | node _ a b ih _ => simp [Tree.symbols]; omega
    intro e he
    simp only [leafPaths, List.mem_append] at he
    simp only [Tree.symbols, List.length_append]
    have := hp a
    have := hp b
    rcases he with he | he
    · have := iha _ e he; simp at this; omega
    · have := ihb _ e he; simp at this; omega

theorem size_pos (t : Tree) : 0 < t.size := by cases t <;> simp only [Tree.size] <;> omega

/-- A tree of `n` leaves has `2 n - 1` nodes. -/
theorem size_symbols (t : Tree) : t.size + 1 = 2 * t.symbols.length := by
  induction t with
  | leaf => rfl
  | node f a b iha ihb => simp only [Tree.size, Tree.symbols, List.length_append]; omega

/-- What is extracted is a minimum, and the rest are the others (45_host_context.md R174). -/
theorem extractMin_spec {before : NodeOrder} (hb : NodeOrder.Admissible before) {l rest : List Tree} {m : Tree}
    (h : extractMin before l = some (m, rest)) : l.Perm (m :: rest) ∧ ∀ x ∈ l, x = m ∨ before m x = true := by
  induction l generalizing m rest with
  | nil => cases h
  | cons t l ih =>
    unfold extractMin at h
    split at h
    · rename_i hn
      cases h
      cases l with
      | nil => exact ⟨List.Perm.refl _, by simp⟩
      | cons t' l =>
        unfold extractMin at hn
        split at hn
        · cases hn
        · split at hn <;> cases hn
    · rename_i m' others hm
      obtain ⟨hp, hmin⟩ := ih hm
      split at h
      · rename_i hlt
        cases h
        refine ⟨(List.Perm.cons t hp).trans (List.Perm.swap _ _ _), ?_⟩
        intro x hx
        rcases List.mem_cons.mp hx with rfl | hx
        · exact .inr hlt
        · exact hmin x hx
      · rename_i hlt
        cases h
        refine ⟨List.Perm.cons _ hp, ?_⟩
        intro x hx
        rcases List.mem_cons.mp hx with rfl | hx
        · exact .inl rfl
        · by_cases htm : t = m'
          · subst htm; exact hmin x hx
          · have hlt' : before t m' = true := (hb.total t m' htm).resolve_right hlt
            rcases hmin x hx with rfl | hx'
            · exact .inr hlt'
            · exact .inr (hb.trans _ _ _ hlt' hx')

theorem extractMin_none {before : NodeOrder} {l : List Tree} (h : extractMin before l = none) : l = [] := by
  cases l with
  | nil => rfl
  | cons t l =>
    unfold extractMin at h
    split at h
    · cases h
    · split at h <;> cases h

/-- What is extracted does not depend on the order of the list (45_host_context.md R176). -/
theorem extractMin_perm {before : NodeOrder} (hb : NodeOrder.Admissible before) {l l' : List Tree} (hp : l.Perm l') :
    (extractMin before l = none ∧ extractMin before l' = none) ∨
    ∃ m r r', extractMin before l = some (m, r) ∧ extractMin before l' = some (m, r') ∧ r.Perm r' := by
  cases h : extractMin before l with
  | none =>
    have := extractMin_none h
    subst this
    have : l' = [] := hp.symm.eq_nil
    subst this
    exact .inl ⟨rfl, rfl⟩
  | some mr =>
    obtain ⟨m, r⟩ := mr
    cases h' : extractMin before l' with
    | none =>
      have := extractMin_none h'
      subst this
      have : l = [] := hp.eq_nil
      subst this
      cases h
    | some mr' =>
      obtain ⟨m', r'⟩ := mr'
      obtain ⟨p1, min1⟩ := extractMin_spec hb h
      obtain ⟨p2, min2⟩ := extractMin_spec hb h'
      have hm : m = m' := by
        have h1 := min1 m' (hp.symm.subset (p2.symm.subset (by simp)))
        have h2 := min2 m (hp.subset (p1.symm.subset (by simp)))
        rcases h1 with h1 | h1
        · exact h1.symm
        · rcases h2 with h2 | h2
          · exact h2
          · have := hb.trans _ _ _ h1 h2
            rw [hb.irrefl] at this; cases this
      subst hm
      exact .inr ⟨m, r, r', rfl, rfl, ((p1.symm.trans hp).trans p2).cons_inv⟩

/-- The contents of a table do not depend on the order of its entries (45_host_context.md R176). -/
theorem tableCounts_perm {table table' : FreqTable} (hp : table.Perm table') : tableCounts table = tableCounts table' := by
  funext sym
  exact ((hp.filter _).map Prod.snd).sum_eq

/-- The merges do not depend on the order of the list (45_host_context.md R176). -/
theorem mergeAll_perm {order : List Tree → NodeOrder} (hb : ∀ merges, (order merges).Admissible) (n : Nat)
    {merges l l' : List Tree} (hp : l.Perm l') : mergeAll order n merges l = mergeAll order n merges l' := by
  induction n generalizing merges l l' with
  | zero => rfl
  | succ n ih =>
    unfold mergeAll
    rcases extractMin_perm (hb merges) hp with ⟨h1, h2⟩ | ⟨m, r, r', h1, h2, hr⟩
    · rw [h1, h2]
    · rw [h1, h2]
      simp only
      rcases extractMin_perm (hb merges) hr with ⟨h3, h4⟩ | ⟨m2, q, q', h3, h4, hq⟩
      · rw [h3, h4]
      · rw [h3, h4]
        exact ih (List.Perm.cons _ hq)

/-- The merges end in one tree with all the leaves (45_host_context.md R174). -/
theorem mergeAll_some {order : List Tree → NodeOrder} (hb : ∀ merges, (order merges).Admissible) (n : Nat)
    {merges l : List Tree} (hl : l ≠ []) (hn : l.length ≤ n) :
    ∃ t, mergeAll order n merges l = some t ∧ t.symbols.Perm (l.flatMap Tree.symbols) := by
  induction n generalizing merges l with
  | zero => exact absurd (List.length_eq_zero_iff.mp (by omega)) hl
  | succ n ih =>
    unfold mergeAll
    cases h : extractMin (order merges) l with
    | none => exact absurd (extractMin_none h) hl
    | some mr =>
      obtain ⟨a, rest⟩ := mr
      have p1 := (extractMin_spec (hb merges) h).1
      simp only
      cases h2 : extractMin (order merges) rest with
      | none =>
        have := extractMin_none h2
        subst this
        refine ⟨a, rfl, ?_⟩
        have := p1.flatMap_right Tree.symbols
        simpa using this.symm
      | some mr =>
        obtain ⟨b, others⟩ := mr
        have p2 := (extractMin_spec (hb merges) h2).1
        simp only
        have hlen := p1.length_eq
        have hlen2 := p2.length_eq
        simp only [List.length_cons] at hlen hlen2
        obtain ⟨t, ht, hs⟩ := ih (merges := merges ++ [.node (a.freq + b.freq) a b])
          (l := .node (a.freq + b.freq) a b :: others) (by simp) (by simp; omega)
        refine ⟨t, ht, hs.trans ?_⟩
        have q1 := p1.flatMap_right Tree.symbols
        have q2 := p2.flatMap_right Tree.symbols
        simp only [List.flatMap_cons, Tree.symbols] at q1 q2 ⊢
        rw [List.append_assoc]
        exact ((q1.trans (List.Perm.append_left _ q2))).symm

/-- A table that is not empty has a tree with its symbols (45_host_context.md R174). -/
theorem build_some {tieBreak : TieBreak} (hb : tieBreak.Admissible) {table : FreqTable} (hne : table ≠ []) :
    ∃ t, build tieBreak table = some t ∧ t.symbols.Perm (table.map Prod.fst) := by
  obtain ⟨t, ht, hs⟩ := mergeAll_some (hb (tableCounts table)) table.length (merges := [])
    (l := table.map fun e => Tree.leaf e.1 e.2) (by simpa using hne) (by simp)
  refine ⟨t, ht, hs.trans (List.Perm.of_eq ?_)⟩
  rw [List.flatMap_map]
  simp only [Tree.symbols]
  clear hs ht hne
  induction table with
  | nil => rfl
  | cons e t ih => rw [List.flatMap_cons, ih]; rfl

/-- What the analyzer gives (45_host_context.md R171, R172). -/
theorem analyze_spec (input : List Byte) : ((analyze input).map Prod.fst).Nodup ∧
    (∀ e ∈ analyze input, 0 < e.2 ∧ e.2 ≤ input.length) ∧ (∀ b ∈ input, b ∈ (analyze input).map Prod.fst) := by
  refine ⟨?_, ?_, ?_⟩
  · have : (analyze input).map Prod.fst = ((List.range nsym).filter fun n => decide (input.count (BitVec.ofNat 8 n) ≠ 0)).map (BitVec.ofNat 8) := by
      unfold analyze
      rw [List.map_filterMap]
      generalize List.range nsym = l
      induction l with
      | nil => rfl
      | cons n l ih =>
        simp only [List.filterMap_cons, List.filter_cons]
        by_cases h : input.count (BitVec.ofNat 8 n) = 0
        · simp only [h]; simpa using ih
        · simp [h]; simpa using ih
    rw [this]
    apply List.Nodup.map_on
    · intro x hx y hy hxy
      have hx := (List.mem_range.mp (List.mem_of_mem_filter hx))
      have hy := (List.mem_range.mp (List.mem_of_mem_filter hy))
      have hns : nsym = 256 := rfl
      have := congrArg BitVec.toNat hxy
      simp at this
      omega
    · exact List.nodup_range.filter _
  · intro e he
    obtain ⟨n, _, hn⟩ := List.mem_filterMap.mp he
    simp only at hn
    split at hn
    · cases hn
    · cases hn
      exact ⟨by simp only; omega, List.count_le_length⟩
  · intro b hb
    refine List.mem_map.mpr ⟨(b, input.count b), List.mem_filterMap.mpr ⟨b.toNat, by simpa using b.isLt, ?_⟩, rfl⟩
    simp [List.count_eq_zero, hb]

/-- The counts of the symbols below `n` add up to the bytes below `n`. -/
theorem counts_sum (input : List Byte) (n : Nat) (hn : n ≤ nsym) :
    ((List.range n).map fun k => input.count (BitVec.ofNat 8 k)).sum = (input.filter fun b => decide (b.toNat < n)).length := by
  induction n with
  | zero => simp
  | succ n ih =>
    rw [List.range_succ, List.map_append, List.sum_append, ih (by omega)]
    have hns : nsym = 256 := rfl
    clear ih
    induction input with
    | nil => simp
    | cons b input ih =>
      have hb : (b == BitVec.ofNat 8 n) = decide (b.toNat = n) := by
        rw [Bool.eq_iff_iff]
        simp [← BitVec.toNat_inj]
        omega
      simp only [List.map_cons, List.map_nil, List.sum_cons, List.sum_nil, List.count_cons, hb, List.filter_cons] at ih ⊢
      by_cases h1 : b.toNat < n
      · simp [h1, show b.toNat < n + 1 by omega, show b.toNat ≠ n by omega] at ih ⊢; omega
      · by_cases h2 : b.toNat = n
        · simp [h2] at ih ⊢; omega
        · simp [h1, h2, show ¬ b.toNat < n + 1 by omega] at ih ⊢; omega

/-- "sum of counts equals input length" (45_host_context.md R172). -/
theorem analyze_sum (input : List Byte) : ((analyze input).map Prod.snd).sum = input.length := by
  have h := counts_sum input nsym (Nat.le_refl _)
  rw [List.filter_eq_self.mpr (fun b _ => by simpa using b.isLt)] at h
  rw [← h]
  unfold analyze
  generalize List.range nsym = l
  induction l with
  | nil => rfl
  | cons k l ih =>
    simp only [List.filterMap_cons, List.map_cons, List.sum_cons] at ih ⊢
    by_cases hk : input.count (BitVec.ofNat 8 k) = 0
    · simp only [hk, if_true, Nat.zero_add]; exact ih
    · simp only [hk, if_false, List.map_cons, List.sum_cons]; exact congrArg _ ih

end Sys2Proof.Software
end

