-- ==== Sys2Proof/Laws/Codec.lean ====
section
/-! SUPPORT. What the parts of the decoder and the encoder do: opcodes, index fields, code operands. -/

namespace Sys2Proof

/-- An opcode's byte selects it (30_encoding.md R79). -/
@[simp] theorem opcodeOf_byte (o : Opcode) : opcodeOf o.byte = some o := by cases o <;> decide

/-- A byte that selects an opcode is that opcode's byte. -/
theorem byte_of_opcodeOf {b : Byte} {o : Opcode} (h : opcodeOf b = some o) : o.byte = b := by
  simpa using List.find?_some h

theorem opcodeOf_none_iff (b : Byte) : opcodeOf b = none ↔ ∀ o : Opcode, o.byte ≠ b := by
  constructor
  · intro h o ho
    rw [← ho, opcodeOf_byte] at h
    cases h
  · intro h
    cases hb : opcodeOf b with
    | none => rfl
    | some o => exact absurd (byte_of_opcodeOf hb) (h o)

@[simp] theorem indexBytes_length (i : Index) : (indexBytes i).length = 2 := rfl

/-- An index read back from its two bytes (30_encoding.md R77). -/
theorem fieldIndex_bytes (i : Index) :
    fieldIndex (BitVec.ofNat 8 (i.toNat / 256)) (BitVec.ofNat 8 (i.toNat % 256)) = some i := by
  have := i.isLt
  unfold fieldIndex
  have h : 256 * (BitVec.ofNat 8 (i.toNat / 256)).toNat + (BitVec.ofNat 8 (i.toNat % 256)).toNat = i.toNat := by
    simp only [BitVec.toNat_ofNat]; omega
  simp only [h]
  rw [if_pos (by omega)]
  simp

/-- The bytes an accepted index field was read from. -/
theorem indexBytes_of_fieldIndex {hi lo : Byte} {i : Index} (h : fieldIndex hi lo = some i) :
    indexBytes i = [hi, lo] := by
  have hn : nodes = 512 := rfl
  unfold fieldIndex at h
  have h1 := hi.isLt
  have h2 := lo.isLt
  simp only at h
  split at h
  · rename_i hlt
    cases h
    unfold indexBytes
    congr 1
    · apply BitVec.eq_of_toNat_eq
      simp only [BitVec.toNat_ofNat]; omega
    · congr 1
      apply BitVec.eq_of_toNat_eq
      simp only [BitVec.toNat_ofNat]; omega
  · cases h

theorem fieldIndex_none_iff (hi lo : Byte) : fieldIndex hi lo = none ↔ 2 ≤ hi.toNat := by
  have hn : nodes = 512 := rfl
  have h1 := hi.isLt
  have h2 := lo.isLt
  unfold fieldIndex
  simp only
  split <;> simp <;> omega

theorem legal_iff (c : Code) : Code.legal c = true ↔ 1 ≤ c.length ∧ c.length ≤ 255 := by
  simp [Code.legal]

/-- A legal code's length, as the `len` byte holds it. -/
theorem len_toNat {c : Code} (h : Code.legal c = true) : (BitVec.ofNat 8 c.length).toNat = c.length := by
  rw [legal_iff] at h
  simp only [BitVec.toNat_ofNat]
  omega

theorem codeLengthOk_pack {c : Code} (h : Code.legal c = true) :
    codeLengthOk (BitVec.ofNat 8 c.length) (packBits c) = true := by
  simp only [codeLengthOk, len_toNat h, packBits_length, decide_eq_true_eq]

theorem codeOfBytes_pack {c : Code} (h : Code.legal c = true) :
    codeOfBytes (BitVec.ofNat 8 c.length) (packBits c) = c := by
  simp [codeOfBytes, len_toNat h, unpackBits_packBits]

theorem codeUnusedBits_pack {c : Code} (h : Code.legal c = true) :
    codeUnusedBits (BitVec.ofNat 8 c.length) (packBits c) = List.replicate (padCount c.length) false := by
  simp [codeUnusedBits, len_toNat h, unpackBits_packBits]

/-- The code bytes an accepted code operand was read from. -/
theorem pack_codeOfBytes {len : Byte} {bytes : List Byte} (hl : codeLengthOk len bytes = true)
    (hu : (codeUnusedBits len bytes).any id = false) :
    packBits (codeOfBytes len bytes) = bytes ∧ (codeOfBytes len bytes).length = len.toNat := by
  simp only [codeLengthOk, decide_eq_true_eq] at hl
  have hlen := len.isLt
  have h8 : 8 * bytes.length = len.toNat + padCount len.toNat := by rw [hl]; exact byteCount_padCount _
  have hlength : (codeOfBytes len bytes).length = len.toNat := by
    simp only [codeOfBytes, List.length_take, unpackBits_length]; omega
  refine ⟨?_, hlength⟩
  have hz : codeUnusedBits len bytes = List.replicate (padCount len.toNat) false := by
    rw [List.eq_replicate_iff]
    refine ⟨by simp only [codeUnusedBits, List.length_drop, unpackBits_length]; omega, ?_⟩
    intro b hb
    have := List.any_eq_false.mp hu b hb
    simpa using this
  apply unpackBits_injective
  rw [unpackBits_packBits, hlength, ← hz]
  exact List.take_append_drop _ _

theorem decode_cons (m : StoreMode) (b : Byte) (rest : List Byte) :
    decode m (b :: rest) =
      match opcodeOf b with
      | none => .illegal .reservedOpcode
      | some o =>
        match m, o.writesStore with
        | .rom, true => .illegal .storeFixed
        | _, _ => decodeOperands o rest := rfl

/-- A command's encoding begins with its opcode, so a mode that has the command decodes by the format. -/
theorem decode_opcode (m : StoreMode) (o : Opcode) (rest : List Byte) (h : m = .rom → o.writesStore = false) :
    decode m (o.byte :: rest) = decodeOperands o rest := by
  rw [decode_cons, opcodeOf_byte]
  cases m
  · rfl
  · simp only [h rfl]

/-- What a transaction that decodes to a command looks like. -/
theorem decode_command {m : StoreMode} {t : List Byte} {i : Instr} (h : decode m t = .command i) :
    ∃ o rest, t = o.byte :: rest ∧ decodeOperands o rest = .command i ∧ (m = .rom → o.writesStore = false) := by
  cases t with
  | nil => cases h
  | cons b rest =>
    rw [decode_cons] at h
    cases ho : opcodeOf b with
    | none => rw [ho] at h; cases h
    | some o =>
      rw [ho] at h
      refine ⟨o, rest, by rw [byte_of_opcodeOf ho], ?_, ?_⟩
      · cases m
        · exact h
        · cases hw : o.writesStore
          · simpa [hw] using h
          · simp [hw] at h
      · intro hm
        subst hm
        cases hw : o.writesStore
        · rfl
        · simp [hw] at h

theorem decodeN_command {j i : Instr} {rest : List Byte} (h : decodeN j rest = .command i) : rest = [] ∧ i = j := by
  cases rest with
  | nil => cases h; exact ⟨rfl, rfl⟩
  | cons => cases h

theorem decodeB_command {f : Byte → Instr} {i : Instr} {rest : List Byte} (h : decodeB f rest = .command i) :
    ∃ v, rest = [v] ∧ i = f v := by
  unfold decodeB at h
  split at h
  · cases h; exact ⟨_, rfl, rfl⟩
  · cases h

theorem decodeC_command {f : Symbol → Code → Instr} {i : Instr} {rest : List Byte} (h : decodeC f rest = .command i) :
    ∃ sym c, rest = sym :: BitVec.ofNat 8 c.length :: packBits c ∧ Code.legal c = true ∧ i = f sym c := by
  unfold decodeC at h
  split at h
  · rename_i sym len code
    split at h
    · cases h
    · rename_i hlen
      split at h
      · cases h
      · rename_i hu
        cases h
        simp only [not_or, Bool.not_eq_false] at hlen
        simp only [Bool.not_eq_true] at hu
        obtain ⟨hp, hl⟩ := pack_codeOfBytes hlen.2 hu
        have hpos : len.toNat ≠ 0 := fun h0 => hlen.1 (BitVec.eq_of_toNat_eq h0)
        have := len.isLt
        refine ⟨sym, codeOfBytes len code, ?_, ?_, rfl⟩
        · rw [hp, hl]; simp
        · rw [legal_iff, hl]; omega
  · cases h

theorem decodeL_command {f : Index → Symbol → Instr} {i : Instr} {rest : List Byte} (h : decodeL f rest = .command i) :
    ∃ idx sym, rest = indexBytes idx ++ [sym] ∧ i = f idx sym := by
  unfold decodeL at h
  split at h
  · split at h
    · rename_i idx hidx
      cases h
      exact ⟨idx, _, by rw [indexBytes_of_fieldIndex hidx]; rfl, rfl⟩
    · cases h
  · cases h

theorem decodeI_command {f : Index → Index → Index → Instr} {i : Instr} {rest : List Byte}
    (h : decodeI f rest = .command i) :
    ∃ idx c0 c1, rest = indexBytes idx ++ indexBytes c0 ++ indexBytes c1 ∧ i = f idx c0 c1 := by
  unfold decodeI at h
  split at h
  · split at h
    · rename_i idx c0 c1 h1 h2 h3
      cases h
      refine ⟨idx, c0, c1, ?_, rfl⟩
      rw [indexBytes_of_fieldIndex h1, indexBytes_of_fieldIndex h2, indexBytes_of_fieldIndex h3]
      rfl
    · cases h
  · cases h

theorem decodeC_encode (f : Symbol → Code → Instr) (sym : Symbol) {c : Code} (h : Code.legal c = true) :
    decodeC f (sym :: BitVec.ofNat 8 c.length :: packBits c) = .command (f sym c) := by
  have h0 : BitVec.ofNat 8 c.length ≠ 0#8 := by
    intro h0
    have := congrArg BitVec.toNat h0
    rw [len_toNat h] at this
    rw [legal_iff] at h
    simp at this
    simp [this] at h
  unfold decodeC
  simp only [h0, codeLengthOk_pack h, false_or, Bool.true_eq_false, if_false, codeUnusedBits_pack h, codeOfBytes_pack h]
  simp

theorem decodeL_encode (f : Index → Symbol → Instr) (idx : Index) (sym : Symbol) :
    decodeL f (indexBytes idx ++ [sym]) = .command (f idx sym) := by
  simp [indexBytes, decodeL, fieldIndex_bytes]

theorem decodeI_encode (f : Index → Index → Index → Instr) (idx c0 c1 : Index) :
    decodeI f (indexBytes idx ++ indexBytes c0 ++ indexBytes c1) = .command (f idx c0 c1) := by
  simp [indexBytes, decodeI, fieldIndex_bytes]

/-- The one transaction that is `RST` (30_encoding.md R84). -/
theorem decode_rst {m t} (h : decode m t = .command .rst) : t = [0x01#8] := by
  obtain ⟨o, rest, rfl, ho, -⟩ := decode_command h
  cases o <;> simp only [decodeOperands] at ho
  case rst => obtain ⟨rfl, -⟩ := decodeN_command ho; rfl
  case ldc => obtain ⟨_, _, _, _, h⟩ := decodeC_command ho; cases h
  case ldl => obtain ⟨_, _, _, h⟩ := decodeL_command ho; cases h
  case ldi => obtain ⟨_, _, _, _, h⟩ := decodeI_command ho; cases h
  case esym => obtain ⟨_, _, h⟩ := decodeB_command ho; cases h
  case dbyte => obtain ⟨_, _, h⟩ := decodeB_command ho; cases h
  case dend => obtain ⟨_, _, h⟩ := decodeB_command ho; cases h
  all_goals obtain ⟨_, h⟩ := decodeN_command ho; cases h

/-- The one transaction that is `STAT` (30_encoding.md R84). -/
theorem decode_stat {m t} (h : decode m t = .command .stat) : t = [0x02#8] := by
  obtain ⟨o, rest, rfl, ho, -⟩ := decode_command h
  cases o <;> simp only [decodeOperands] at ho
  case stat => obtain ⟨rfl, -⟩ := decodeN_command ho; rfl
  case ldc => obtain ⟨_, _, _, _, h⟩ := decodeC_command ho; cases h
  case ldl => obtain ⟨_, _, _, h⟩ := decodeL_command ho; cases h
  case ldi => obtain ⟨_, _, _, _, h⟩ := decodeI_command ho; cases h
  case esym => obtain ⟨_, _, h⟩ := decodeB_command ho; cases h
  case dbyte => obtain ⟨_, _, h⟩ := decodeB_command ho; cases h
  case dend => obtain ⟨_, _, h⟩ := decodeB_command ho; cases h
  all_goals obtain ⟨_, h⟩ := decodeN_command ho; cases h

/-- What format `N` decodes to. -/
theorem decodeN_any (i : Instr) (rest : List Byte) :
    (rest = [] ∧ decodeN i rest = .command i) ∨ (rest ≠ [] ∧ decodeN i rest = .illegal .wrongLength) := by
  cases rest <;> simp [decodeN]

/-- What format `B` decodes to. -/
theorem decodeB_any (f : Byte → Instr) (rest : List Byte) :
    (rest.length = 1 ∧ ∃ v, decodeB f rest = .command (f v)) ∨ (rest.length ≠ 1 ∧ decodeB f rest = .illegal .wrongLength) := by
  rcases rest with _ | ⟨a, _ | ⟨b, r⟩⟩ <;> simp [decodeB]

/-- Operand bytes that are illegal in one mode are illegal in both. -/
theorem exists_illegal (m : StoreMode) (o : Opcode) (rest : List Byte)
    (h : ∃ w, decodeOperands o rest = .illegal w) : ∃ w, decode m (o.byte :: rest) = .illegal w := by
  by_cases hr : m = .rom ∧ o.writesStore = true
  · rw [decode_cons, opcodeOf_byte]
    simp [hr.1, hr.2]
  · rw [decode_opcode m o rest (fun hm => by simpa [hm] using hr)]
    exact h

end Sys2Proof
end

