-- ==== Sys2Proof/Laws/Container.lean ====
section
/-! SUPPORT. What the container's fields read back as (45_host_context.md section 5). -/

namespace Sys2Proof.Software

/-- The four bytes of a 32-bit value, put together again. -/
theorem append4 (v : BitVec 32) :
    (v.extractLsb' 24 8 ++ (v.extractLsb' 16 8 ++ (v.extractLsb' 8 8 ++ v.extractLsb' 0 8)) : BitVec 32) = v := by
  apply BitVec.eq_of_getLsbD_eq
  intro i hi
  simp only [BitVec.getLsbD_append, BitVec.getLsbD_extractLsb']
  by_cases h1 : i < 8
  · simp [h1, show i < 24 by omega, show i < 16 by omega]
  · by_cases h2 : i < 16
    · simp [h1, h2, show i < 24 by omega, show i - 8 < 8 by omega, show 8 + (i - 8) = i by omega]
    · by_cases h3 : i < 24
      · simp [h2, h3, show i - 16 < 8 by omega, show 16 + (i - 16) = i by omega]
      · simp [h3, show i - 24 < 8 by omega, show 24 + (i - 24) = i by omega]

/-- A 4-byte field reads back (45_host_context.md R186). -/
theorem readInt_nat32 {n : Nat} (hn : n < 2 ^ 31) (rest : List Byte) : readInt (nat32 n ++ rest) = some ((n : Int), rest) := by
  simp only [nat32, bytes32, List.cons_append, List.nil_append, readInt, int32]
  rw [append4]
  have h : (BitVec.ofNat 32 n).toNat = n := by simp; omega
  rw [BitVec.toInt_eq_toNat_of_lt (by omega), h]

theorem nat32_length (n : Nat) : (nat32 n).length = 4 := rfl

/-- A buffer too short for a 4-byte field (45_host_context.md R188). -/
theorem readInt_none {l : List Byte} (h : l.length < 4) : readInt l = none := by
  rcases l with _ | ⟨a, _ | ⟨b, _ | ⟨c, _ | ⟨d, r⟩⟩⟩⟩ <;> simp [readInt] at h ⊢
  omega

/-- The table entries read back (45_host_context.md R184). -/
theorem readEntries_write (table : FreqTable) (h : ∀ e ∈ table, e.2 < 2 ^ 31) (rest : List Byte) :
    readEntries table.length (table.flatMap entryBytes ++ rest) =
      some (table.map fun e => (e.1, (e.2 : Int)), rest) := by
  induction table with
  | nil => rfl
  | cons e table ih =>
    simp only [List.flatMap_cons, entryBytes, List.cons_append, List.append_assoc, List.length_cons, readEntries]
    rw [readInt_nat32 (h e (by simp)), ]
    simp only
    rw [ih (fun e he => h e (by simp [he]))]
    rfl

theorem entries_length (table : FreqTable) : (table.flatMap entryBytes).length = 5 * table.length := by
  induction table with
  | nil => rfl
  | cons e table ih => simp [entryBytes, nat32_length, ih]; omega

/-- There are 256 symbols. -/
theorem nodup_length {l : List Symbol} (h : l.Nodup) : l.length ≤ 256 := by
  have := h.length_le_card
  have hc : Fintype.card Symbol = 256 := by
    rw [Fintype.card_congr (BitVec.equivFin (m := 8)).toEquiv, Fintype.card_fin]; rfl
  omega

theorem writeContainer_length (table : FreqTable) (packed : List Byte) (pad : Nat) :
    (writeContainer table packed pad).length = 4 + 5 * table.length + 4 + packed.length := by
  simp only [writeContainer, List.length_append, nat32_length, entries_length]; omega

theorem readInt_some {l : List Byte} {v : Int} {rest : List Byte} (h : readInt l = some (v, rest)) : l.length = 4 + rest.length := by
  rcases l with _ | ⟨a, _ | ⟨b, _ | ⟨c, _ | ⟨d, r⟩⟩⟩⟩ <;> simp [readInt] at h
  simp [h.2]; omega

/-- Every entry takes five bytes (45_host_context.md R184). -/
theorem readEntries_some {n : Nat} {l rest : List Byte} {es : List (Symbol × Int)} (h : readEntries n l = some (es, rest)) :
    l.length = 5 * n + rest.length := by
  induction n generalizing l es with
  | zero => cases h; simp
  | succ n ih =>
    cases l with
    | nil => cases h
    | cons sym l =>
      simp only [readEntries] at h
      split at h
      · cases h
      · rename_i f r hr
        split at h
        · cases h
        · rename_i es' after he
          cases h
          have := readInt_some hr
          have := ih he
          simp only [List.length_cons]; omega

end Sys2Proof.Software
end

