-- ==== Sys2Proof/Laws/State.lean ====
section
/-! SUPPORT. One lemma per field per update of the state, each true by `rfl`, so that no later proof unfolds a record
update. -/

namespace Sys2Proof.Machine

@[simp] theorem respond_flt (r : Response) (s : State) : (respond r s).flt = s.flt := rfl
@[simp] theorem respond_eph (r : Response) (s : State) : (respond r s).eph = s.eph := rfl
@[simp] theorem respond_eacc (r : Response) (s : State) : (respond r s).eacc = s.eacc := rfl
@[simp] theorem respond_ecnt (r : Response) (s : State) : (respond r s).ecnt = s.ecnt := rfl
@[simp] theorem respond_dph (r : Response) (s : State) : (respond r s).dph = s.dph := rfl
@[simp] theorem respond_dcur (r : Response) (s : State) : (respond r s).dcur = s.dcur := rfl
@[simp] theorem respond_dhold (r : Response) (s : State) : (respond r s).dhold = s.dhold := rfl
@[simp] theorem respond_dhv (r : Response) (s : State) : (respond r s).dhv = s.dhv := rfl
@[simp] theorem respond_ct (r : Response) (s : State) : (respond r s).ct = s.ct := rfl
@[simp] theorem respond_ts (r : Response) (s : State) : (respond r s).ts = s.ts := rfl
@[simp] theorem respond_cfg (r : Response) (s : State) : (respond r s).cfg = s.cfg := rfl
@[simp] theorem respond_inbox (r : Response) (s : State) : (respond r s).inbox = s.inbox := rfl
@[simp] theorem respond_outbox (r : Response) (s : State) : (respond r s).outbox = s.outbox ++ [r] := rfl

@[simp] theorem complete_flt (p : List Byte) (s : State) : (complete p s).flt = s.flt := rfl
@[simp] theorem complete_eph (p : List Byte) (s : State) : (complete p s).eph = s.eph := rfl
@[simp] theorem complete_eacc (p : List Byte) (s : State) : (complete p s).eacc = s.eacc := rfl
@[simp] theorem complete_ecnt (p : List Byte) (s : State) : (complete p s).ecnt = s.ecnt := rfl
@[simp] theorem complete_dph (p : List Byte) (s : State) : (complete p s).dph = s.dph := rfl
@[simp] theorem complete_dcur (p : List Byte) (s : State) : (complete p s).dcur = s.dcur := rfl
@[simp] theorem complete_dhold (p : List Byte) (s : State) : (complete p s).dhold = s.dhold := rfl
@[simp] theorem complete_dhv (p : List Byte) (s : State) : (complete p s).dhv = s.dhv := rfl
@[simp] theorem complete_ct (p : List Byte) (s : State) : (complete p s).ct = s.ct := rfl
@[simp] theorem complete_ts (p : List Byte) (s : State) : (complete p s).ts = s.ts := rfl
@[simp] theorem complete_cfg (p : List Byte) (s : State) : (complete p s).cfg = s.cfg := rfl
@[simp] theorem complete_inbox (p : List Byte) (s : State) : (complete p s).inbox = s.inbox := rfl
@[simp] theorem complete_outbox (p : List Byte) (s : State) : (complete p s).outbox = s.outbox ++ [{ status := .ok, payload := p }] := rfl

@[simp] theorem refuse_flt (c : Cause) (s : State) : (refuse c s).flt = s.flt := rfl
@[simp] theorem refuse_eph (c : Cause) (s : State) : (refuse c s).eph = s.eph := rfl
@[simp] theorem refuse_eacc (c : Cause) (s : State) : (refuse c s).eacc = s.eacc := rfl
@[simp] theorem refuse_ecnt (c : Cause) (s : State) : (refuse c s).ecnt = s.ecnt := rfl
@[simp] theorem refuse_dph (c : Cause) (s : State) : (refuse c s).dph = s.dph := rfl
@[simp] theorem refuse_dcur (c : Cause) (s : State) : (refuse c s).dcur = s.dcur := rfl
@[simp] theorem refuse_dhold (c : Cause) (s : State) : (refuse c s).dhold = s.dhold := rfl
@[simp] theorem refuse_dhv (c : Cause) (s : State) : (refuse c s).dhv = s.dhv := rfl
@[simp] theorem refuse_ct (c : Cause) (s : State) : (refuse c s).ct = s.ct := rfl
@[simp] theorem refuse_ts (c : Cause) (s : State) : (refuse c s).ts = s.ts := rfl
@[simp] theorem refuse_cfg (c : Cause) (s : State) : (refuse c s).cfg = s.cfg := rfl
@[simp] theorem refuse_inbox (c : Cause) (s : State) : (refuse c s).inbox = s.inbox := rfl
@[simp] theorem refuse_outbox (c : Cause) (s : State) : (refuse c s).outbox = s.outbox ++ [{ status := .refused c, payload := [] }] := rfl

@[simp] theorem raiseFault_flt (c : Cause) (s : State) : (raiseFault c s).flt = some c := rfl
@[simp] theorem raiseFault_eph (c : Cause) (s : State) : (raiseFault c s).eph = s.eph := rfl
@[simp] theorem raiseFault_eacc (c : Cause) (s : State) : (raiseFault c s).eacc = s.eacc := rfl
@[simp] theorem raiseFault_ecnt (c : Cause) (s : State) : (raiseFault c s).ecnt = s.ecnt := rfl
@[simp] theorem raiseFault_dph (c : Cause) (s : State) : (raiseFault c s).dph = s.dph := rfl
@[simp] theorem raiseFault_dcur (c : Cause) (s : State) : (raiseFault c s).dcur = s.dcur := rfl
@[simp] theorem raiseFault_dhold (c : Cause) (s : State) : (raiseFault c s).dhold = s.dhold := rfl
@[simp] theorem raiseFault_dhv (c : Cause) (s : State) : (raiseFault c s).dhv = s.dhv := rfl
@[simp] theorem raiseFault_ct (c : Cause) (s : State) : (raiseFault c s).ct = s.ct := rfl
@[simp] theorem raiseFault_ts (c : Cause) (s : State) : (raiseFault c s).ts = s.ts := rfl
@[simp] theorem raiseFault_cfg (c : Cause) (s : State) : (raiseFault c s).cfg = s.cfg := rfl
@[simp] theorem raiseFault_inbox (c : Cause) (s : State) : (raiseFault c s).inbox = s.inbox := rfl
@[simp] theorem raiseFault_outbox (c : Cause) (s : State) : (raiseFault c s).outbox = s.outbox ++ [{ status := .fault c, payload := [] }] := rfl

@[simp] theorem restart_flt (s : State) : (restart s).flt = (State.resetOf s.cfg).flt := rfl
@[simp] theorem restart_eph (s : State) : (restart s).eph = (State.resetOf s.cfg).eph := rfl
@[simp] theorem restart_eacc (s : State) : (restart s).eacc = (State.resetOf s.cfg).eacc := rfl
@[simp] theorem restart_ecnt (s : State) : (restart s).ecnt = (State.resetOf s.cfg).ecnt := rfl
@[simp] theorem restart_dph (s : State) : (restart s).dph = (State.resetOf s.cfg).dph := rfl
@[simp] theorem restart_dcur (s : State) : (restart s).dcur = (State.resetOf s.cfg).dcur := rfl
@[simp] theorem restart_dhold (s : State) : (restart s).dhold = (State.resetOf s.cfg).dhold := rfl
@[simp] theorem restart_dhv (s : State) : (restart s).dhv = (State.resetOf s.cfg).dhv := rfl
@[simp] theorem restart_ct (s : State) : (restart s).ct = (State.resetOf s.cfg).ct := rfl
@[simp] theorem restart_ts (s : State) : (restart s).ts = (State.resetOf s.cfg).ts := rfl
@[simp] theorem restart_cfg (s : State) : (restart s).cfg = s.cfg := rfl
@[simp] theorem restart_inbox (s : State) : (restart s).inbox = s.inbox := rfl
@[simp] theorem restart_outbox (s : State) : (restart s).outbox = s.outbox := rfl

@[simp] theorem writeCT_flt (s : State) (sym : Symbol) (e : CTEntry) : (s.writeCT sym e).flt = s.flt := rfl
@[simp] theorem writeCT_eph (s : State) (sym : Symbol) (e : CTEntry) : (s.writeCT sym e).eph = s.eph := rfl
@[simp] theorem writeCT_eacc (s : State) (sym : Symbol) (e : CTEntry) : (s.writeCT sym e).eacc = s.eacc := rfl
@[simp] theorem writeCT_ecnt (s : State) (sym : Symbol) (e : CTEntry) : (s.writeCT sym e).ecnt = s.ecnt := rfl
@[simp] theorem writeCT_dph (s : State) (sym : Symbol) (e : CTEntry) : (s.writeCT sym e).dph = s.dph := rfl
@[simp] theorem writeCT_dcur (s : State) (sym : Symbol) (e : CTEntry) : (s.writeCT sym e).dcur = s.dcur := rfl
@[simp] theorem writeCT_dhold (s : State) (sym : Symbol) (e : CTEntry) : (s.writeCT sym e).dhold = s.dhold := rfl
@[simp] theorem writeCT_dhv (s : State) (sym : Symbol) (e : CTEntry) : (s.writeCT sym e).dhv = s.dhv := rfl
@[simp] theorem writeCT_ct (s : State) (sym : Symbol) (e : CTEntry) : (s.writeCT sym e).ct = Store.write none s.ct sym.toNat e := rfl
@[simp] theorem writeCT_ts (s : State) (sym : Symbol) (e : CTEntry) : (s.writeCT sym e).ts = s.ts := rfl
@[simp] theorem writeCT_cfg (s : State) (sym : Symbol) (e : CTEntry) : (s.writeCT sym e).cfg = s.cfg := rfl
@[simp] theorem writeCT_inbox (s : State) (sym : Symbol) (e : CTEntry) : (s.writeCT sym e).inbox = s.inbox := rfl
@[simp] theorem writeCT_outbox (s : State) (sym : Symbol) (e : CTEntry) : (s.writeCT sym e).outbox = s.outbox := rfl

@[simp] theorem clearCT_flt (s : State) : s.clearCT.flt = s.flt := rfl
@[simp] theorem clearCT_eph (s : State) : s.clearCT.eph = s.eph := rfl
@[simp] theorem clearCT_eacc (s : State) : s.clearCT.eacc = s.eacc := rfl
@[simp] theorem clearCT_ecnt (s : State) : s.clearCT.ecnt = s.ecnt := rfl
@[simp] theorem clearCT_dph (s : State) : s.clearCT.dph = s.dph := rfl
@[simp] theorem clearCT_dcur (s : State) : s.clearCT.dcur = s.dcur := rfl
@[simp] theorem clearCT_dhold (s : State) : s.clearCT.dhold = s.dhold := rfl
@[simp] theorem clearCT_dhv (s : State) : s.clearCT.dhv = s.dhv := rfl
@[simp] theorem clearCT_ct (s : State) : s.clearCT.ct = [] := rfl
@[simp] theorem clearCT_ts (s : State) : s.clearCT.ts = s.ts := rfl
@[simp] theorem clearCT_cfg (s : State) : s.clearCT.cfg = s.cfg := rfl
@[simp] theorem clearCT_inbox (s : State) : s.clearCT.inbox = s.inbox := rfl
@[simp] theorem clearCT_outbox (s : State) : s.clearCT.outbox = s.outbox := rfl

@[simp] theorem writeTS_flt (s : State) (i : Index) (n : Node) : (s.writeTS i n).flt = s.flt := rfl
@[simp] theorem writeTS_eph (s : State) (i : Index) (n : Node) : (s.writeTS i n).eph = s.eph := rfl
@[simp] theorem writeTS_eacc (s : State) (i : Index) (n : Node) : (s.writeTS i n).eacc = s.eacc := rfl
@[simp] theorem writeTS_ecnt (s : State) (i : Index) (n : Node) : (s.writeTS i n).ecnt = s.ecnt := rfl
@[simp] theorem writeTS_dph (s : State) (i : Index) (n : Node) : (s.writeTS i n).dph = s.dph := rfl
@[simp] theorem writeTS_dcur (s : State) (i : Index) (n : Node) : (s.writeTS i n).dcur = s.dcur := rfl
@[simp] theorem writeTS_dhold (s : State) (i : Index) (n : Node) : (s.writeTS i n).dhold = s.dhold := rfl
@[simp] theorem writeTS_dhv (s : State) (i : Index) (n : Node) : (s.writeTS i n).dhv = s.dhv := rfl
@[simp] theorem writeTS_ct (s : State) (i : Index) (n : Node) : (s.writeTS i n).ct = s.ct := rfl
@[simp] theorem writeTS_ts (s : State) (i : Index) (n : Node) : (s.writeTS i n).ts = Store.write .invalid s.ts i.toNat n := rfl
@[simp] theorem writeTS_cfg (s : State) (i : Index) (n : Node) : (s.writeTS i n).cfg = s.cfg := rfl
@[simp] theorem writeTS_inbox (s : State) (i : Index) (n : Node) : (s.writeTS i n).inbox = s.inbox := rfl
@[simp] theorem writeTS_outbox (s : State) (i : Index) (n : Node) : (s.writeTS i n).outbox = s.outbox := rfl

@[simp] theorem clearTS_flt (s : State) : s.clearTS.flt = s.flt := rfl
@[simp] theorem clearTS_eph (s : State) : s.clearTS.eph = s.eph := rfl
@[simp] theorem clearTS_eacc (s : State) : s.clearTS.eacc = s.eacc := rfl
@[simp] theorem clearTS_ecnt (s : State) : s.clearTS.ecnt = s.ecnt := rfl
@[simp] theorem clearTS_dph (s : State) : s.clearTS.dph = s.dph := rfl
@[simp] theorem clearTS_dcur (s : State) : s.clearTS.dcur = s.dcur := rfl
@[simp] theorem clearTS_dhold (s : State) : s.clearTS.dhold = s.dhold := rfl
@[simp] theorem clearTS_dhv (s : State) : s.clearTS.dhv = s.dhv := rfl
@[simp] theorem clearTS_ct (s : State) : s.clearTS.ct = s.ct := rfl
@[simp] theorem clearTS_ts (s : State) : s.clearTS.ts = [] := rfl
@[simp] theorem clearTS_cfg (s : State) : s.clearTS.cfg = s.cfg := rfl
@[simp] theorem clearTS_inbox (s : State) : s.clearTS.inbox = s.inbox := rfl
@[simp] theorem clearTS_outbox (s : State) : s.clearTS.outbox = s.outbox := rfl

@[simp] theorem deliver_flt (t : List Byte) (s : State) : (deliver t s).flt = s.flt := rfl
@[simp] theorem deliver_eph (t : List Byte) (s : State) : (deliver t s).eph = s.eph := rfl
@[simp] theorem deliver_eacc (t : List Byte) (s : State) : (deliver t s).eacc = s.eacc := rfl
@[simp] theorem deliver_ecnt (t : List Byte) (s : State) : (deliver t s).ecnt = s.ecnt := rfl
@[simp] theorem deliver_dph (t : List Byte) (s : State) : (deliver t s).dph = s.dph := rfl
@[simp] theorem deliver_dcur (t : List Byte) (s : State) : (deliver t s).dcur = s.dcur := rfl
@[simp] theorem deliver_dhold (t : List Byte) (s : State) : (deliver t s).dhold = s.dhold := rfl
@[simp] theorem deliver_dhv (t : List Byte) (s : State) : (deliver t s).dhv = s.dhv := rfl
@[simp] theorem deliver_ct (t : List Byte) (s : State) : (deliver t s).ct = s.ct := rfl
@[simp] theorem deliver_ts (t : List Byte) (s : State) : (deliver t s).ts = s.ts := rfl
@[simp] theorem deliver_cfg (t : List Byte) (s : State) : (deliver t s).cfg = s.cfg := rfl
@[simp] theorem deliver_inbox (t : List Byte) (s : State) : (deliver t s).inbox = s.inbox ++ [t] := rfl
@[simp] theorem deliver_outbox (t : List Byte) (s : State) : (deliver t s).outbox = s.outbox := rfl

@[simp] theorem deliverFirst_flt (t : List Byte) (s : State) : (deliverFirst t s).flt = s.flt := rfl
@[simp] theorem deliverFirst_eph (t : List Byte) (s : State) : (deliverFirst t s).eph = s.eph := rfl
@[simp] theorem deliverFirst_eacc (t : List Byte) (s : State) : (deliverFirst t s).eacc = s.eacc := rfl
@[simp] theorem deliverFirst_ecnt (t : List Byte) (s : State) : (deliverFirst t s).ecnt = s.ecnt := rfl
@[simp] theorem deliverFirst_dph (t : List Byte) (s : State) : (deliverFirst t s).dph = s.dph := rfl
@[simp] theorem deliverFirst_dcur (t : List Byte) (s : State) : (deliverFirst t s).dcur = s.dcur := rfl
@[simp] theorem deliverFirst_dhold (t : List Byte) (s : State) : (deliverFirst t s).dhold = s.dhold := rfl
@[simp] theorem deliverFirst_dhv (t : List Byte) (s : State) : (deliverFirst t s).dhv = s.dhv := rfl
@[simp] theorem deliverFirst_ct (t : List Byte) (s : State) : (deliverFirst t s).ct = s.ct := rfl
@[simp] theorem deliverFirst_ts (t : List Byte) (s : State) : (deliverFirst t s).ts = s.ts := rfl
@[simp] theorem deliverFirst_cfg (t : List Byte) (s : State) : (deliverFirst t s).cfg = s.cfg := rfl
@[simp] theorem deliverFirst_inbox (t : List Byte) (s : State) : (deliverFirst t s).inbox = t :: s.inbox := rfl
@[simp] theorem deliverFirst_outbox (t : List Byte) (s : State) : (deliverFirst t s).outbox = s.outbox := rfl

@[simp] theorem resetOf_flt (cfg : Config) : (State.resetOf cfg).flt = none := rfl
@[simp] theorem resetOf_eph (cfg : Config) : (State.resetOf cfg).eph = .idle := rfl
@[simp] theorem resetOf_eacc (cfg : Config) : (State.resetOf cfg).eacc = 0#8 := rfl
@[simp] theorem resetOf_ecnt (cfg : Config) : (State.resetOf cfg).ecnt = 0#3 := rfl
@[simp] theorem resetOf_dph (cfg : Config) : (State.resetOf cfg).dph = .idle := rfl
@[simp] theorem resetOf_dcur (cfg : Config) : (State.resetOf cfg).dcur = root := rfl
@[simp] theorem resetOf_dhold (cfg : Config) : (State.resetOf cfg).dhold = 0#8 := rfl
@[simp] theorem resetOf_dhv (cfg : Config) : (State.resetOf cfg).dhv = false := rfl
@[simp] theorem resetOf_cfg (cfg : Config) : (State.resetOf cfg).cfg = cfg := rfl
@[simp] theorem resetOf_inbox (cfg : Config) : (State.resetOf cfg).inbox = [] := rfl
@[simp] theorem resetOf_outbox (cfg : Config) : (State.resetOf cfg).outbox = [] := rfl

theorem resetOf_ct_loadable {cfg : Config} (h : cfg.storeMode = .loadable) : (State.resetOf cfg).ct = [] := by
  simp [State.resetOf, h]

theorem resetOf_ts_loadable {cfg : Config} (h : cfg.storeMode = .loadable) : (State.resetOf cfg).ts = [] := by
  simp [State.resetOf, h]

theorem resetOf_ct_rom {cfg : Config} (h : cfg.storeMode = .rom) : (State.resetOf cfg).ct = cfg.romCt := by
  simp [State.resetOf, h]

theorem resetOf_ts_rom {cfg : Config} (h : cfg.storeMode = .rom) : (State.resetOf cfg).ts = cfg.romTs := by
  simp [State.resetOf, h]

end Sys2Proof.Machine
end

