-- ==== Sys2Proof/Laws/Ops.lean ====
section
/-! SUPPORT. What the shared operations can do, and what one command can do in terms of them. -/

namespace Sys2Proof.Machine

theorem perform_faulted {s : State} {c : Cause} (h : s.flt = some c) (body : State → Effect) :
    perform body s = refuse c s := by simp [perform, h]

theorem perform_raise {s : State} {body : State → Effect} {c : Cause} (h : s.flt = none) (hb : body s = .raise c) :
    perform body s = raiseFault c s := by simp [perform, h, hb]

theorem perform_done {s t : State} {body : State → Effect} {p : List Byte} (h : s.flt = none)
    (hb : body s = .done t p) : perform body s = complete p t := by simp [perform, h, hb]

/-- Everything a gated command can do (60_exceptions.md R218). -/
theorem perform_cases (body : State → Effect) (s : State) :
    (∃ c, s.flt = some c ∧ perform body s = refuse c s) ∨
    (∃ c, s.flt = none ∧ body s = .raise c ∧ perform body s = raiseFault c s) ∨
    (∃ t p, s.flt = none ∧ body s = .done t p ∧ perform body s = complete p t) := by
  cases h : s.flt with
  | some c => exact .inl ⟨c, rfl, perform_faulted h body⟩
  | none =>
    cases hb : body s with
    | raise c => exact .inr (.inl ⟨c, rfl, rfl, perform_raise h hb⟩)
    | done t p => exact .inr (.inr ⟨t, p, rfl, rfl, perform_done h hb⟩)

theorem needPhase_ok {phase : State → Phase} {need : Phase} {body : State → Effect} {s : State}
    (h : phase s = need) : needPhase phase need body s = body s := by simp [needPhase, h]

theorem needPhase_bad {phase : State → Phase} {need : Phase} {body : State → Effect} {s : State}
    (h : phase s ≠ need) : needPhase phase need body s = .raise .sequenceError := by simp [needPhase, h]

theorem needPhase_done {phase : State → Phase} {need : Phase} {body : State → Effect} {s t : State} {p : List Byte}
    (h : needPhase phase need body s = .done t p) : phase s = need ∧ body s = .done t p := by
  unfold needPhase at h
  split at h
  · exact ⟨‹_›, h⟩
  · cases h

theorem needLoadable_ok {body : State → Effect} {s : State} (h : s.cfg.storeMode = .loadable) :
    needLoadable body s = body s := by simp [needLoadable, h]

theorem needLoadable_rom {body : State → Effect} {s : State} (h : s.cfg.storeMode = .rom) :
    needLoadable body s = .raise .commandError := by simp [needLoadable, h]

theorem needLoadable_done {body : State → Effect} {s t : State} {p : List Byte}
    (h : needLoadable body s = .done t p) : s.cfg.storeMode = .loadable ∧ body s = .done t p := by
  unfold needLoadable at h
  split at h
  · exact ⟨‹_›, h⟩
  · cases h

theorem needLegalCode_ok {c : Code} {body : State → Effect} {s : State} (h : Code.legal c = true) :
    needLegalCode c body s = body s := by simp [needLegalCode, h]

theorem needLegalCode_done {c : Code} {body : State → Effect} {s t : State} {p : List Byte}
    (h : needLegalCode c body s = .done t p) : Code.legal c = true ∧ body s = .done t p := by
  unfold needLegalCode at h
  split at h
  · exact ⟨‹_›, h⟩
  · cases h

/-- The body of each command that is gated by the fault flag; `RST` and `STAT` have none. -/
def bodyOf : Instr → State → Effect
  | .rst, s | .stat, s => .done s []
  | .clrc, s => needLoadable (needPhase State.eph .idle fun t => .done t.clearCT []) s
  | .ldc sym c, s =>
    needLoadable (needLegalCode c (needPhase State.eph .idle fun t => .done (t.writeCT sym (some c)) [])) s
  | .clrt, s => needLoadable (needPhase State.dph .idle fun t => .done t.clearTS []) s
  | .ldl idx sym, s => needLoadable (needPhase State.dph .idle fun t => .done (t.writeTS idx (.leaf sym)) []) s
  | .ldi idx c0 c1, s =>
    needLoadable (needPhase State.dph .idle fun t => .done (t.writeTS idx (.internal c0 c1)) []) s
  | .est, s => needPhase State.eph .idle (fun t => .done { t with eacc := 0#8, ecnt := 0#3, eph := .run } []) s
  | .esym sym, s => needPhase State.eph .run (encodeSymbol sym) s
  | .efl, s =>
    needPhase State.eph .run (fun t => .done { t with eacc := 0#8, ecnt := 0#3, eph := .idle } (flushBytes t)) s
  | .dst, s =>
    needPhase State.dph .idle
      (fun t => .done { t with dcur := root, dhold := 0#8, dhv := false, dph := .run } []) s
  | .dbyte b, s => needPhase State.dph .run (takeByte b) s
  | .dend pad, s => needPhase State.dph .run (endStream pad) s

/-- Every command but `RST` and `STAT` is its body, gated (60_exceptions.md R218). -/
theorem exec_eq_perform {i : Instr} (h1 : i ≠ .rst) (h2 : i ≠ .stat) (s : State) :
    exec i s = .next (perform (bodyOf i) s) := by
  cases i <;> first | rfl | exact absurd rfl h1 | exact absurd rfl h2

/-- Performing any command in any state answers a next state. -/
theorem exec_next (i : Instr) (s : State) : ∃ t, exec i s = .next t := by cases i <;> exact ⟨_, rfl⟩

/-- A refusal, a fault, or a completion: what one command can do. -/
theorem exec_cases {i : Instr} {s t : State} (h : exec i s = .next t) :
    (i = .rst ∧ t = complete [] (restart s)) ∨
    (i = .stat ∧ t = complete (bytes16 (statusWord s)) s) ∨
    (i ≠ .rst ∧ i ≠ .stat ∧
      ((∃ c, s.flt = some c ∧ t = refuse c s) ∨
       (∃ c, s.flt = none ∧ bodyOf i s = .raise c ∧ t = raiseFault c s) ∨
       (∃ u p, s.flt = none ∧ bodyOf i s = .done u p ∧ t = complete p u))) := by
  by_cases h1 : i = .rst
  · subst h1; cases h; exact .inl ⟨rfl, rfl⟩
  · by_cases h2 : i = .stat
    · subst h2; cases h; exact .inr (.inl ⟨rfl, rfl⟩)
    · rw [exec_eq_perform h1 h2] at h
      injection h with h
      subst h
      exact .inr (.inr ⟨h1, h2, perform_cases _ _⟩)

theorem step_idle {s : State} (h : s.inbox = []) : step s = .next s := by simp [step, takeTransaction, h]

/-- A delivered transaction that decodes to a command is performed. -/
theorem step_command {s : State} {t : List Byte} {rest : List (List Byte)} {i : Instr} (h : s.inbox = t :: rest)
    (hd : decode s.cfg.storeMode t = .command i) : step s = exec i { s with inbox := rest } := by
  simp [step, takeTransaction, h, hd]

/-- A delivered transaction that is an illegal command. -/
theorem step_illegal {s : State} {t : List Byte} {rest : List (List Byte)} {w : Illegal} (h : s.inbox = t :: rest)
    (hd : decode s.cfg.storeMode t = .illegal w) : step s = .next (performIllegal { s with inbox := rest }) := by
  simp [step, takeTransaction, h, hd]

/-- Everything a step can do. -/
theorem step_cases {s u : State} (h : step s = .next u) :
    (s.inbox = [] ∧ u = s) ∨
    (∃ t rest i, s.inbox = t :: rest ∧ decode s.cfg.storeMode t = .command i ∧
      exec i { s with inbox := rest } = .next u) ∨
    (∃ t rest w, s.inbox = t :: rest ∧ decode s.cfg.storeMode t = .illegal w ∧
      u = performIllegal { s with inbox := rest }) := by
  cases hi : s.inbox with
  | nil => rw [step_idle hi] at h; cases h; exact .inl ⟨rfl, rfl⟩
  | cons t rest =>
    cases hd : decode s.cfg.storeMode t with
    | command i => rw [step_command hi hd] at h; exact .inr (.inl ⟨t, rest, i, rfl, hd, h⟩)
    | illegal w =>
      rw [step_illegal hi hd] at h
      injection h with h
      exact .inr (.inr ⟨t, rest, w, rfl, hd, h.symm⟩)

theorem performIllegal_cases (s : State) :
    (∃ c, s.flt = some c ∧ performIllegal s = refuse c s) ∨
    (s.flt = none ∧ performIllegal s = raiseFault .commandError s) := by
  cases h : s.flt with
  | some c => exact .inl ⟨c, rfl, perform_faulted h _⟩
  | none => exact .inr ⟨rfl, perform_raise h rfl⟩

theorem step_next (s : State) : ∃ t, step s = .next t := by
  cases hi : s.inbox with
  | nil => exact ⟨s, step_idle hi⟩
  | cons t rest =>
    cases hd : decode s.cfg.storeMode t with
    | command i => rw [step_command hi hd]; exact exec_next _ _
    | illegal w => exact ⟨_, step_illegal hi hd⟩

end Sys2Proof.Machine
end

