-- ==== Sys2Proof/Laws/Packer.lean ====
section
/-! SUPPORT. What the packer does to the stream: the bits it has emitted and those pending, in order, grow by the bits
it is given (41_encoder_ops.md R123). -/

namespace Sys2Proof.Machine

/-- The bits a packer has been given: those of the bytes it emitted, then the pending ones. -/
def Packer.stream (p : Packer) : List Bool := unpackBits p.out ++ pendingBits p.eacc p.ecnt

/-- Every bit of `EACC` that is not pending is zero (10_state.md R26). -/
def Packer.Clean (p : Packer) : Prop := ∀ i, i + p.ecnt.toNat < 8 → p.eacc.getLsbD i = false

theorem pendingBits_length (eacc : BitVec 8) (ecnt : BitVec 3) : (pendingBits eacc ecnt).length = ecnt.toNat := by
  have := ecnt.isLt
  simp only [pendingBits, List.length_take, msbBits_length]
  omega

/-- Placing a bit at the first free position appends it to those before. -/
theorem take_msbBits_setBit (v : Byte) (n : Nat) (hn : n < 8) (b : Bool) :
    (msbBits (setBit v (7 - n) b)).take (n + 1) = (msbBits v).take n ++ [b] := by
  apply List.ext_getElem?
  intro j
  rcases Nat.lt_trichotomy j n with h | h | h
  · rw [List.getElem?_take_of_lt (by omega), List.getElem?_append_left (by simp; omega),
      List.getElem?_take_of_lt h, msbBits_getElem? _ _ (by omega), msbBits_getElem? _ _ (by omega),
      setBit_getLsbD _ _ _ _ (by omega), if_neg (by omega)]
  · subst h
    rw [List.getElem?_take_of_lt (by omega), List.getElem?_append_right (by simp), msbBits_getElem? _ _ hn,
      setBit_getLsbD _ _ _ _ (by omega)]
    simp [show min j 8 = j by omega]
  · rw [List.getElem?_eq_none (by simp; omega), List.getElem?_eq_none (by simp; omega)]

theorem pack_full {p : Packer} (h : p.ecnt = 7#3) (b : Bool) :
    pack p b = { eacc := 0#8, ecnt := 0#3, out := p.out ++ [setBit p.eacc 0 b] } := by
  simp [pack, h]

theorem pack_notFull {p : Packer} (h : p.ecnt ≠ 7#3) (b : Bool) :
    pack p b = { eacc := setBit p.eacc (7 - p.ecnt.toNat) b, ecnt := p.ecnt + 1#3, out := p.out } := by
  simp [pack, h]

theorem ecnt_ne {n : BitVec 3} (h : n ≠ 7#3) : n.toNat < 7 := by
  have := n.isLt
  have : n.toNat ≠ 7 := fun h7 => h (BitVec.eq_of_toNat_eq h7)
  omega

theorem ecnt_succ {n : BitVec 3} (h : n ≠ 7#3) : (n + 1#3).toNat = n.toNat + 1 := by
  have := ecnt_ne h
  simp only [BitVec.toNat_add, BitVec.toNat_ofNat]
  omega

/-- One bit appended to the stream. -/
theorem pack_stream (p : Packer) (b : Bool) : (pack p b).stream = p.stream ++ [b] := by
  by_cases h : p.ecnt = 7#3
  · rw [pack_full h]
    have h7 : p.ecnt.toNat = 7 := by rw [h]; rfl
    have := take_msbBits_setBit p.eacc 7 (by decide) b
    rw [List.take_of_length_le (by simp)] at this
    simp only [Packer.stream, pendingBits, unpackBits_append, unpackBits_cons, unpackBits_nil, List.append_nil, h7]
    simp [this]
  · rw [pack_notFull h]
    have := ecnt_ne h
    simp only [Packer.stream, pendingBits, ecnt_succ h, take_msbBits_setBit _ _ (by omega : p.ecnt.toNat < 8) b,
      List.append_assoc]

theorem pack_clean {p : Packer} (hp : p.Clean) (b : Bool) : (pack p b).Clean := by
  by_cases h : p.ecnt = 7#3
  · rw [pack_full h]; intro i _; simp
  · rw [pack_notFull h]
    have := ecnt_ne h
    intro i hi
    simp only [ecnt_succ h] at hi
    simp only
    rw [setBit_getLsbD _ _ _ _ (by omega), if_neg (by omega)]
    exact hp i (by omega)

theorem packAll_append (p : Packer) (as bs : List Bool) : packAll p (as ++ bs) = packAll (packAll p as) bs := by
  induction as generalizing p with
  | nil => rfl
  | cons a as ih => exact ih (pack p a)

/-- The bits of a code appended to the stream, in order. -/
theorem packAll_stream (p : Packer) (c : List Bool) : (packAll p c).stream = p.stream ++ c := by
  induction c generalizing p with
  | nil => simp [packAll]
  | cons b c ih => simp [packAll, ih, pack_stream]

theorem packAll_clean {p : Packer} (hp : p.Clean) (c : List Bool) : (packAll p c).Clean := by
  induction c generalizing p with
  | nil => exact hp
  | cons b c ih => exact ih (pack_clean hp b)

theorem stream_length (p : Packer) : p.stream.length = 8 * p.out.length + p.ecnt.toNat := by
  simp [Packer.stream, pendingBits_length]

/-- The bytes emitted and the bits pending after a code (41_encoder_ops.md R122: the quotient and the remainder). -/
theorem packAll_counts (p : Packer) (c : List Bool) :
    (packAll p c).out.length = p.out.length + (p.ecnt.toNat + c.length) / 8 ∧
    (packAll p c).ecnt.toNat = (p.ecnt.toNat + c.length) % 8 := by
  have h := congrArg List.length (packAll_stream p c)
  rw [List.length_append, stream_length, stream_length] at h
  have := (packAll p c).ecnt.isLt
  omega

/-- The bytes emitted before stay first. -/
theorem pack_out (p : Packer) (b : Bool) (pre : List Byte) :
    pack { p with out := pre ++ p.out } b = { pack p b with out := pre ++ (pack p b).out } := by
  by_cases h : p.ecnt = 7#3
  · rw [pack_full h, pack_full (p := { p with out := pre ++ p.out }) h]; simp
  · rw [pack_notFull h, pack_notFull (p := { p with out := pre ++ p.out }) h]

theorem packAll_out (p : Packer) (c : List Bool) (pre : List Byte) :
    packAll { p with out := pre ++ p.out } c = { packAll p c with out := pre ++ (packAll p c).out } := by
  induction c generalizing p with
  | nil => rfl
  | cons b c ih =>
    simp only [packAll]
    rw [pack_out]
    exact ih (pack p b)

/-- The final byte of a clean packer is the pending bits, padded with zeros on the right (10_state.md R26). -/
theorem msbBits_of_clean {p : Packer} (hp : p.Clean) :
    msbBits p.eacc = pendingBits p.eacc p.ecnt ++ List.replicate (8 - p.ecnt.toNat) false := by
  have hlt := p.ecnt.isLt
  apply List.ext_getElem?
  intro j
  by_cases hj : j < 8
  · rw [msbBits_getElem? _ _ hj]
    by_cases hn : j < p.ecnt.toNat
    · rw [List.getElem?_append_left (by rw [pendingBits_length]; exact hn), pendingBits, List.getElem?_take_of_lt hn,
        msbBits_getElem? _ _ hj]
    · rw [List.getElem?_append_right (by rw [pendingBits_length]; omega), pendingBits_length, List.getElem?_replicate,
        if_pos (by omega), hp _ (by omega)]
  · rw [List.getElem?_eq_none (by simp; omega), List.getElem?_eq_none (by simp [pendingBits_length]; omega)]

/-- `packAll` is the fold of `pack`. -/
theorem packAll_eq_foldl (c : List Bool) (p : Packer) : packAll p c = c.foldl pack p := by
  induction c generalizing p with
  | nil => rfl
  | cons b c ih => exact ih _

end Sys2Proof.Machine
end

