-- ==== Sys2Proof/Laws/Stores.lean ====
section
/-! SUPPORT. Reading after writing, and that every store operation keeps the canonical form. -/

namespace Sys2Proof

variable {α : Type} [DecidableEq α] {d : α} {size : Nat}

omit [DecidableEq α] in
@[simp] theorem read_nil (d : α) (i : Nat) : Store.read d [] i = d := rfl

omit [DecidableEq α] in
theorem read_insert (m : Store α) (i : Nat) (v : α) (j : Nat) :
    Store.read d (Store.insert m i v) j = if i = j then v else Store.read d m j := by
  induction m with
  | nil => simp [Store.insert, Store.read]
  | cons e rest ih =>
    obtain ⟨k, w⟩ := e
    by_cases h1 : i < k
    · simp [Store.insert, h1, Store.read]
    · by_cases h2 : i = k
      · subst h2
        simp only [Store.insert, Nat.lt_irrefl, if_false, if_true, Store.read]
        by_cases h3 : i = j <;> simp [h3]
      · simp only [Store.insert, h1, h2, if_false, Store.read, ih]
        by_cases h3 : k = j
        · subst h3; simp [h2]
        · simp [h3]

theorem wfFrom_cons {lo j : Nat} {v : α} {rest : Store α} :
    Store.wfFrom d size lo ((j, v) :: rest) = true ↔
      lo ≤ j ∧ j < size ∧ v ≠ d ∧ Store.wfFrom d size (j + 1) rest = true := by
  simp [Store.wfFrom, and_assoc]

theorem wfFrom_mono {lo lo' : Nat} {m : Store α} (h : lo' ≤ lo) (hm : Store.wfFrom d size lo m = true) :
    Store.wfFrom d size lo' m = true := by
  cases m with
  | nil => rfl
  | cons e rest =>
    obtain ⟨j, v⟩ := e
    rw [wfFrom_cons] at hm ⊢
    exact ⟨by omega, hm.2⟩

/-- An index below the first listed one is not listed. -/
theorem read_below {lo i : Nat} {m : Store α} (hm : Store.wfFrom d size lo m = true) (h : i < lo) :
    Store.read d m i = d := by
  induction m generalizing lo with
  | nil => rfl
  | cons e rest ih =>
    obtain ⟨j, v⟩ := e
    rw [wfFrom_cons] at hm
    have : j ≠ i := by omega
    simp only [Store.read, this, if_false]
    exact ih hm.2.2.2 (by omega)

theorem read_erase {lo i j : Nat} {m : Store α} (hm : Store.wfFrom d size lo m = true) :
    Store.read d (Store.erase m i) j = if i = j then d else Store.read d m j := by
  induction m generalizing lo with
  | nil => simp [Store.erase, Store.read]
  | cons e rest ih =>
    obtain ⟨k, v⟩ := e
    rw [wfFrom_cons] at hm
    by_cases h1 : k = i
    · subst h1
      by_cases h2 : k = j
      · subst h2
        simp [Store.erase, read_below hm.2.2.2 (Nat.lt_succ_self k)]
      · simp [Store.erase, Store.read, h2]
    · simp only [Store.erase, h1, if_false, Store.read, ih hm.2.2.2]
      by_cases h2 : k = j
      · subst h2; simp [Ne.symm h1]
      · simp [h2]

/-- Read after write. -/
theorem read_write {m : Store α} (hm : Store.wf d size m = true) (i : Nat) (v : α) (j : Nat) :
    Store.read d (Store.write d m i v) j = if i = j then v else Store.read d m j := by
  unfold Store.write
  by_cases h : v = d
  · subst h; simp [read_erase hm]
  · simp [h, read_insert]

theorem wfFrom_erase {lo i : Nat} {m : Store α} (hm : Store.wfFrom d size lo m = true) :
    Store.wfFrom d size lo (Store.erase m i) = true := by
  induction m generalizing lo with
  | nil => rfl
  | cons e rest ih =>
    obtain ⟨k, v⟩ := e
    rw [wfFrom_cons] at hm
    by_cases h1 : k = i
    · simp only [Store.erase, h1, if_true]
      exact wfFrom_mono (by omega) hm.2.2.2
    · simp only [Store.erase, h1, if_false]
      rw [wfFrom_cons]
      exact ⟨hm.1, hm.2.1, hm.2.2.1, ih hm.2.2.2⟩

theorem wfFrom_insert {lo i : Nat} {v : α} {m : Store α} (hm : Store.wfFrom d size lo m = true) (hlo : lo ≤ i)
    (hi : i < size) (hv : v ≠ d) : Store.wfFrom d size lo (Store.insert m i v) = true := by
  induction m generalizing lo with
  | nil => simp [Store.insert, Store.wfFrom, hlo, hi, hv]
  | cons e rest ih =>
    obtain ⟨k, w⟩ := e
    rw [wfFrom_cons] at hm
    unfold Store.insert
    split
    · rw [wfFrom_cons, wfFrom_cons]
      exact ⟨hlo, hi, hv, by omega, hm.2⟩
    · split
      · rename_i h; subst h
        rw [wfFrom_cons]
        exact ⟨hlo, hi, hv, hm.2.2.2⟩
      · rw [wfFrom_cons]
        exact ⟨hm.1, hm.2.1, hm.2.2.1, ih hm.2.2.2 (by omega)⟩

/-- A write of an entry of the store keeps the canonical form. -/
theorem wf_write {m : Store α} (hm : Store.wf d size m = true) {i : Nat} (hi : i < size) (v : α) :
    Store.wf d size (Store.write d m i v) = true := by
  unfold Store.write
  split
  · exact wfFrom_erase hm
  · exact wfFrom_insert hm (Nat.zero_le _) hi ‹_›

@[simp] theorem wf_nil : Store.wf d size ([] : Store α) = true := rfl

/-- Two stores in canonical form with the same entries are the same list. -/
theorem wfFrom_ext {lo : Nat} {m m' : Store α} (hm : Store.wfFrom d size lo m = true)
    (hm' : Store.wfFrom d size lo m' = true) (h : ∀ i, Store.read d m i = Store.read d m' i) : m = m' := by
  induction m generalizing lo m' with
  | nil =>
    cases m' with
    | nil => rfl
    | cons e rest =>
      obtain ⟨k, w⟩ := e
      rw [wfFrom_cons] at hm'
      have := h k
      simp [Store.read] at this
      exact absurd this.symm hm'.2.2.1
  | cons e rest ih =>
    obtain ⟨j, v⟩ := e
    rw [wfFrom_cons] at hm
    cases m' with
    | nil =>
      have := h j
      simp [Store.read] at this
      exact absurd this hm.2.2.1
    | cons e' rest' =>
      obtain ⟨k, w⟩ := e'
      rw [wfFrom_cons] at hm'
      have hjk : j = k := by
        rcases Nat.lt_trichotomy j k with hlt | heq | hgt
        · have hlow : Store.read d ((k, w) :: rest') j = d :=
            read_below (size := size) (lo := k) (wfFrom_cons.mpr ⟨Nat.le_refl _, hm'.2⟩) hlt
          have := h j
          rw [hlow] at this
          simp [Store.read] at this
          exact absurd this hm.2.2.1
        · exact heq
        · have hlow : Store.read d ((j, v) :: rest) k = d :=
            read_below (size := size) (lo := j) (wfFrom_cons.mpr ⟨Nat.le_refl _, hm.2⟩) hgt
          have := h k
          rw [hlow] at this
          simp [Store.read] at this
          exact absurd this.symm hm'.2.2.1
      subst hjk
      have hvw : v = w := by simpa [Store.read] using h j
      subst hvw
      rw [ih hm.2.2.2 hm'.2.2.2]
      intro i
      by_cases hij : j = i
      · subst hij
        rw [read_below hm.2.2.2 (Nat.lt_succ_self _), read_below hm'.2.2.2 (Nat.lt_succ_self _)]
      · simpa [Store.read, hij] using h i

theorem store_ext {m m' : Store α} (hm : Store.wf d size m = true) (hm' : Store.wf d size m' = true)
    (h : ∀ i, Store.read d m i = Store.read d m' i) : m = m' := wfFrom_ext hm hm' h

omit [DecidableEq α] in
/-- Storing the same entry twice is storing it once. -/
theorem insert_insert (m : Store α) (i : Nat) (v : α) :
    Store.insert (Store.insert m i v) i v = Store.insert m i v := by
  induction m with
  | nil => simp [Store.insert]
  | cons e rest ih =>
    obtain ⟨k, w⟩ := e
    by_cases h1 : i < k
    · simp [Store.insert, h1]
    · by_cases h2 : i = k
      · subst h2; simp [Store.insert]
      · simp [Store.insert, h1, h2, ih]

omit [DecidableEq α] in
/-- An entry that is read and is not what an unlisted index reads as is listed. -/
theorem mem_of_read {m : Store α} {i : Nat} (h : Store.read d m i ≠ d) : (i, Store.read d m i) ∈ m := by
  induction m with
  | nil => simp at h
  | cons e rest ih =>
    obtain ⟨j, v⟩ := e
    by_cases hj : j = i
    · simp [Store.read, hj]
    · simp only [Store.read, hj, if_false] at h ⊢
      exact List.mem_cons_of_mem _ (ih h)

omit [DecidableEq α] in
theorem mem_insert {m : Store α} {i : Nat} {v : α} {e : Nat × α} (h : e ∈ Store.insert m i v) :
    e = (i, v) ∨ e ∈ m := by
  induction m with
  | nil => simpa [Store.insert] using h
  | cons f rest ih =>
    obtain ⟨k, w⟩ := f
    unfold Store.insert at h
    split at h
    · simpa using h
    · split at h
      · simp only [List.mem_cons] at h ⊢
        tauto
      · simp only [List.mem_cons] at h ⊢
        rcases h with h | h
        · tauto
        · rcases ih h with h | h <;> tauto

namespace Machine

theorem codesLegal_insert {ct : Store CTEntry} {i : Nat} {c : Code} (h : codesLegal ct = true)
    (hc : Code.legal c = true) : codesLegal (Store.insert ct i (some c)) = true := by
  unfold codesLegal at h ⊢
  rw [List.all_eq_true] at h ⊢
  intro e he
  rcases mem_insert he with he | he
  · subst he; exact hc
  · exact h e he

theorem codeTableWf_iff (ct : Store CTEntry) :
    codeTableWf ct = true ↔ Store.wf none nsym ct = true ∧ codesLegal ct = true := by
  simp [codeTableWf]

/-- Every code that a code table gives is 1 to 255 bits long. -/
theorem legal_of_read {ct : Store CTEntry} (h : codeTableWf ct = true) {i : Nat} {c : Code}
    (hc : Store.read none ct i = some c) : Code.legal c = true := by
  have hm : (i, Store.read none ct i) ∈ ct := mem_of_read (by rw [hc]; simp)
  rw [codeTableWf_iff] at h
  have := List.all_eq_true.mp h.2 _ hm
  simpa [hc] using this

/-- `LDC` keeps the code table's form. -/
theorem codeTableWf_write {ct : Store CTEntry} (h : codeTableWf ct = true) (sym : Symbol) {c : Code}
    (hc : Code.legal c = true) : codeTableWf (Store.write none ct sym.toNat (some c)) = true := by
  rw [codeTableWf_iff] at h ⊢
  refine ⟨wf_write h.1 (by have := sym.isLt; simpa using this) _, ?_⟩
  simpa [Store.write] using codesLegal_insert h.2 hc

/-- `LDL` and `LDI` keep the tree store's form. -/
theorem treeStoreWf_write {ts : Store Node} (h : treeStoreWf ts = true) (i : Index) (n : Node) :
    treeStoreWf (Store.write .invalid ts i.toNat n) = true :=
  wf_write h (by have := i.isLt; simpa using this) n

theorem memory_wf_iff (s : State) : Memory.wf s = true ↔ codeTableWf s.ct = true ∧ treeStoreWf s.ts = true := by
  simp [Memory.wf]

theorem reset_memory_wf : Memory.wf State.reset = true := by decide

theorem writeCT_memory_wf {s : State} (h : Memory.wf s = true) (sym : Symbol) {c : Code}
    (hc : Code.legal c = true) : Memory.wf (s.writeCT sym (some c)) = true := by
  rw [memory_wf_iff] at h ⊢
  exact ⟨codeTableWf_write h.1 sym hc, h.2⟩

theorem clearCT_memory_wf {s : State} (h : Memory.wf s = true) : Memory.wf s.clearCT = true := by
  rw [memory_wf_iff] at h ⊢
  exact ⟨rfl, h.2⟩

theorem writeTS_memory_wf {s : State} (h : Memory.wf s = true) (i : Index) (n : Node) :
    Memory.wf (s.writeTS i n) = true := by
  rw [memory_wf_iff] at h ⊢
  exact ⟨h.1, treeStoreWf_write h.2 i n⟩

theorem clearTS_memory_wf {s : State} (h : Memory.wf s = true) : Memory.wf s.clearTS = true := by
  rw [memory_wf_iff] at h ⊢
  exact ⟨h.1, rfl⟩

theorem toNat_inj_symbol {a b : Symbol} : a.toNat = b.toNat ↔ a = b := ⟨BitVec.eq_of_toNat_eq, fun h => by rw [h]⟩

theorem toNat_inj_index {a b : Index} : a.toNat = b.toNat ↔ a = b := ⟨BitVec.eq_of_toNat_eq, fun h => by rw [h]⟩

theorem readCT_writeCT {s : State} (h : Memory.wf s = true) (sym sym' : Symbol) (e : CTEntry) :
    (s.writeCT sym e).readCT sym' = if sym = sym' then e else s.readCT sym' := by
  rw [memory_wf_iff, codeTableWf_iff] at h
  simp only [State.readCT, State.writeCT, read_write h.1.1, toNat_inj_symbol]

theorem readTS_writeTS {s : State} (h : Memory.wf s = true) (i j : Index) (n : Node) :
    (s.writeTS i n).readTS j = if i = j then n else s.readTS j := by
  rw [memory_wf_iff] at h
  simp only [State.readTS, readNode, State.writeTS, read_write h.2, toNat_inj_index]

@[simp] theorem readCT_clearCT (s : State) (sym : Symbol) : s.clearCT.readCT sym = none := rfl

@[simp] theorem readTS_clearTS (s : State) (i : Index) : s.clearTS.readTS i = .invalid := rfl

end Machine

end Sys2Proof
end

