-- ==== Sys2Proof/Laws/Walker.lean ====
section
/-! SUPPORT. What the walker does (42_decoder_ops.md R142, R143): walks compose, earlier output stays first, and the
walk along the code of a symbol emits that symbol and ends at the root. -/

namespace Sys2Proof.Machine

theorem walkBits_append (ts : Store Node) (w : Walker) (as bs : List Bool) :
    walkBits ts w (as ++ bs) = (walkBits ts w as).bind fun w' => walkBits ts w' bs := by
  induction as generalizing w with
  | nil => rfl
  | cons a as ih =>
    simp only [List.cons_append, walkBits]
    cases walk1 ts w a with
    | none => rfl
    | some w' => exact ih w'

/-- The symbols emitted before stay first. -/
theorem walk1_out (ts : Store Node) (d : Index) (pre out : List Byte) (b : Bool) :
    walk1 ts { dcur := d, out := pre ++ out } b =
      (walk1 ts { dcur := d, out := out } b).map fun w => { w with out := pre ++ w.out } := by
  unfold walk1
  simp only
  cases readNode ts d with
  | invalid => rfl
  | leaf sym => cases b <;> simp
  | internal c0 c1 => cases h : readNode ts (childOf b c0 c1) <;> simp [h]

theorem walkBits_out (ts : Store Node) (d : Index) (pre out : List Byte) (bs : List Bool) :
    walkBits ts { dcur := d, out := pre ++ out } bs =
      (walkBits ts { dcur := d, out := out } bs).map fun w => { w with out := pre ++ w.out } := by
  induction bs generalizing d out with
  | nil => rfl
  | cons b bs ih =>
    simp only [walkBits, walk1_out ts d pre out b]
    cases walk1 ts { dcur := d, out := out } b with
    | none => rfl
    | some w => exact ih w.dcur w.out

/-- Each bit emits at most one symbol (42_decoder_ops.md R143). -/
theorem walk1_length {ts : Store Node} {w w' : Walker} {b : Bool} (h : walk1 ts w b = some w') :
    w'.out.length ≤ w.out.length + 1 := by
  unfold walk1 at h
  split at h
  · cases h
  · split at h
    · cases h
    · cases h; simp
  · split at h
    · cases h
    · cases h; simp
    · cases h; simp

theorem walkBits_length {ts : Store Node} {w w' : Walker} {bs : List Bool} (h : walkBits ts w bs = some w') :
    w'.out.length ≤ w.out.length + bs.length := by
  induction bs generalizing w with
  | nil => cases h; simp
  | cons b bs ih =>
    simp only [walkBits] at h
    cases h1 : walk1 ts w b with
    | none => rw [h1] at h; cases h
    | some v =>
      rw [h1] at h
      have := ih h
      have := walk1_length h1
      simp only [List.length_cons]
      omega

/-- After a step the walk is at the root or on an internal node (10_state.md R29). -/
theorem walk1_dcur {ts : Store Node} {w w' : Walker} {b : Bool} (h : walk1 ts w b = some w') :
    w'.dcur = root ∨ w'.dcur = w.dcur ∨ ∃ c0 c1, readNode ts w'.dcur = .internal c0 c1 := by
  unfold walk1 at h
  split at h
  · cases h
  · split at h
    · cases h
    · cases h; exact .inr (.inl rfl)
  · split at h
    · cases h
    · cases h; exact .inl rfl
    · rename_i hn; cases h; exact .inr (.inr ⟨_, _, hn⟩)

theorem walkBits_dcur {ts : Store Node} {w w' : Walker} {bs : List Bool} (h : walkBits ts w bs = some w')
    (hw : w.dcur = root ∨ ∃ c0 c1, readNode ts w.dcur = .internal c0 c1) :
    w'.dcur = root ∨ ∃ c0 c1, readNode ts w'.dcur = .internal c0 c1 := by
  induction bs generalizing w with
  | nil => cases h; exact hw
  | cons b bs ih =>
    simp only [walkBits] at h
    cases h1 : walk1 ts w b with
    | none => rw [h1] at h; cases h
    | some v =>
      rw [h1] at h
      apply ih h
      rcases walk1_dcur h1 with h2 | h2 | h2
      · exact .inl h2
      · rw [h2]; exact hw
      · exact .inr h2

theorem walk1_internal {ts : Store Node} {i c0 c1 : Index} {out : List Byte} {b : Bool}
    (h : readNode ts i = .internal c0 c1) :
    walk1 ts { dcur := i, out := out } b =
      match readNode ts (childOf b c0 c1) with
      | .invalid => none
      | .leaf sym => some { dcur := root, out := out ++ [sym] }
      | .internal _ _ => some { dcur := childOf b c0 c1, out := out } := by
  unfold walk1
  simp only [h]
  all_goals rfl

/-- The walk along a path from a node down to a leaf emits the leaf's symbol and returns to the root. -/
theorem walkBits_path {ts : Store Node} {i j : Index} {sym : Symbol} {b : Bool} {path : List Bool} (out : List Byte)
    (h : follow ts i (b :: path) = some j) (hj : readNode ts j = .leaf sym) :
    walkBits ts { dcur := i, out := out } (b :: path) = some { dcur := root, out := out ++ [sym] } := by
  induction path generalizing i b with
  | nil =>
    unfold follow at h
    split at h
    · rename_i c0 c1 hi
      cases h
      simp only [walkBits, walk1_internal hi, hj]
    · cases h
    · cases h
  | cons b' path ih =>
    unfold follow at h
    split at h
    · rename_i c0 c1 hi
      have hchild : ∃ d0 d1, readNode ts (childOf b c0 c1) = .internal d0 d1 := by
        unfold follow at h
        split at h
        · exact ⟨_, _, ‹_›⟩
        · cases h
        · cases h
      obtain ⟨d0, d1, hd⟩ := hchild
      rw [walkBits, walk1_internal hi, hd]
      exact ih h
    · cases h
    · cases h

/-- The walk along `code_TS(sym)` from the root emits `sym` and ends at the root (10_state.md R40). -/
theorem walkBits_code {ts : Store Node} {sym : Symbol} {c : Code} (out : List Byte) (h : IsCodeOf ts sym c) :
    walkBits ts { dcur := root, out := out } c = some { dcur := root, out := out ++ [sym] } := by
  unfold IsCodeOf at h
  split at h
  · rename_i hr
    subst h
    simp [walkBits, walk1, hr]
  · rename_i hr
    obtain ⟨i, hf, hi⟩ := h
    cases c with
    | nil => cases hf; exact absurd hi hr
    | cons b path => exact walkBits_path out hf hi

/-- The walk along the codes of symbols, one after the other, emits the symbols. -/
theorem walkBits_codes {ts : Store Node} (pairs : List (Symbol × Code)) (out : List Byte)
    (h : ∀ e ∈ pairs, IsCodeOf ts e.1 e.2) :
    walkBits ts { dcur := root, out := out } (pairs.map Prod.snd).flatten =
      some { dcur := root, out := out ++ pairs.map Prod.fst } := by
  induction pairs generalizing out with
  | nil => simp [walkBits]
  | cons e rest ih =>
    simp only [List.map_cons, List.flatten_cons, walkBits_append, walkBits_code out (h e (by simp)), Option.bind_some]
    rw [ih _ (fun e' he' => h e' (by simp [he']))]
    simp

theorem follow_append (ts : Store Node) (i : Index) (p q : List Bool) :
    follow ts i (p ++ q) = (follow ts i p).bind fun j => follow ts j q := by
  induction p generalizing i with
  | nil => rfl
  | cons b p ih =>
    simp only [List.cons_append, follow]
    cases readNode ts i with
    | invalid => rfl
    | leaf sym => rfl
    | internal c0 c1 => exact ih _

/-- One more child choice. -/
theorem follow_snoc {ts : Store Node} {i j c0 c1 : Index} {p : List Bool} (b : Bool) (h : follow ts i p = some j)
    (hj : readNode ts j = .internal c0 c1) : follow ts i (p ++ [b]) = some (childOf b c0 c1) := by
  rw [follow_append, h, Option.bind_some]
  simp [follow, hj]

/-- What a walk that stands on no leaf, at the end of a path from the root has read: codes of the symbols it
emits, then a path from the root to where it stands. -/
theorem walkBits_reads {ts : Store Node} (hroot : ∀ sym, readNode ts root ≠ .leaf sym) {w w' : Walker}
    (hw : ∀ sym, readNode ts w.dcur ≠ .leaf sym) {path bits : List Bool} (hp : follow ts root path = some w.dcur)
    (h : walkBits ts w bits = some w') :
    ∃ (pairs : List (Symbol × Code)) (path' : List Bool), w'.out = w.out ++ pairs.map Prod.fst ∧
      path ++ bits = (pairs.map Prod.snd).flatten ++ path' ∧ (∀ e ∈ pairs, IsCodeOf ts e.1 e.2) ∧
      follow ts root path' = some w'.dcur := by
  induction bits generalizing w path with
  | nil => cases h; exact ⟨[], path, by simp, by simp, by simp, hp⟩
  | cons b bits ih =>
    simp only [walkBits] at h
    cases h1 : walk1 ts w b with
    | none => rw [h1] at h; cases h
    | some v =>
      rw [h1] at h
      simp only at h
      unfold walk1 at h1
      split at h1
      · cases h1
      · rename_i sym hn
        exact absurd hn (hw sym)
      · rename_i c0 c1 hn
        have hs := follow_snoc b hp hn
        split at h1
        · cases h1
        · rename_i sym hm
          cases h1
          obtain ⟨pairs, path', ho, hb, hc, hf⟩ := ih (w := { dcur := root, out := w.out ++ [sym] }) (hw := hroot) (path := []) rfl h
          refine ⟨(sym, path ++ [b]) :: pairs, path', by simp [ho], ?_, ?_, hf⟩
          · simp only [List.nil_append] at hb
            simp [hb]
          · intro e he
            rcases List.mem_cons.mp he with he | he
            · subst he
              simp only [IsCodeOf, hroot sym, if_false]
              exact ⟨_, hs, hm⟩
            · exact hc e he
        · cases h1
          obtain ⟨pairs, path', ho, hb, hc, hf⟩ := ih (fun sym => by rename_i hm; simp [hm]) hs h
          exact ⟨pairs, path', ho, by rw [← hb]; simp, hc, hf⟩

/-- In a well-formed image with an internal root only the empty path leads from the root to the root. -/
theorem path_to_root {ts : Store Node} (h : WellFormedImage ts) {path : List Bool} (hp : follow ts root path = some root) :
    path = [] := h.onePath path [] root hp rfl

/-- A walk of a well-formed image from root to root has read the codes of the symbols it emits, in order
(42_decoder_ops.md R146, R149). -/
theorem walkBits_root_iff {ts : Store Node} (h : WellFormedImage ts) (bits : List Bool) (syms : List Symbol) :
    walkBits ts { dcur := root, out := [] } bits = some { dcur := root, out := syms } ↔
      ∃ pairs : List (Symbol × Code), pairs.map Prod.fst = syms ∧ (pairs.map Prod.snd).flatten = bits ∧
        ∀ e ∈ pairs, IsCodeOf ts e.1 e.2 := by
  constructor
  · intro hw
    by_cases hr : ∃ sym, readNode ts root = .leaf sym
    · obtain ⟨sym, hr⟩ := hr
      have key : ∀ (bits : List Bool) (out : List Byte) (w : Walker),
          walkBits ts { dcur := root, out := out } bits = some w →
          bits = List.replicate bits.length false ∧ w.out = out ++ List.replicate bits.length sym := by
        intro bits
        induction bits with
        | nil => intro out w hw; cases hw; simp
        | cons b bits ih =>
          intro out w hw
          simp only [walkBits, walk1, hr] at hw
          cases b
          · simp only [Bool.false_eq_true, if_false] at hw
            obtain ⟨h1, h2⟩ := ih _ _ hw
            refine ⟨by rw [List.length_cons, List.replicate_succ, ← h1], ?_⟩
            rw [h2, List.length_cons, List.replicate_succ]
            simp
          · simp at hw
      obtain ⟨h1, h2⟩ := key bits [] _ hw
      refine ⟨List.replicate bits.length (sym, singleCode), by simpa using h2.symm, ?_, ?_⟩
      · rw [List.map_replicate, List.flatten_replicate_singleton]
        exact h1.symm
      · intro e he
        obtain ⟨_, rfl⟩ := List.mem_replicate.mp he
        simp [IsCodeOf, hr]
    · have hroot : ∀ sym, readNode ts root ≠ .leaf sym := fun sym hs => hr ⟨sym, hs⟩
      obtain ⟨pairs, path', ho, hb, hc, hf⟩ :=
        walkBits_reads hroot (w := { dcur := root, out := [] }) hroot (path := []) rfl hw
      have := path_to_root h hf
      subst this
      exact ⟨pairs, by simpa using ho.symm, by simpa using hb.symm, hc⟩
  · rintro ⟨pairs, rfl, rfl, hc⟩
    simpa using walkBits_codes pairs [] hc

/-- `walkBits` is the fold of `walk1`, stopped at the first bit that raises. -/
theorem walkBits_foldlM (ts : Store Node) (w : Walker) (bits : List Bool) :
    walkBits ts w bits = bits.foldlM (fun v b => walk1 ts v b) w := by
  induction bits generalizing w with
  | nil => rfl
  | cons b bits ih =>
    simp only [walkBits, List.foldlM_cons]
    cases h : walk1 ts w b with
    | none => rfl
    | some v => simp [ih]

/-- The first bits of a byte, bit 7 first. -/
theorem msbBits_take (held : Byte) (k : Nat) (hk : k ≤ 8) :
    (msbBits held).take k = (List.range k).map fun j => held.getLsbD (7 - j) := by
  apply List.ext_getElem?
  intro j
  by_cases hj : j < k
  · rw [List.getElem?_take_of_lt hj, msbBits_getElem? _ _ (by omega)]
    simp [hj]
  · rw [List.getElem?_eq_none (by simp; omega), List.getElem?_eq_none (by simp; omega)]

/-- `consume` walks `B[7]`, `B[6]` and so on (42_decoder_ops.md R143). -/
theorem consume_eq (ts : Store Node) (w : Walker) (held : Byte) (k : Nat) (hk : k ≤ 8) :
    consume ts w held k = (List.range k).foldlM (fun v j => walk1 ts v (held.getLsbD (7 - j))) w := by
  rw [consume, walkBits_foldlM, msbBits_take _ _ hk, List.foldlM_map]

/-- `consume` emits at most one symbol per bit (42_decoder_ops.md R143). -/
theorem consume_length {ts : Store Node} {w v : Walker} {held : Byte} {k : Nat} (h : consume ts w held k = some v) :
    v.out.length ≤ w.out.length + k := by
  have := walkBits_length h
  simp at this
  omega

end Sys2Proof.Machine
end

