-- ==== Sys2Proof/Laws/Effects.lean ====
section
/-! SUPPORT. What the body of each command changes, keeps and emits. -/

namespace Sys2Proof.Machine

theorem phase_run {p : Phase} (h : p = .run) : p ≠ .idle := by simp [h]

theorem phase_idle {p : Phase} (h : p = .idle) : p ≠ .run := by simp [h]

/-- The walk of the held byte. -/
theorem consumeHeld_held {s : State} (h : s.dhv = true) (k : Nat) (hk : k ≤ 8) :
    consumeHeld s k = (List.range k).foldlM (fun v j => walk1 s.ts v (s.dhold.getLsbD (7 - j))) { dcur := s.dcur, out := [] } := by
  simp [consumeHeld, h, consume_eq _ _ _ _ hk]

/-- No byte is held: nothing is walked. -/
theorem consumeHeld_none {s : State} (h : s.dhv = false) (k : Nat) :
    consumeHeld s k = some { dcur := s.dcur, out := [] } := by
  simp [consumeHeld, h]

/-- Where the walk of the held byte stands (10_state.md R29). -/
theorem consumeHeld_dcur {s : State} {k : Nat} {w : Walker} (h : consumeHeld s k = some w)
    (hw : s.dcur = root ∨ ∃ c0 c1, readNode s.ts s.dcur = .internal c0 c1) :
    w.dcur = root ∨ ∃ c0 c1, readNode s.ts w.dcur = .internal c0 c1 := by
  unfold consumeHeld at h
  split at h
  · exact walkBits_dcur h hw
  · cases h; exact hw

/-- `EFL` emits one byte or two (41_encoder_ops.md R124). -/
theorem flushBytes_length (s : State) : (flushBytes s).length ≤ 2 := by
  unfold flushBytes; split <;> simp

theorem lastResponse_complete (p : List Byte) (s : State) : (complete p s).lastResponse = some { status := .ok, payload := p } := by
  simp [State.lastResponse]

theorem lastResponse_raiseFault (c : Cause) (s : State) : (raiseFault c s).lastResponse = some { status := .fault c, payload := [] } := by
  simp [State.lastResponse]

/-- What no command's body writes: the fault flag, the configuration and the port. -/
theorem bodyOf_frame {i : Instr} {s t : State} {p : List Byte} (h : bodyOf i s = .done t p) :
    t.flt = s.flt ∧ t.cfg = s.cfg ∧ t.inbox = s.inbox ∧ t.outbox = s.outbox := by
  cases i <;> simp only [bodyOf] at h
  case rst => cases h; exact ⟨rfl, rfl, rfl, rfl⟩
  case stat => cases h; exact ⟨rfl, rfl, rfl, rfl⟩
  case clrc => obtain ⟨_, h⟩ := needLoadable_done h; obtain ⟨_, h⟩ := needPhase_done h; cases h; exact ⟨rfl, rfl, rfl, rfl⟩
  case clrt => obtain ⟨_, h⟩ := needLoadable_done h; obtain ⟨_, h⟩ := needPhase_done h; cases h; exact ⟨rfl, rfl, rfl, rfl⟩
  case ldl => obtain ⟨_, h⟩ := needLoadable_done h; obtain ⟨_, h⟩ := needPhase_done h; cases h; exact ⟨rfl, rfl, rfl, rfl⟩
  case ldi => obtain ⟨_, h⟩ := needLoadable_done h; obtain ⟨_, h⟩ := needPhase_done h; cases h; exact ⟨rfl, rfl, rfl, rfl⟩
  case ldc =>
    obtain ⟨_, h⟩ := needLoadable_done h; obtain ⟨_, h⟩ := needLegalCode_done h
    obtain ⟨_, h⟩ := needPhase_done h; cases h; exact ⟨rfl, rfl, rfl, rfl⟩
  case est => obtain ⟨_, h⟩ := needPhase_done h; cases h; exact ⟨rfl, rfl, rfl, rfl⟩
  case efl => obtain ⟨_, h⟩ := needPhase_done h; cases h; exact ⟨rfl, rfl, rfl, rfl⟩
  case dst => obtain ⟨_, h⟩ := needPhase_done h; cases h; exact ⟨rfl, rfl, rfl, rfl⟩
  case esym =>
    obtain ⟨_, h⟩ := needPhase_done h
    rw [encodeSymbol] at h; split at h <;> cases h; exact ⟨rfl, rfl, rfl, rfl⟩
  case dbyte =>
    obtain ⟨_, h⟩ := needPhase_done h
    rw [takeByte] at h; split at h <;> cases h; exact ⟨rfl, rfl, rfl, rfl⟩
  case dend =>
    obtain ⟨_, h⟩ := needPhase_done h
    rw [endStream] at h
    repeat' split at h
    all_goals cases h
    exact ⟨rfl, rfl, rfl, rfl⟩

/-- When a command writes a store (10_state.md R27). -/
theorem body_stores {i : Instr} {s t : State} {p : List Byte} (h : bodyOf i s = .done t p) :
    (t.ct = s.ct ∨ (s.cfg.storeMode = .loadable ∧ s.eph = .idle)) ∧
    (t.ts = s.ts ∨ (s.cfg.storeMode = .loadable ∧ s.dph = .idle)) := by
  cases i <;> simp only [bodyOf] at h
  case rst => cases h; simp
  case stat => cases h; simp
  case clrc => obtain ⟨a, h⟩ := needLoadable_done h; obtain ⟨b, h⟩ := needPhase_done h; cases h; exact ⟨.inr ⟨a, b⟩, .inl rfl⟩
  case clrt => obtain ⟨a, h⟩ := needLoadable_done h; obtain ⟨b, h⟩ := needPhase_done h; cases h; exact ⟨.inl rfl, .inr ⟨a, b⟩⟩
  case ldl => obtain ⟨a, h⟩ := needLoadable_done h; obtain ⟨b, h⟩ := needPhase_done h; cases h; exact ⟨.inl rfl, .inr ⟨a, b⟩⟩
  case ldi => obtain ⟨a, h⟩ := needLoadable_done h; obtain ⟨b, h⟩ := needPhase_done h; cases h; exact ⟨.inl rfl, .inr ⟨a, b⟩⟩
  case ldc =>
    obtain ⟨a, h⟩ := needLoadable_done h; obtain ⟨_, h⟩ := needLegalCode_done h
    obtain ⟨b, h⟩ := needPhase_done h; cases h; exact ⟨.inr ⟨a, b⟩, .inl rfl⟩
  case est => obtain ⟨_, h⟩ := needPhase_done h; cases h; simp
  case efl => obtain ⟨_, h⟩ := needPhase_done h; cases h; simp
  case dst => obtain ⟨_, h⟩ := needPhase_done h; cases h; simp
  case esym =>
    obtain ⟨_, h⟩ := needPhase_done h
    rw [encodeSymbol] at h; split at h <;> cases h; simp
  case dbyte =>
    obtain ⟨_, h⟩ := needPhase_done h
    rw [takeByte] at h; split at h <;> cases h; simp
  case dend =>
    obtain ⟨_, h⟩ := needPhase_done h
    rw [endStream] at h
    repeat' split at h
    all_goals cases h
    simp

/-- Every body keeps the unused bits of `EACC` zero (10_state.md R26). -/
theorem body_packer {i : Instr} {s t : State} {p : List Byte} (h : bodyOf i s = .done t p)
    (hc : ∀ i, i + s.ecnt.toNat < 8 → s.eacc.getLsbD i = false) :
    ∀ i, i + t.ecnt.toNat < 8 → t.eacc.getLsbD i = false := by
  cases i <;> simp only [bodyOf] at h
  case rst => cases h; exact hc
  case stat => cases h; exact hc
  case clrc => obtain ⟨_, h⟩ := needLoadable_done h; obtain ⟨_, h⟩ := needPhase_done h; cases h; exact hc
  case clrt => obtain ⟨_, h⟩ := needLoadable_done h; obtain ⟨_, h⟩ := needPhase_done h; cases h; exact hc
  case ldl => obtain ⟨_, h⟩ := needLoadable_done h; obtain ⟨_, h⟩ := needPhase_done h; cases h; exact hc
  case ldi => obtain ⟨_, h⟩ := needLoadable_done h; obtain ⟨_, h⟩ := needPhase_done h; cases h; exact hc
  case ldc =>
    obtain ⟨_, h⟩ := needLoadable_done h; obtain ⟨_, h⟩ := needLegalCode_done h
    obtain ⟨_, h⟩ := needPhase_done h; cases h; exact hc
  case est => obtain ⟨_, h⟩ := needPhase_done h; cases h; simp
  case efl => obtain ⟨_, h⟩ := needPhase_done h; cases h; simp
  case dst => obtain ⟨_, h⟩ := needPhase_done h; cases h; exact hc
  case esym =>
    obtain ⟨_, h⟩ := needPhase_done h
    rw [encodeSymbol] at h; split at h <;> cases h
    exact packAll_clean (p := { eacc := s.eacc, ecnt := s.ecnt, out := [] }) hc _
  case dbyte =>
    obtain ⟨_, h⟩ := needPhase_done h
    rw [takeByte] at h; split at h <;> cases h; exact hc
  case dend =>
    obtain ⟨_, h⟩ := needPhase_done h
    rw [endStream] at h
    repeat' split at h
    all_goals cases h
    exact hc

/-- Every body keeps the walk at the root or on an internal node (10_state.md R29). -/
theorem body_walker {i : Instr} {s t : State} {p : List Byte} (h : bodyOf i s = .done t p)
    (hc : s.dcur ≠ root → s.dph = .run ∧ ∃ c0 c1, s.readTS s.dcur = .internal c0 c1) :
    t.dcur ≠ root → t.dph = .run ∧ ∃ c0 c1, t.readTS t.dcur = .internal c0 c1 := by
  have hidle : s.dph = .idle → s.dcur = root := fun h => by
    by_contra h'
    rw [(hc h').1] at h; cases h
  cases i <;> simp only [bodyOf] at h
  case rst => cases h; exact hc
  case stat => cases h; exact hc
  case clrc => obtain ⟨_, h⟩ := needLoadable_done h; obtain ⟨_, h⟩ := needPhase_done h; cases h; exact hc
  case clrt => obtain ⟨_, h⟩ := needLoadable_done h; obtain ⟨b, h⟩ := needPhase_done h; cases h; intro h'; exact absurd (hidle b) h'
  case ldl => obtain ⟨_, h⟩ := needLoadable_done h; obtain ⟨b, h⟩ := needPhase_done h; cases h; intro h'; exact absurd (hidle b) h'
  case ldi => obtain ⟨_, h⟩ := needLoadable_done h; obtain ⟨b, h⟩ := needPhase_done h; cases h; intro h'; exact absurd (hidle b) h'
  case ldc =>
    obtain ⟨_, h⟩ := needLoadable_done h; obtain ⟨_, h⟩ := needLegalCode_done h
    obtain ⟨_, h⟩ := needPhase_done h; cases h; exact hc
  case est => obtain ⟨_, h⟩ := needPhase_done h; cases h; exact hc
  case efl => obtain ⟨_, h⟩ := needPhase_done h; cases h; exact hc
  case dst => obtain ⟨_, h⟩ := needPhase_done h; cases h; simp
  case esym =>
    obtain ⟨_, h⟩ := needPhase_done h
    rw [encodeSymbol] at h; split at h <;> cases h
    exact hc
  case dbyte =>
    obtain ⟨hp, h⟩ := needPhase_done h
    rw [takeByte] at h; split at h <;> cases h
    rename_i w hw
    intro h'
    refine ⟨hp, (consumeHeld_dcur hw ?_).resolve_left h'⟩
    by_cases h0 : s.dcur = root
    · exact .inl h0
    · exact .inr (hc h0).2
  case dend =>
    obtain ⟨_, h⟩ := needPhase_done h
    rw [endStream] at h
    repeat' split at h
    all_goals cases h
    rename_i h'
    intro h''
    exact absurd h'' h'

/-- Every body keeps the canonical form of the stores. -/
theorem body_memory {i : Instr} {s t : State} {p : List Byte} (h : bodyOf i s = .done t p)
    (hm : Memory.wf s = true) : Memory.wf t = true := by
  cases i <;> simp only [bodyOf] at h
  case rst => cases h; exact hm
  case stat => cases h; exact hm
  case clrc => obtain ⟨a, h⟩ := needLoadable_done h; obtain ⟨b, h⟩ := needPhase_done h; cases h; exact clearCT_memory_wf hm
  case clrt => obtain ⟨a, h⟩ := needLoadable_done h; obtain ⟨b, h⟩ := needPhase_done h; cases h; exact clearTS_memory_wf hm
  case ldl => obtain ⟨a, h⟩ := needLoadable_done h; obtain ⟨b, h⟩ := needPhase_done h; cases h; exact writeTS_memory_wf hm _ _
  case ldi => obtain ⟨a, h⟩ := needLoadable_done h; obtain ⟨b, h⟩ := needPhase_done h; cases h; exact writeTS_memory_wf hm _ _
  case ldc =>
    obtain ⟨a, h⟩ := needLoadable_done h; obtain ⟨hc, h⟩ := needLegalCode_done h
    obtain ⟨b, h⟩ := needPhase_done h; cases h; exact writeCT_memory_wf hm _ hc
  case est => obtain ⟨_, h⟩ := needPhase_done h; cases h; exact hm
  case efl => obtain ⟨_, h⟩ := needPhase_done h; cases h; exact hm
  case dst => obtain ⟨_, h⟩ := needPhase_done h; cases h; exact hm
  case esym =>
    obtain ⟨_, h⟩ := needPhase_done h
    rw [encodeSymbol] at h; split at h <;> cases h; exact hm
  case dbyte =>
    obtain ⟨_, h⟩ := needPhase_done h
    rw [takeByte] at h; split at h <;> cases h; exact hm
  case dend =>
    obtain ⟨_, h⟩ := needPhase_done h
    rw [endStream] at h
    repeat' split at h
    all_goals cases h
    exact hm

/-- Every body keeps the packer empty and no byte held outside a session. -/
theorem body_idle {i : Instr} {s t : State} {p : List Byte} (h : bodyOf i s = .done t p)
    (h1 : s.eph = .idle → s.eacc = 0#8 ∧ s.ecnt = 0#3) (h2 : s.dhv = false → s.dhold = 0#8)
    (h3 : s.dph = .idle → s.dhv = false) :
    (t.eph = .idle → t.eacc = 0#8 ∧ t.ecnt = 0#3) ∧ (t.dhv = false → t.dhold = 0#8) ∧ (t.dph = .idle → t.dhv = false) := by
  cases i <;> simp only [bodyOf] at h
  case rst => cases h; exact ⟨h1, h2, h3⟩
  case stat => cases h; exact ⟨h1, h2, h3⟩
  case clrc => obtain ⟨a, h⟩ := needLoadable_done h; obtain ⟨b, h⟩ := needPhase_done h; cases h; exact ⟨h1, h2, h3⟩
  case clrt => obtain ⟨a, h⟩ := needLoadable_done h; obtain ⟨b, h⟩ := needPhase_done h; cases h; exact ⟨h1, h2, h3⟩
  case ldl => obtain ⟨a, h⟩ := needLoadable_done h; obtain ⟨b, h⟩ := needPhase_done h; cases h; exact ⟨h1, h2, h3⟩
  case ldi => obtain ⟨a, h⟩ := needLoadable_done h; obtain ⟨b, h⟩ := needPhase_done h; cases h; exact ⟨h1, h2, h3⟩
  case ldc =>
    obtain ⟨a, h⟩ := needLoadable_done h; obtain ⟨hc, h⟩ := needLegalCode_done h
    obtain ⟨b, h⟩ := needPhase_done h; cases h; exact ⟨h1, h2, h3⟩
  case est => obtain ⟨_, h⟩ := needPhase_done h; cases h; exact ⟨(by simp), h2, h3⟩
  case efl => obtain ⟨_, h⟩ := needPhase_done h; cases h; exact ⟨(by simp), h2, h3⟩
  case dst => obtain ⟨_, h⟩ := needPhase_done h; cases h; exact ⟨h1, by simp, by simp⟩
  case esym =>
    obtain ⟨hp, h⟩ := needPhase_done h
    rw [encodeSymbol] at h; split at h <;> cases h; exact ⟨fun h => by simp [hp] at h, h2, h3⟩
  case dbyte =>
    obtain ⟨hp, h⟩ := needPhase_done h
    rw [takeByte] at h; split at h <;> cases h; exact ⟨h1, by simp, by simp [hp]⟩
  case dend =>
    obtain ⟨_, h⟩ := needPhase_done h
    rw [endStream] at h
    repeat' split at h
    all_goals cases h
    exact ⟨h1, by simp, by simp⟩

/-- How many bytes each command can emit (41_encoder_ops.md R126). -/
theorem body_payload {i : Instr} {s t : State} {p : List Byte} (hw : codeTableWf s.ct = true) (h : bodyOf i s = .done t p) :
    p.length ≤ 32 ∧ (i = .efl → p.length ≤ 2) ∧ (∀ b, i = .dbyte b ∨ i = .dend b → p.length ≤ 8) := by
  cases i <;> simp only [bodyOf] at h
  case rst => cases h; simp
  case stat => cases h; simp
  case clrc => obtain ⟨_, h⟩ := needLoadable_done h; obtain ⟨_, h⟩ := needPhase_done h; cases h; simp
  case clrt => obtain ⟨_, h⟩ := needLoadable_done h; obtain ⟨_, h⟩ := needPhase_done h; cases h; simp
  case ldl => obtain ⟨_, h⟩ := needLoadable_done h; obtain ⟨_, h⟩ := needPhase_done h; cases h; simp
  case ldi => obtain ⟨_, h⟩ := needLoadable_done h; obtain ⟨_, h⟩ := needPhase_done h; cases h; simp
  case ldc =>
    obtain ⟨_, h⟩ := needLoadable_done h; obtain ⟨_, h⟩ := needLegalCode_done h
    obtain ⟨_, h⟩ := needPhase_done h; cases h; simp
  case est => obtain ⟨_, h⟩ := needPhase_done h; cases h; simp
  case efl =>
    obtain ⟨_, h⟩ := needPhase_done h; cases h
    have := flushBytes_length s
    exact ⟨by omega, fun _ => this, fun b h => by simp at h⟩
  case dst => obtain ⟨_, h⟩ := needPhase_done h; cases h; simp
  case esym sym =>
    obtain ⟨_, h⟩ := needPhase_done h
    rw [encodeSymbol] at h; split at h <;> cases h
    rename_i c hc
    have hl := legal_of_read hw hc
    rw [legal_iff] at hl
    have h1 := (packAll_counts { eacc := s.eacc, ecnt := s.ecnt, out := [] } c).1
    have h2 := s.ecnt.isLt
    simp only [List.length_nil, Nat.zero_add] at h1
    refine ⟨by omega, by simp, by simp⟩
  case dbyte =>
    obtain ⟨_, h⟩ := needPhase_done h
    rw [takeByte] at h; split at h <;> cases h
    rename_i w hw'
    unfold consumeHeld at hw'
    split at hw'
    · have := consume_length hw'
      simp at this
      exact ⟨by omega, by simp, fun _ _ => this⟩
    · cases hw'; simp
  case dend =>
    obtain ⟨_, h⟩ := needPhase_done h
    rw [endStream] at h
    repeat' split at h
    all_goals cases h
    rename_i w hw' _
    unfold consumeHeld at hw'
    split at hw'
    · have := consume_length hw'
      simp at this
      exact ⟨by omega, by simp, fun _ _ => by omega⟩
    · cases hw'; simp

/-- What a command that is not the encoder's leaves of the encoder. -/
theorem body_encoder {i : Instr} {s t : State} {p : List Byte} (h : bodyOf i s = .done t p)
    (h1 : i ≠ .est) (h2 : ∀ sym, i ≠ .esym sym) (h3 : i ≠ .efl) :
    t.eph = s.eph ∧ t.eacc = s.eacc ∧ t.ecnt = s.ecnt ∧ (s.eph = .run → t.ct = s.ct) := by
  cases i <;> simp only [bodyOf] at h
  case rst => cases h; simp
  case stat => cases h; simp
  case clrc => obtain ⟨a, h⟩ := needLoadable_done h; obtain ⟨b, h⟩ := needPhase_done h; cases h; simp [b]
  case clrt => obtain ⟨a, h⟩ := needLoadable_done h; obtain ⟨b, h⟩ := needPhase_done h; cases h; simp
  case ldl => obtain ⟨a, h⟩ := needLoadable_done h; obtain ⟨b, h⟩ := needPhase_done h; cases h; simp
  case ldi => obtain ⟨a, h⟩ := needLoadable_done h; obtain ⟨b, h⟩ := needPhase_done h; cases h; simp
  case ldc =>
    obtain ⟨a, h⟩ := needLoadable_done h; obtain ⟨hc, h⟩ := needLegalCode_done h
    obtain ⟨b, h⟩ := needPhase_done h; cases h; simp [b]
  case est => exact absurd rfl h1
  case efl => exact absurd rfl h3
  case dst => obtain ⟨_, h⟩ := needPhase_done h; cases h; simp
  case esym sym => exact absurd rfl (h2 sym)
  case dbyte =>
    obtain ⟨hp, h⟩ := needPhase_done h
    rw [takeByte] at h; split at h <;> cases h; simp
  case dend =>
    obtain ⟨_, h⟩ := needPhase_done h
    rw [endStream] at h
    repeat' split at h
    all_goals cases h
    simp

/-- What a command that is not the decoder's leaves of the decoder. -/
theorem body_decoder {i : Instr} {s t : State} {p : List Byte} (h : bodyOf i s = .done t p)
    (h1 : i ≠ .dst) (h2 : ∀ b, i ≠ .dbyte b) (h3 : ∀ b, i ≠ .dend b) :
    t.dph = s.dph ∧ t.dcur = s.dcur ∧ t.dhold = s.dhold ∧ t.dhv = s.dhv ∧ (s.dph = .run → t.ts = s.ts) := by
  cases i <;> simp only [bodyOf] at h
  case rst => cases h; simp
  case stat => cases h; simp
  case clrc => obtain ⟨a, h⟩ := needLoadable_done h; obtain ⟨b, h⟩ := needPhase_done h; cases h; simp
  case clrt => obtain ⟨a, h⟩ := needLoadable_done h; obtain ⟨b, h⟩ := needPhase_done h; cases h; simp [b]
  case ldl => obtain ⟨a, h⟩ := needLoadable_done h; obtain ⟨b, h⟩ := needPhase_done h; cases h; simp [b]
  case ldi => obtain ⟨a, h⟩ := needLoadable_done h; obtain ⟨b, h⟩ := needPhase_done h; cases h; simp [b]
  case ldc =>
    obtain ⟨a, h⟩ := needLoadable_done h; obtain ⟨hc, h⟩ := needLegalCode_done h
    obtain ⟨b, h⟩ := needPhase_done h; cases h; simp
  case est => obtain ⟨_, h⟩ := needPhase_done h; cases h; simp
  case efl => obtain ⟨_, h⟩ := needPhase_done h; cases h; simp
  case dst => exact absurd rfl h1
  case esym sym =>
    obtain ⟨_, h⟩ := needPhase_done h
    rw [encodeSymbol] at h; split at h <;> cases h; simp
  case dbyte => exact absurd rfl (h2 _)
  case dend => exact absurd rfl (h3 _)

theorem configWf_iff (c : Config) : configWf c = true ↔ codeTableWf c.romCt = true ∧ treeStoreWf c.romTs = true := by
  simp [configWf]

/-- The effect with another list of transactions waiting. -/
def Effect.withInbox (r : List (List Byte)) : Effect → Effect
  | .raise c => .raise c
  | .done s p => .done { s with inbox := r } p

/-- A command's body does not look at the transactions waiting (20_memory.md R62). -/
theorem bodyOf_inbox (i : Instr) (s : State) (r : List (List Byte)) :
    bodyOf i { s with inbox := r } = (bodyOf i s).withInbox r := by
  cases i <;> simp only [bodyOf, needLoadable, needPhase, needLegalCode, encodeSymbol, takeByte, endStream, consumeHeld, State.readCT]
  all_goals repeat' split
  all_goals rfl

theorem perform_inbox (body : State → Effect) (s : State) (r : List (List Byte))
    (h : body { s with inbox := r } = (body s).withInbox r) :
    perform body { s with inbox := r } = { perform body s with inbox := r } := by
  rcases perform_cases body s with ⟨c, hf, hp⟩ | ⟨c, hf, hb, hp⟩ | ⟨t, p, hf, hb, hp⟩
  · rw [hp, perform_faulted (s := { s with inbox := r }) hf]; rfl
  · rw [hp, perform_raise (s := { s with inbox := r }) hf (h.trans (by rw [hb]; rfl))]; rfl
  · rw [hp, perform_done (s := { s with inbox := r }) hf (h.trans (by rw [hb]; rfl))]; rfl

/-- A command does not look at the transactions waiting (20_memory.md R62). -/
theorem exec_inbox {i : Instr} {s t : State} (r : List (List Byte)) (h : exec i s = .next t) :
    exec i { s with inbox := r } = .next { t with inbox := r } := by
  by_cases h1 : i = .rst
  · subst h1; cases h; rfl
  · by_cases h2 : i = .stat
    · subst h2; cases h; rfl
    · rw [exec_eq_perform h1 h2] at h ⊢
      injection h with h
      rw [perform_inbox _ _ _ (bodyOf_inbox i s r), h]

theorem exec_keeps_inbox {i : Instr} {s t : State} (h : exec i s = .next t) : t.inbox = s.inbox ∧ t.cfg = s.cfg := by
  rcases exec_cases h with ⟨rfl, rfl⟩ | ⟨rfl, rfl⟩ | ⟨h1, h2, ⟨c', h, rfl⟩ | ⟨c', h, hb, rfl⟩ | ⟨u, p, h, hb, rfl⟩⟩
  · exact ⟨rfl, rfl⟩
  · exact ⟨rfl, rfl⟩
  · exact ⟨rfl, rfl⟩
  · exact ⟨rfl, rfl⟩
  · exact ⟨(bodyOf_frame hb).2.2.1, (bodyOf_frame hb).2.1⟩

end Sys2Proof.Machine
end

