-- ==== Sys2Proof/Laws/Flags.lean ====
section
/-! SUPPORT. The bits of the `STATUS` word (10_state.md R36). -/

namespace Sys2Proof.Machine

theorem statusWord_getLsbD (s : State) (i : Nat) :
    (statusWord s).getLsbD i =
      if i < 3 then s.ecnt.getLsbD i
      else if i < 4 then false
      else if i < 5 then (romfBit s.cfg.storeMode).getLsbD (i - 4)
      else if i < 6 then (BitVec.ofBool s.dhv).getLsbD (i - 5)
      else if i < 7 then (phaseBit s.dph).getLsbD (i - 6)
      else if i < 8 then (phaseBit s.eph).getLsbD (i - 7)
      else if i < 12 then (fltBits s.flt).getLsbD (i - 8)
      else false := by
  unfold statusWord
  simp only [BitVec.getLsbD_append, BitVec.getLsbD_zero]
  repeat' split
  all_goals first | rfl | (exfalso; omega)

theorem phaseBit_getLsbD (p : Phase) : (phaseBit p).getLsbD 0 = decide (p = .run) := by cases p <;> rfl

theorem romfBit_getLsbD (m : StoreMode) : (romfBit m).getLsbD 0 = decide (m = .rom) := by cases m <;> rfl

/-- The two bytes of a 16-bit value, put together again. -/
theorem append_bytes16 (v : BitVec 16) : (v.extractLsb' 8 8 ++ v.extractLsb' 0 8 : BitVec 16) = v := by
  apply BitVec.eq_of_getLsbD_eq
  intro i hi
  rw [BitVec.getLsbD_append]
  by_cases h : i < 8
  · simp [h]
  · simp [h, show i - 8 < 8 by omega]
    rw [show 8 + (i - 8) = i by omega]

end Sys2Proof.Machine
end

