-- ==== Sys2Proof/Laws/Illegal.lean ====
section
/-! SUPPORT. The bits of byte sequences by their number, and illegal transactions. -/

namespace Sys2Proof.Machine

/-- Bit `k` of a byte sequence, in the list of its bits (20_memory.md R54). -/
theorem bitOf_unpack (bs : List Byte) (k : Nat) (hk : k < 8 * bs.length) :
    (unpackBits bs)[k]? = some (bitOfBytes bs k) := by
  induction bs generalizing k with
  | nil => simp at hk
  | cons b bs ih =>
    rw [unpackBits_cons]
    by_cases h : k < 8
    · rw [List.getElem?_append_left (by simpa using h), msbBits_getElem? _ _ h]
      simp [bitOfBytes, show k / 8 = 0 by omega, show k % 8 = k by omega]
    · rw [List.getElem?_append_right (by simp; omega), msbBits_length, ih _ (by simp at hk; omega)]
      simp only [bitOfBytes]
      rw [show k / 8 = (k - 8) / 8 + 1 by omega, show k % 8 = (k - 8) % 8 by omega]
      simp

/-- When an unused bit of the last code byte is set (30_encoding.md R78). -/
theorem unused_any_iff (len : Byte) (bytes : List Byte) :
    (codeUnusedBits len bytes).any id = true ↔
      ∃ k, len.toNat ≤ k ∧ k < 8 * bytes.length ∧ bitOfBytes bytes k = true := by
  rw [List.any_eq_true]
  constructor
  · rintro ⟨b, hb, hbt⟩
    obtain ⟨i, hi⟩ := List.mem_iff_getElem?.mp hb
    simp only [codeUnusedBits, List.getElem?_drop] at hi
    have hlt : len.toNat + i < 8 * bytes.length := by
      have := (List.getElem?_eq_some_iff.mp hi).1
      simpa using this
    refine ⟨len.toNat + i, by omega, hlt, ?_⟩
    rw [bitOf_unpack _ _ hlt] at hi
    injection hi with hi
    rw [hi]; exact hbt
  · rintro ⟨k, h1, h2, h3⟩
    refine ⟨true, ?_, rfl⟩
    apply List.mem_iff_getElem?.mpr
    refine ⟨k - len.toNat, ?_⟩
    simp only [codeUnusedBits, List.getElem?_drop]
    rw [show len.toNat + (k - len.toNat) = k by omega, bitOf_unpack _ _ h2, h3]

/-- The bits of the packed form, one by one (20_memory.md R54). -/
theorem packBits_bit (l : List Bool) (k : Nat) (hk : k < 8 * (packBits l).length) :
    bitOfBytes (packBits l) k = if k < l.length then l.getD k false else false := by
  have h := bitOf_unpack (packBits l) k hk
  rw [unpackBits_packBits] at h
  by_cases hl : k < l.length
  · rw [List.getElem?_append_left hl] at h
    simp [hl] at h ⊢
    exact h.symm
  · rw [List.getElem?_append_right (by omega), List.getElem?_replicate] at h
    split at h
    · simp [hl]; simpa using h
    · cases h

/-- An illegal transaction while not faulted (60_exceptions.md R215). -/
theorem step_illegal_fault {s : State} {t rest w} (hf : s.flt = none) (h : s.inbox = t :: rest)
    (hd : decode s.cfg.storeMode t = .illegal w) :
    step s = .next (State.afterFault { s with inbox := rest } .commandError) := by
  rw [step_illegal h hd]
  congr 1
  exact perform_raise hf rfl

end Sys2Proof.Machine
end

