-- ==== Sys2Proof/Laws/PerInstr.lean ====
section
/-! SUPPORT. What holds for all commands, made per command. -/

namespace Sys2Proof.Laws

/-- A command with legal fields that exists in a block of mode `m` is what its encoding decodes to. -/
def RoundTrip.Statement (i : Instr) : Prop :=
  ∀ m : StoreMode, i.wf = true → i.existsIn m = true → decode m (encode i) = .command i

theorem RoundTrip.rst : RoundTrip.Statement .rst := fun m _ _ => by cases m <;> rfl
theorem RoundTrip.stat : RoundTrip.Statement .stat := fun m _ _ => by cases m <;> rfl
theorem RoundTrip.clrc : RoundTrip.Statement .clrc := fun m _ h => by cases m; · rfl
                                                                      · cases h
theorem RoundTrip.ldc (sym : Symbol) (c : Code) : RoundTrip.Statement (.ldc sym c) := fun m hw h => by
  cases m
  · exact (decode_opcode .loadable .ldc _ (fun h => by cases h)).trans (decodeC_encode _ sym hw)
  · cases h
theorem RoundTrip.clrt : RoundTrip.Statement .clrt := fun m _ h => by cases m; · rfl
                                                                      · cases h
theorem RoundTrip.ldl (idx : Index) (sym : Symbol) : RoundTrip.Statement (.ldl idx sym) := fun m _ h => by
  cases m
  · exact (decode_opcode .loadable .ldl _ (fun h => by cases h)).trans (decodeL_encode _ idx sym)
  · cases h
theorem RoundTrip.ldi (idx c0 c1 : Index) : RoundTrip.Statement (.ldi idx c0 c1) := fun m _ h => by
  cases m
  · exact (decode_opcode .loadable .ldi _ (fun h => by cases h)).trans (decodeI_encode _ idx c0 c1)
  · cases h
theorem RoundTrip.est : RoundTrip.Statement .est := fun m _ _ => by cases m <;> rfl
theorem RoundTrip.esym (sym : Symbol) : RoundTrip.Statement (.esym sym) := fun m _ _ => by cases m <;> rfl
theorem RoundTrip.efl : RoundTrip.Statement .efl := fun m _ _ => by cases m <;> rfl
theorem RoundTrip.dst : RoundTrip.Statement .dst := fun m _ _ => by cases m <;> rfl
theorem RoundTrip.dbyte (b : Byte) : RoundTrip.Statement (.dbyte b) := fun m _ _ => by cases m <;> rfl
theorem RoundTrip.dend (pad : Byte) : RoundTrip.Statement (.dend pad) := fun m _ _ => by cases m <;> rfl

end Sys2Proof.Laws
end

