-- ==== Sys2Proof/Laws/Sessions.lean ====
section
/-! SUPPORT. Runs of the block on several transactions: what the responses of a session say (41_encoder_ops.md R125,
42_decoder_ops.md R146), and sessions that complete. -/

namespace Sys2Proof.Machine

open Sys2Proof.Laws

theorem run_zero (s : State) : runSteps 0 s = .next s := rfl

theorem run_succ {s u : State} (k : Nat) (h : step s = .next u) : runSteps (k + 1) s = runSteps k u := by
  simp only [runSteps, Host.Core.run]
  rw [show Sys2Proof.core.step s = step s from rfl, h]

/-- A step takes one transaction and gives one response (30_encoding.md R70). -/
theorem step_responds {s u : State} {x : List Byte} {rest : List (List Byte)} (hi : s.inbox = x :: rest)
    (h : step s = .next u) : u.inbox = rest ∧ ∃ r, u.outbox = s.outbox ++ [r] := by
  rcases step_cases h with ⟨h, _⟩ | ⟨y, rest1, i, hi1, hd, he⟩ | ⟨y, rest1, w, hi1, hd, he⟩
  · rw [hi] at h; cases h
  · rw [hi] at hi1; cases hi1
    refine ⟨(exec_keeps_inbox he).1, ?_⟩
    rcases exec_cases he with ⟨rfl, rfl⟩ | ⟨rfl, rfl⟩ | ⟨h1, h2, ⟨c', h, rfl⟩ | ⟨c', h, hb, rfl⟩ | ⟨u, p, h, hb, rfl⟩⟩
    · exact ⟨_, rfl⟩
    · exact ⟨_, rfl⟩
    · exact ⟨_, rfl⟩
    · exact ⟨_, rfl⟩
    · exact ⟨_, by rw [complete_outbox, (bodyOf_frame hb).2.2.2]⟩
  · rw [hi] at hi1; cases hi1
    rcases performIllegal_cases { s with inbox := rest } with ⟨c', h, h'⟩ | ⟨h, h'⟩ <;> rw [he, h'] <;> exact ⟨rfl, _, rfl⟩

/-- Responses given stay given. -/
theorem run_outbox {k : Nat} {s t : State} (h : runSteps k s = .next t) : ∃ rs, t.outbox = s.outbox ++ rs := by
  induction k generalizing s with
  | zero => cases h; exact ⟨[], by simp⟩
  | succ k ih =>
    obtain ⟨u, hu⟩ := step_next s
    rw [run_succ k hu] at h
    obtain ⟨rs, hr⟩ := ih h
    cases hi : s.inbox with
    | nil => rw [step_idle hi] at hu; cases hu; exact ⟨rs, hr⟩
    | cons x rest =>
      obtain ⟨_, r, ho⟩ := step_responds hi hu
      exact ⟨r :: rs, by rw [hr, ho]; simp⟩

/-- The first step of a run, and the rest. -/
theorem run_peel {k : Nat} {s t : State} {x : List Byte} {rest : List (List Byte)} {rs : List Response}
    (hi : s.inbox = x :: rest) (h : runSteps (k + 1) s = .next t) (ho : t.outbox = s.outbox ++ rs) :
    ∃ u r rs', step s = .next u ∧ u.inbox = rest ∧ u.outbox = s.outbox ++ [r] ∧ runSteps k u = .next t ∧
      t.outbox = u.outbox ++ rs' ∧ rs = r :: rs' := by
  obtain ⟨u, hu⟩ := step_next s
  rw [run_succ k hu] at h
  obtain ⟨hin, r, hr⟩ := step_responds hi hu
  obtain ⟨rs', hrs⟩ := run_outbox h
  refine ⟨u, r, rs', hu, hin, hr, h, hrs, ?_⟩
  rw [hrs, hr, List.append_assoc] at ho
  simpa using (List.append_cancel_left ho).symm

/-- A command's encoding decodes to it or is illegal in the mode. -/
theorem decode_encode_or {m : StoreMode} {i : Instr} (h : i.wf = true) :
    decode m (encode i) = .command i ∨ ∃ w, decode m (encode i) = .illegal w := by
  by_cases hx : i.existsIn m = true
  · left
    cases i with
    | rst => exact RoundTrip.rst m h hx
    | stat => exact RoundTrip.stat m h hx
    | clrc => exact RoundTrip.clrc m h hx
    | ldc sym c => exact RoundTrip.ldc sym c m h hx
    | clrt => exact RoundTrip.clrt m h hx
    | ldl idx sym => exact RoundTrip.ldl idx sym m h hx
    | ldi idx c0 c1 => exact RoundTrip.ldi idx c0 c1 m h hx
    | est => exact RoundTrip.est m h hx
    | esym sym => exact RoundTrip.esym sym m h hx
    | efl => exact RoundTrip.efl m h hx
    | dst => exact RoundTrip.dst m h hx
    | dbyte b => exact RoundTrip.dbyte b m h hx
    | dend p => exact RoundTrip.dend p m h hx
  · right
    cases m with
    | loadable => exact absurd rfl hx
    | rom => cases i <;> first | exact absurd rfl hx | exact ⟨_, rfl⟩

/-- A command that writes no store exists in both modes. -/
theorem decode_encode_unit {m : StoreMode} {i : Instr} (hw : i.wf = true) (h : i.writesStore = false) :
    decode m (encode i) = .command i := by
  rcases decode_encode_or (m := m) hw with h' | ⟨w, h'⟩
  · exact h'
  · cases i <;> first | (cases h; done) | (cases m <;> cases h')

/-- What a step did whose response is `OK`. -/
theorem step_ok {s u : State} {i : Instr} {rest : List (List Byte)} {r : Response} (hw : i.wf = true)
    (hi : s.inbox = encode i :: rest) (h : step s = .next u) (ho : u.outbox = s.outbox ++ [r]) (hr : r.status = .ok) :
    (i = .rst ∧ u = complete [] (restart { s with inbox := rest })) ∨
    (i = .stat ∧ u = complete (bytes16 (statusWord { s with inbox := rest })) { s with inbox := rest }) ∨
    (i ≠ .rst ∧ i ≠ .stat ∧ s.flt = none ∧ ∃ v p, bodyOf i { s with inbox := rest } = .done v p ∧ u = complete p v ∧
      r = { status := .ok, payload := p }) := by
  rcases decode_encode_or (m := s.cfg.storeMode) hw with hd | ⟨w, hd⟩
  · rw [step_command hi hd] at h
    rcases exec_cases h with ⟨rfl, rfl⟩ | ⟨rfl, rfl⟩ | ⟨h1, h2, ⟨c', hf, rfl⟩ | ⟨c', hf, hb, rfl⟩ | ⟨v, p, hf, hb, rfl⟩⟩
    · exact .inl ⟨rfl, rfl⟩
    · exact .inr (.inl ⟨rfl, rfl⟩)
    · simp at ho; subst ho; cases hr
    · simp at ho; subst ho; cases hr
    · refine .inr (.inr ⟨h1, h2, hf, v, p, hb, rfl, ?_⟩)
      rw [complete_outbox, (bodyOf_frame hb).2.2.2] at ho
      simpa using ho.symm
  · rw [step_illegal hi hd] at h
    injection h with h
    subst h
    rcases performIllegal_cases { s with inbox := rest } with ⟨c', h, h'⟩ | ⟨h, h'⟩ <;> rw [h'] at ho <;>
      (simp at ho; subst ho; cases hr)

/-- A step whose command completes. -/
theorem step_done {s v : State} {i : Instr} {rest : List (List Byte)} {p : List Byte} (h1 : i ≠ .rst) (h2 : i ≠ .stat)
    (hi : s.inbox = encode i :: rest) (hd : decode s.cfg.storeMode (encode i) = .command i) (hf : s.flt = none)
    (hb : bodyOf i { s with inbox := rest } = .done v p) : step s = .next (complete p v) := by
  rw [step_command hi hd, exec_eq_perform h1 h2, perform_done (s := { s with inbox := rest }) hf hb]

/-- A completed command before a run. -/
theorem run_cons_ok {k : Nat} {s v t : State} {i : Instr} {rest : List (List Byte)} {p : List Byte} {rs : List Response}
    (h1 : i ≠ .rst) (h2 : i ≠ .stat)
    (hi : s.inbox = encode i :: rest) (hd : decode s.cfg.storeMode (encode i) = .command i) (hf : s.flt = none)
    (hb : bodyOf i { s with inbox := rest } = .done v p)
    (hrun : runSteps k (complete p v) = .next t) (ho : t.outbox = (complete p v).outbox ++ rs) (hok : AllOk rs) :
    runSteps (k + 1) s = .next t ∧ t.outbox = s.outbox ++ ({ status := .ok, payload := p } :: rs) ∧
      AllOk ({ status := .ok, payload := p } :: rs) := by
  refine ⟨by rw [run_succ k (step_done h1 h2 hi hd hf hb)]; exact hrun, ?_, ?_⟩
  · rw [ho, complete_outbox, (bodyOf_frame hb).2.2.2]; simp
  · intro r hr
    rcases List.mem_cons.mp hr with rfl | hr
    · rfl
    · exact hok r hr

theorem esymOperand_none {i : Instr} (h : ∀ sym, i ≠ .esym sym) : esymOperand i = none := by
  cases i <;> first | rfl | exact absurd rfl (h _)

theorem dbyteOperand_none {i : Instr} (h : ∀ b, i ≠ .dbyte b) : dbyteOperand i = none := by
  cases i <;> first | rfl | exact absurd rfl (h _)

theorem payloadsTo_cons (pick : Instr → Bool) (i : Instr) (cmds : List Instr) (r : Response) (rs : List Response) :
    payloadsTo pick (i :: cmds) (r :: rs) =
      if pick i = true then r.payload :: payloadsTo pick cmds rs else payloadsTo pick cmds rs := by
  unfold payloadsTo
  by_cases h : pick i = true <;> simp [h]

/-- The packed form from the payloads of a session (41_encoder_ops.md R125). -/
theorem packedForm_snoc (init : List (List Byte)) (count : Byte) (last : List Byte) :
    Software.packedForm (init ++ [count :: last]) = (init.flatten ++ last, count.toNat) := by
  simp [Software.packedForm]

/-- With no encoder session open, a run that ends in `EFL` does not return `OK` throughout. -/
theorem no_flush {mid : List Instr} {s t : State} {more : List (List Byte)} {rs : List Response}
    (hi : s.inbox = (mid ++ [Instr.efl]).map encode ++ more) (hm : ∀ i ∈ mid, i.wf = true ∧ i ≠ .est)
    (hrun : runSteps (mid.length + 1) s = .next t) (ho : t.outbox = s.outbox ++ rs) (hok : AllOk rs)
    (he : s.eph = .idle) : False := by
  induction mid generalizing s rs with
  | nil =>
    obtain ⟨u, r, rs', hu, hin, hr, hrun, ho2, rfl⟩ := run_peel hi hrun ho
    clear ho; have ho := ho2; clear ho2
    rcases step_ok rfl hi hu hr (hok r (by simp)) with ⟨h, _⟩ | ⟨h, _⟩ | ⟨_, _, hf, v, p, hb, rfl, rfl⟩
    · cases h
    · cases h
    · simp only [bodyOf] at hb
      obtain ⟨h, _⟩ := needPhase_done hb
      rw [he] at h; cases h
  | cons i mid ih =>
    obtain ⟨u, r, rs', hu, hin, hr, hrun, ho2, rfl⟩ := run_peel hi hrun ho
    clear ho; have ho := ho2; clear ho2
    have hok' : AllOk rs' := fun r hr => hok r (by simp [hr])
    apply ih (s := u) hin (fun j hj => hm j (by simp [hj])) hrun ho hok'
    rcases step_ok (hm i (by simp)).1 hi hu hr (hok r (by simp)) with ⟨_, rfl⟩ | ⟨_, rfl⟩ | ⟨_, _, hf, v, p, hb, rfl, rfl⟩
    · rfl
    · exact he
    · by_cases h1 : ∃ sym, i = .esym sym
      · obtain ⟨sym, rfl⟩ := h1
        simp only [bodyOf] at hb
        obtain ⟨h, _⟩ := needPhase_done hb
        rw [show State.eph _ = s.eph from rfl, he] at h; cases h
      · by_cases h2 : i = .efl
        · subst h2
          simp only [bodyOf] at hb
          obtain ⟨h, _⟩ := needPhase_done hb
          rw [show State.eph _ = s.eph from rfl, he] at h; cases h
        · have := (body_encoder hb (hm i (by simp)).2 (fun sym h => h1 ⟨sym, h⟩) h2).1
          simpa [he] using this

/-- The commands whose payloads are the packed form. -/
abbrev pickEncoder (i : Instr) : Bool := (esymOperand i).isSome || decide (i = .efl)

/-- The rest of an encoder session, from any packer state. -/
theorem encoder_tail {mid : List Instr} {s t : State} {more : List (List Byte)} {rs : List Response}
    (hi : s.inbox = (mid ++ [Instr.efl]).map encode ++ more) (hm : ∀ i ∈ mid, i.wf = true ∧ i ≠ .est ∧ i ≠ .efl)
    (hrun : runSteps (mid.length + 1) s = .next t) (ho : t.outbox = s.outbox ++ rs) (hok : AllOk rs)
    (he : s.eph = .run) (hc : ∀ i, i + s.ecnt.toNat < 8 → s.eacc.getLsbD i = false) :
    ∃ (codes : List Code) (init : List (List Byte)) (count : Byte) (last : List Byte), (mid.filterMap esymOperand).map s.readCT = codes.map some ∧
      payloadsTo pickEncoder (mid ++ [.efl]) rs = init ++ [count :: last] ∧ count.toNat < 8 ∧
      unpackBits (init.flatten ++ last) = pendingBits s.eacc s.ecnt ++ codes.flatten ++ List.replicate count.toNat false := by
  induction mid generalizing s rs with
  | nil =>
    obtain ⟨u, r, rs', hu, hin, hr, hrun, ho2, rfl⟩ := run_peel hi hrun ho
    clear ho; have ho := ho2; clear ho2
    rcases step_ok rfl hi hu hr (hok r (by simp)) with ⟨h, _⟩ | ⟨h, _⟩ | ⟨_, _, hf, v, p, hb, rfl, rfl⟩
    · cases h
    · cases h
    · simp only [bodyOf] at hb
      obtain ⟨_, hb⟩ := needPhase_done hb
      cases hb
      have hlt := s.ecnt.isLt
      simp only [List.nil_append, payloadsTo_cons]
      unfold flushBytes
      by_cases h0 : s.ecnt = 0#3
      · refine ⟨[], [], 0#8, [], rfl, by simp [h0, payloadsTo, pickEncoder], by decide, ?_⟩
        simp [pendingBits, h0]
      · refine ⟨[], [], 8#8 - s.ecnt.setWidth 8, [s.eacc], rfl, by simp [h0, payloadsTo, pickEncoder], ?_, ?_⟩
        · have : 0 < s.ecnt.toNat := by
            rcases Nat.eq_zero_or_pos s.ecnt.toNat with h | h
            · exact absurd (BitVec.eq_of_toNat_eq h) h0
            · exact h
          simp only [BitVec.toNat_sub, BitVec.toNat_setWidth, BitVec.toNat_ofNat]
          omega
        · have h8 : (8#8 - s.ecnt.setWidth 8).toNat = 8 - s.ecnt.toNat := by
            have : 0 < s.ecnt.toNat := by
              rcases Nat.eq_zero_or_pos s.ecnt.toNat with h | h
              · exact absurd (BitVec.eq_of_toNat_eq h) h0
              · exact h
            simp only [BitVec.toNat_sub, BitVec.toNat_setWidth, BitVec.toNat_ofNat]
            omega
          rw [h8]
          have := msbBits_of_clean (p := { eacc := s.eacc, ecnt := s.ecnt, out := [] }) hc
          simpa using this
  | cons i mid ih =>
    obtain ⟨u, r, rs', hu, hin, hr, hrun, ho2, rfl⟩ := run_peel hi hrun ho
    clear ho; have ho := ho2; clear ho2
    have hok' : AllOk rs' := fun r hr => hok r (by simp [hr])
    have hm' : ∀ i ∈ mid, i.wf = true ∧ i ≠ .est ∧ i ≠ .efl := fun j hj => hm j (by simp [hj])
    obtain ⟨hw, hne, hnf⟩ := hm i (by simp)
    rcases step_ok hw hi hu hr (hok r (by simp)) with ⟨rfl, rfl⟩ | ⟨rfl, rfl⟩ | ⟨_, _, hf, v, p, hb, rfl, rfl⟩
    · exact (no_flush hin (fun j hj => ⟨(hm' j hj).1, (hm' j hj).2.1⟩) hrun ho hok' rfl).elim
    · obtain ⟨codes, init, count, last, h1, h2, h3, h4⟩ := ih hin hm' hrun ho hok' he hc
      refine ⟨codes, init, count, last, h1, ?_, h3, h4⟩
      rw [List.cons_append, payloadsTo_cons, if_neg (by decide)]; exact h2
    · by_cases h1 : ∃ sym, i = .esym sym
      · obtain ⟨sym, rfl⟩ := h1
        simp only [bodyOf] at hb
        obtain ⟨h, hb⟩ := needPhase_done hb
        rw [encodeSymbol] at hb; split at hb <;> cases hb
        rename_i _ c hcc
        have hcl : Packer.Clean { eacc := s.eacc, ecnt := s.ecnt, out := [] } := hc
        have hst := packAll_stream { eacc := s.eacc, ecnt := s.ecnt, out := [] } c
        obtain ⟨codes, init, count, last, h1, h2, h3, h4⟩ := ih hin hm' hrun ho hok' h (packAll_clean hcl c)
        refine ⟨c :: codes, (packAll { eacc := s.eacc, ecnt := s.ecnt, out := [] } c).out :: init, count, last, ?_, ?_, h3, ?_⟩
        · simp only [List.filterMap_cons, esymOperand, List.map_cons]
          rw [show s.readCT sym = some c from hcc]
          congr 1
        · rw [List.cons_append, payloadsTo_cons, if_pos (by simp [pickEncoder, esymOperand]), h2]; rfl
        · simp only [List.flatten_cons, List.append_assoc, unpackBits_append] at h4 ⊢
          rw [h4]
          simp only [complete_eacc, complete_ecnt]
          rw [← List.append_assoc]
          simp only [Packer.stream, unpackBits_nil, List.nil_append] at hst
          rw [hst]
          simp
      · have h1' : ∀ sym, i ≠ .esym sym := fun sym h => h1 ⟨sym, h⟩
        obtain ⟨b1, b2, b3, b4⟩ := body_encoder hb hne h1' hnf
        have b4 := b4 he
        obtain ⟨codes, init, count, last, h1, h2, h3, h4⟩ := ih hin hm' hrun ho hok' (by simpa [he] using b1)
          (by simpa [b2, b3] using hc)
        refine ⟨codes, init, count, last, ?_, ?_, h3, ?_⟩
        · rw [List.filterMap_cons, esymOperand_none h1']
          rw [← h1]
          apply List.map_congr_left
          intro sym _
          simp [State.readCT, b4]
        · rw [List.cons_append, payloadsTo_cons, if_neg (by simp [pickEncoder, esymOperand_none h1', hnf])]; exact h2
        · simpa [b2, b3] using h4

/-- With no decoder session open, a run that ends in `DEND` does not return `OK` throughout. -/
theorem no_end {mid : List Instr} {s t : State} {pad : Byte} {more : List (List Byte)} {rs : List Response}
    (hi : s.inbox = (mid ++ [Instr.dend pad]).map encode ++ more) (hm : ∀ i ∈ mid, i.wf = true ∧ i ≠ .dst)
    (hrun : runSteps (mid.length + 1) s = .next t) (ho : t.outbox = s.outbox ++ rs) (hok : AllOk rs)
    (he : s.dph = .idle) : False := by
  induction mid generalizing s rs with
  | nil =>
    obtain ⟨u, r, rs', hu, hin, hr, hrun, ho2, rfl⟩ := run_peel hi hrun ho
    clear ho; have ho := ho2; clear ho2
    rcases step_ok rfl hi hu hr (hok r (by simp)) with ⟨h, _⟩ | ⟨h, _⟩ | ⟨_, _, hf, v, p, hb, rfl, rfl⟩
    · cases h
    · cases h
    · simp only [bodyOf] at hb
      obtain ⟨h, _⟩ := needPhase_done hb
      rw [he] at h; cases h
  | cons i mid ih =>
    obtain ⟨u, r, rs', hu, hin, hr, hrun, ho2, rfl⟩ := run_peel hi hrun ho
    clear ho; have ho := ho2; clear ho2
    have hok' : AllOk rs' := fun r hr => hok r (by simp [hr])
    apply ih (s := u) hin (fun j hj => hm j (by simp [hj])) hrun ho hok'
    rcases step_ok (hm i (by simp)).1 hi hu hr (hok r (by simp)) with ⟨_, rfl⟩ | ⟨_, rfl⟩ | ⟨_, _, hf, v, p, hb, rfl, rfl⟩
    · rfl
    · exact he
    · by_cases h1 : ∃ b, i = .dbyte b
      · obtain ⟨sym, rfl⟩ := h1
        simp only [bodyOf] at hb
        obtain ⟨h, _⟩ := needPhase_done hb
        rw [show State.dph _ = s.dph from rfl, he] at h; cases h
      · by_cases h2 : ∃ b, i = .dend b
        · obtain ⟨b, rfl⟩ := h2
          simp only [bodyOf] at hb
          obtain ⟨h, _⟩ := needPhase_done hb
          rw [show State.dph _ = s.dph from rfl, he] at h; cases h
        · have := (body_decoder hb (hm i (by simp)).2 (fun sym h => h1 ⟨sym, h⟩) (fun b h => h2 ⟨b, h⟩)).1
          simpa [he] using this

/-- The byte held and not yet walked. -/
def heldBytes (s : State) : List Byte := if s.dhv then [s.dhold] else []

theorem consumeHeld_walk (s : State) : consumeHeld s 8 = walkBits s.ts { dcur := s.dcur, out := [] } (unpackBits (heldBytes s)) := by
  unfold consumeHeld heldBytes
  cases s.dhv
  · rfl
  · simp [consume, List.take_of_length_le]

/-- A stream with whole bytes before it. -/
theorem streamBits_append (as bs : List Byte) (pad : Nat) (h : pad ≤ 8 * bs.length) :
    streamBits (as ++ bs) pad = unpackBits as ++ streamBits bs pad := by
  unfold streamBits
  rw [unpackBits_append, List.length_append, List.take_append, List.take_of_length_le (by simp; omega)]
  congr 1
  simp
  omega

/-- The walk of the last byte without its padding. -/
theorem consumeHeld_end {s : State} {pad : Nat} :
    consumeHeld s (8 - pad) = walkBits s.ts { dcur := s.dcur, out := [] } (streamBits (heldBytes s) pad) := by
  unfold consumeHeld heldBytes streamBits
  cases hv : s.dhv
  · simp [walkBits]
  · simp [consume]

/-- Two walks, one after the other. -/
theorem walk_twice {ts : Store Node} {d : Index} {as bs : List Bool} {w : Walker} {out : List Byte}
    (h1 : walkBits ts { dcur := d, out := [] } as = some w)
    (h2 : walkBits ts { dcur := w.dcur, out := [] } bs = some { dcur := root, out := out }) :
    walkBits ts { dcur := d, out := [] } (as ++ bs) = some { dcur := root, out := w.out ++ out } := by
  rw [walkBits_append, h1, Option.bind_some]
  have := walkBits_out ts w.dcur w.out [] bs
  rw [List.append_nil, h2] at this
  exact this

/-- The commands whose payloads are the symbols. -/
abbrev pickDecoder (pad : Byte) (i : Instr) : Bool := (dbyteOperand i).isSome || decide (i = .dend pad)

/-- The rest of a decoder session, from any walker state. -/
theorem decoder_tail {mid : List Instr} {s t : State} {pad : Byte} {more : List (List Byte)} {rs : List Response}
    (hi : s.inbox = (mid ++ [Instr.dend pad]).map encode ++ more) (hm : ∀ i ∈ mid, i.wf = true ∧ i ≠ .dst ∧ ∀ p, i ≠ .dend p)
    (hrun : runSteps (mid.length + 1) s = .next t) (ho : t.outbox = s.outbox ++ rs) (hok : AllOk rs)
    (he : s.dph = .run) :
    pad.toNat ≤ 7 ∧ (pad ≠ 0#8 → s.dhv = true ∨ mid.filterMap dbyteOperand ≠ []) ∧ walkBits s.ts { dcur := s.dcur, out := [] } (streamBits (heldBytes s ++ mid.filterMap dbyteOperand) pad.toNat) =
      some { dcur := root, out := (payloadsTo (pickDecoder pad) (mid ++ [.dend pad]) rs).flatten } := by
  have hpm : padMax = 7 := rfl
  induction mid generalizing s rs with
  | nil =>
    obtain ⟨u, r, rs', hu, hin, hr, hrun, ho2, rfl⟩ := run_peel hi hrun ho
    clear ho; have ho := ho2; clear ho2
    rcases step_ok rfl hi hu hr (hok r (by simp)) with ⟨h, _⟩ | ⟨h, _⟩ | ⟨_, _, hf, v, p, hb, rfl, rfl⟩
    · cases h
    · cases h
    · simp only [bodyOf] at hb
      obtain ⟨_, hb⟩ := needPhase_done hb
      rw [endStream] at hb
      split at hb
      · cases hb
      · rename_i hp
        split at hb
        · cases hb
        · rename_i hz
          split at hb
          · cases hb
          · rename_i w hw
            split at hb
            · cases hb
            · rename_i hd
              cases hb
              have hz' : s.dhv = false → pad = 0#8 := fun h => by
                by_contra h'; exact hz ⟨h, h'⟩
              rw [consumeHeld_end] at hw
              refine ⟨by omega, fun h => .inl ?_, ?_⟩
              · cases hv : s.dhv
                · exact absurd (hz' hv) h
                · rfl
              · simp only [List.filterMap_nil, List.append_nil, List.nil_append, payloadsTo_cons]
                have hpick : pickDecoder pad (Instr.dend pad) = true := by simp [pickDecoder]
                rw [if_pos hpick]
                have hd : w.dcur = root := not_not.mp hd
                simp only [payloadsTo, List.zip_nil_left, List.filter_nil, List.map_nil, List.flatten_cons, List.flatten_nil, List.append_nil]
                rw [← hd]
                exact hw
  | cons i mid ih =>
    obtain ⟨u, r, rs', hu, hin, hr, hrun, ho2, rfl⟩ := run_peel hi hrun ho
    clear ho; have ho := ho2; clear ho2
    have hok' : AllOk rs' := fun r hr => hok r (by simp [hr])
    have hm' : ∀ i ∈ mid, i.wf = true ∧ i ≠ .dst ∧ ∀ p, i ≠ .dend p := fun j hj => hm j (by simp [hj])
    obtain ⟨hw, hne, hnf⟩ := hm i (by simp)
    rcases step_ok hw hi hu hr (hok r (by simp)) with ⟨rfl, rfl⟩ | ⟨rfl, rfl⟩ | ⟨_, _, hf, v, p, hb, rfl, rfl⟩
    · exact (no_end hin (fun j hj => ⟨(hm' j hj).1, (hm' j hj).2.1⟩) hrun ho hok' rfl).elim
    · obtain ⟨h1, h2, h3⟩ := ih hin hm' hrun ho hok' he
      refine ⟨h1, h2, ?_⟩
      rw [List.cons_append, payloadsTo_cons, if_neg (by simp [pickDecoder, dbyteOperand])]; exact h3
    · by_cases h1 : ∃ b, i = .dbyte b
      · obtain ⟨b, rfl⟩ := h1
        simp only [bodyOf] at hb
        obtain ⟨h, hb⟩ := needPhase_done hb
        rw [takeByte] at hb; split at hb <;> cases hb
        rename_i _ w hw
        rw [consumeHeld_walk] at hw
        obtain ⟨h1, h2, h3⟩ := ih hin hm' hrun ho hok' h
        refine ⟨h1, fun _ => .inr (by simp [dbyteOperand]), ?_⟩
        simp only [List.filterMap_cons, dbyteOperand]
        rw [List.cons_append, payloadsTo_cons, if_pos (by simp [pickDecoder, dbyteOperand]), List.flatten_cons]
        rw [streamBits_append _ _ _ (by simp; omega)]
        exact walk_twice hw h3
      · have h1' : ∀ b, i ≠ .dbyte b := fun sym h => h1 ⟨sym, h⟩
        obtain ⟨b1, b2, b3, b4, b5⟩ := body_decoder hb hne h1' hnf
        have b5 := b5 he
        obtain ⟨h1, h2, h3⟩ := ih hin hm' hrun ho hok' (by simpa [he] using b1)
        rw [List.filterMap_cons, dbyteOperand_none h1']
        refine ⟨h1, ?_, ?_⟩
        · simpa [b4] using h2
        · rw [List.cons_append, payloadsTo_cons, if_neg (by simp [pickDecoder, dbyteOperand_none h1', hnf pad])]
          simpa [heldBytes, b2, b3, b4, b5] using h3

/-- Symbols with codes, in an open encoder session, are encoded. -/
theorem encoder_forward (syms : List Symbol) {s : State} {more : List (List Byte)} (hf : s.flt = none) (he : s.eph = .run)
    (hc : ∀ sym ∈ syms, ∃ c, s.readCT sym = some c) (hi : s.inbox = (syms.map Instr.esym ++ [Instr.efl]).map encode ++ more) :
    ∃ t rs, runSteps (syms.length + 1) s = .next t ∧ t.outbox = s.outbox ++ rs ∧ AllOk rs ∧ rs.length = syms.length + 1 ∧
      t.ct = s.ct ∧ t.ts = s.ts ∧ t.flt = none ∧ t.cfg = s.cfg ∧ t.eph = .idle ∧ t.dph = s.dph := by
  induction syms generalizing s with
  | nil =>
    have hb : bodyOf .efl { s with inbox := more } = .done { s with eacc := 0#8, ecnt := 0#3, eph := .idle, inbox := more } (flushBytes { s with inbox := more }) := by
      simp only [bodyOf]
      rw [needPhase_ok (by exact he)]
    obtain ⟨a, b, c⟩ := run_cons_ok (k := 0) (by simp) (by simp) hi (decode_encode_unit rfl rfl) hf hb rfl (rs := []) (by simp) (by intro _ h; cases h)
    exact ⟨_, _, a, b, c, rfl, rfl, rfl, hf, rfl, rfl, rfl⟩
  | cons sym syms ih =>
    obtain ⟨c, hcc⟩ := hc sym (by simp)
    let p := packAll { eacc := s.eacc, ecnt := s.ecnt, out := [] } c
    let rest := (syms.map Instr.esym ++ [Instr.efl]).map encode ++ more
    have hb : bodyOf (.esym sym) { s with inbox := rest } = .done { s with eacc := p.eacc, ecnt := p.ecnt, inbox := rest } p.out := by
      simp only [bodyOf]
      rw [needPhase_ok (by exact he), encodeSymbol, show State.readCT { s with inbox := rest } sym = some c from hcc]
    obtain ⟨t, rs, h1, h2, h3, h4, h5⟩ := ih (s := complete p.out { s with eacc := p.eacc, ecnt := p.ecnt, inbox := rest }) hf he
      (fun sym' h => hc sym' (by simp [h])) rfl
    obtain ⟨a, b, d⟩ := run_cons_ok (by simp) (by simp) hi (decode_encode_unit rfl rfl) hf hb h1 h2 h3
    exact ⟨t, _, a, b, d, by simp [h4], h5⟩

/-- A whole encoder session on a block whose code table has the codes. -/
theorem encoder_session {syms : List Symbol} {codes : List Code} {s : State} {more : List (List Byte)} (hf : s.flt = none)
    (he : s.eph = .idle) (hc : syms.map s.readCT = codes.map some)
    (hi : s.inbox = (Software.encodeSession syms).map encode ++ more) :
    ∃ t rs, runSteps (syms.length + 2) s = .next t ∧ t.outbox = s.outbox ++ rs ∧ AllOk rs ∧
      Software.packedForm (payloadsOf rs) = (packBits codes.flatten, padCount codes.flatten.length) ∧
      rs.length = syms.length + 2 ∧ t.ct = s.ct ∧ t.ts = s.ts ∧ t.flt = none ∧ t.cfg = s.cfg ∧ t.eph = .idle ∧ t.dph = s.dph := by
  let rest := (syms.map Instr.esym ++ [Instr.efl]).map encode ++ more
  have hi0 : s.inbox = encode .est :: rest := by rw [hi]; simp [Software.encodeSession, Software.estr, rest]
  have hb : bodyOf .est { s with inbox := rest } = .done { s with eacc := 0#8, ecnt := 0#3, eph := .run, inbox := rest } [] := by
    simp only [bodyOf]
    rw [needPhase_ok (by exact he)]
  obtain ⟨t, rs, h1, h2, h3, h4, h5⟩ := encoder_forward syms (s := complete [] { s with eacc := 0#8, ecnt := 0#3, eph := .run, inbox := rest }) (more := more) hf rfl
    (by
      intro sym hs
      have : s.readCT sym ∈ codes.map some := by rw [← hc]; exact List.mem_map_of_mem hs
      obtain ⟨c, _, hc⟩ := List.mem_map.mp this
      exact ⟨c, hc.symm⟩) rfl
  obtain ⟨a, b, d⟩ := run_cons_ok (by simp) (by simp) hi0 (decode_encode_unit rfl rfl) hf hb h1 h2 h3
  refine ⟨t, _, a, b, d, ?_, by simp [h4], h5⟩
  obtain ⟨codes', init, count, last, h6, h7, h8, h9⟩ :=
    encoder_tail (mid := syms.map .esym) (more := more)
      (s := complete [] { s with eacc := 0#8, ecnt := 0#3, eph := .run, inbox := rest }) rfl
      (by intro i hi; obtain ⟨_, _, rfl⟩ := List.mem_map.mp hi; simp [Instr.wf])
      (by rw [List.length_map]; exact h1) h2 h3 rfl (by simp)
  have hsyms : (syms.map Instr.esym).filterMap esymOperand = syms := by
    rw [List.filterMap_map]; simp [Function.comp_def, esymOperand]
  rw [hsyms] at h6
  replace h6 : syms.map s.readCT = codes'.map some := h6
  rw [hc] at h6
  have : codes' = codes := List.map_injective_iff.mpr (Option.some_injective _) h6.symm
  subst this
  have hpay : payloadsTo pickEncoder (syms.map Instr.esym ++ [Instr.efl]) rs = payloadsOf rs := by
    unfold payloadsTo payloadsOf
    rw [List.filter_eq_self.mpr]
    · rw [show (fun e : Instr × Response => e.2.payload) = Response.payload ∘ Prod.snd from rfl, ← List.map_map, List.map_snd_zip (by simp [h4])]
    · intro e he
      have := (List.of_mem_zip he).1
      simp only [List.mem_append, List.mem_map, List.mem_singleton] at this
      rcases this with ⟨_, _, h⟩ | h
      · rw [← h]; simp [pickEncoder, esymOperand]
      · rw [h]; simp [pickEncoder]
  rw [hpay] at h7
  simp only [complete_eacc, complete_ecnt, pendingBits, BitVec.toNat_ofNat, Nat.reducePow, Nat.zero_mod,
    List.take_zero, List.nil_append] at h9
  obtain ⟨h10, h11⟩ := packBits_of_unpackBits _ _ _ h8 h9
  have hform : payloadsOf ({ status := .ok, payload := [] } :: rs) = [] :: (init ++ [count :: last]) := by
    rw [← h7]; rfl
  rw [hform, ← List.cons_append, packedForm_snoc, List.flatten_cons, List.nil_append, h10, h11]

/-- Bytes whose walk succeeds, in an open decoder session, are decoded. -/
theorem decoder_forward (bytes : List Byte) {s : State} {pad : Byte} {out : List Byte} {more : List (List Byte)} (hf : s.flt = none) (he : s.dph = .run)
    (hp : pad.toNat ≤ 7) (hpz : pad ≠ 0#8 → s.dhv = true ∨ bytes ≠ [])
    (hw : walkBits s.ts { dcur := s.dcur, out := [] } (streamBits (heldBytes s ++ bytes) pad.toNat) = some { dcur := root, out := out })
    (hi : s.inbox = (bytes.map Instr.dbyte ++ [Instr.dend pad]).map encode ++ more) :
    ∃ t rs, runSteps (bytes.length + 1) s = .next t ∧ t.outbox = s.outbox ++ rs ∧ AllOk rs ∧ (payloadsOf rs).flatten = out := by
  have hpm : padMax = 7 := rfl
  induction bytes generalizing s out with
  | nil =>
    have hz : s.dhv = false → pad = 0#8 := fun h => by
      by_contra h'
      rcases hpz h' with h2 | h2
      · rw [h] at h2; cases h2
      · exact h2 rfl
    rw [List.append_nil, ← consumeHeld_end] at hw
    have hb : bodyOf (.dend pad) { s with inbox := more } = .done { s with dcur := root, dhold := 0#8, dhv := false, dph := .idle, inbox := more } out := by
      simp only [bodyOf]
      rw [needPhase_ok (by exact he), endStream, if_neg (by omega), if_neg (fun h => h.2 (hz h.1)),
        show consumeHeld { s with inbox := more } (8 - pad.toNat) = _ from hw]
      simp
    obtain ⟨a, b, c⟩ := run_cons_ok (k := 0) (by simp) (by simp) hi (decode_encode_unit rfl rfl) hf hb rfl (rs := []) (by simp) (by intro _ h; cases h)
    exact ⟨_, _, a, b, c, by simp [payloadsOf]⟩
  | cons x bytes ih =>
    let rest := (bytes.map Instr.dbyte ++ [Instr.dend pad]).map encode ++ more
    rw [streamBits_append _ _ _ (by simp; omega), walkBits_append] at hw
    cases h1 : walkBits s.ts { dcur := s.dcur, out := [] } (unpackBits (heldBytes s)) with
    | none => rw [h1] at hw; cases hw
    | some w =>
      rw [h1, Option.bind_some] at hw
      have h2 := walkBits_out s.ts w.dcur w.out [] (streamBits (x :: bytes) pad.toNat)
      rw [List.append_nil, show (⟨w.dcur, w.out⟩ : Walker) = w from rfl, hw] at h2
      cases h3 : walkBits s.ts { dcur := w.dcur, out := [] } (streamBits (x :: bytes) pad.toNat) with
      | none => rw [h3] at h2; cases h2
      | some v =>
        rw [h3] at h2
        simp only [Option.map_some, Option.some.injEq, Walker.mk.injEq] at h2
        have hb : bodyOf (.dbyte x) { s with inbox := rest } = .done { s with dcur := w.dcur, dhold := x, dhv := true, inbox := rest } w.out := by
          simp only [bodyOf]
          rw [needPhase_ok (by exact he), takeByte, show consumeHeld { s with inbox := rest } 8 = consumeHeld s 8 from rfl, consumeHeld_walk, h1]
        obtain ⟨t, rs, k1, k2, k3, k4⟩ := ih (s := complete w.out { s with dcur := w.dcur, dhold := x, dhv := true, inbox := rest }) (out := v.out) hf he
          (fun _ => .inl rfl) (by
            simp only [heldBytes, complete_dhv, if_true, complete_ts, complete_dcur, complete_dhold, List.singleton_append]
            rw [h3, h2.1]) rfl
        obtain ⟨a, b, d⟩ := run_cons_ok (by simp) (by simp) hi (decode_encode_unit rfl rfl) hf hb k1 k2 k3
        exact ⟨t, _, a, b, d, by rw [h2.2]; simpa [payloadsOf] using k4⟩

/-- A whole decoder session on bytes whose walk succeeds. -/
theorem decoder_session {bytes : List Byte} {s : State} {pad : Byte} {out : List Byte} {more : List (List Byte)} (hf : s.flt = none) (he : s.dph = .idle)
    (hp : pad.toNat ≤ 7) (hpz : pad ≠ 0#8 → bytes ≠ [])
    (hw : walkBits s.ts { dcur := root, out := [] } (streamBits bytes pad.toNat) = some { dcur := root, out := out })
    (hi : s.inbox = (Software.decodeSession bytes pad).map encode ++ more) :
    ∃ t rs, runSteps (bytes.length + 2) s = .next t ∧ t.outbox = s.outbox ++ rs ∧ AllOk rs ∧ (payloadsOf rs).flatten = out := by
  let rest := (bytes.map Instr.dbyte ++ [Instr.dend pad]).map encode ++ more
  have hi0 : s.inbox = encode .dst :: rest := by rw [hi]; simp [Software.decodeSession, rest]
  have hb : bodyOf .dst { s with inbox := rest } = .done { s with dcur := root, dhold := 0#8, dhv := false, dph := .run, inbox := rest } [] := by
    simp only [bodyOf]
    rw [needPhase_ok (by exact he)]
  obtain ⟨t, rs, h1, h2, h3, h4⟩ := decoder_forward bytes (s := complete [] { s with dcur := root, dhold := 0#8, dhv := false, dph := .run, inbox := rest }) (more := more) (pad := pad) (out := out) hf rfl hp
    (fun h => .inr (hpz h)) hw rfl
  obtain ⟨a, b, d⟩ := run_cons_ok (by simp) (by simp) hi0 (decode_encode_unit rfl rfl) hf hb h1 h2 h3
  exact ⟨t, _, a, b, d, by simpa [payloadsOf] using h4⟩

end Sys2Proof.Machine
end

