-- ==== Sys2Proof/Laws/Loading.lean ====
section
/-! SUPPORT. Commands issued by the host (45_host_context.md section 6), and the stores after a tree is loaded
(R180, R181). -/

namespace Sys2Proof.Software

open Sys2Proof.Machine Sys2Proof.Laws

theorem issue_done {s v : State} {i : Instr} {p : List Byte} (h1 : i ≠ .rst) (h2 : i ≠ .stat) (hin : s.inbox = [])
    (hd : decode s.cfg.storeMode (encode i) = .command i) (hf : s.flt = none)
    (hb : bodyOf i s = .done v p) : issue i s = some (complete p v, { status := .ok, payload := p }) := by
  have hb' : bodyOf i { deliver (encode i) s with inbox := [] } = .done v p := by
    have : { deliver (encode i) s with inbox := [] } = s := by
      cases s; simp only at hin; subst hin; rfl
    rw [this]; exact hb
  have := step_done (s := deliver (encode i) s) h1 h2 (rest := []) (by simp [hin]) hd hf hb'
  simp [issue, this]

theorem issue_raise {s : State} {i : Instr} {c : Cause} (h1 : i ≠ .rst) (h2 : i ≠ .stat) (hin : s.inbox = [])
    (hd : decode s.cfg.storeMode (encode i) = .command i) (hf : s.flt = none)
    (hb : bodyOf i s = .raise c) : issue i s = some (raiseFault c s, { status := .fault c, payload := [] }) := by
  have hs : { deliver (encode i) s with inbox := [] } = s := by
    cases s; simp only at hin; subst hin; rfl
  have := step_command (s := deliver (encode i) s) (rest := []) (by simp [hin]) hd
  rw [exec_eq_perform h1 h2, hs, perform_raise hf hb] at this
  simp [issue, this]

theorem issueAll_fault {s t : State} {i : Instr} {rest : List Instr} {c : Cause}
    (h : issue i s = some (t, { status := .fault c, payload := [] })) :
    issueAll (i :: rest) s = .error (HostError.ofCause c) := by
  simp [issueAll, h]

theorem issueAll_cons_error {s t : State} {i : Instr} {rest : List Instr} {p : List Byte} {e : HostError}
    (h : issue i s = some (t, { status := .ok, payload := p })) (hr : issueAll rest t = .error e) :
    issueAll (i :: rest) s = .error e := by
  simp [issueAll, h, hr]

theorem issueAll_cons {s t u : State} {i : Instr} {rest : List Instr} {p : List Byte} {ps : List (List Byte)}
    (h : issue i s = some (t, { status := .ok, payload := p })) (hr : issueAll rest t = .ok (u, ps)) :
    issueAll (i :: rest) s = .ok (u, p :: ps) := by
  simp [issueAll, h, hr]

theorem issueAll_append {as bs : List Instr} {s t u : State} {ps qs : List (List Byte)}
    (h : issueAll as s = .ok (t, ps)) (hr : issueAll bs t = .ok (u, qs)) : issueAll (as ++ bs) s = .ok (u, ps ++ qs) := by
  induction as generalizing s ps with
  | nil => simp only [issueAll, Except.ok.injEq, Prod.mk.injEq] at h; obtain ⟨rfl, rfl⟩ := h; exact hr
  | cons i as ih =>
    simp only [issueAll, List.cons_append] at h ⊢
    split at h
    · cases h
    · rename_i t' r hi
      split at h
      · cases h
      · cases h
      · rename_i hst
        split at h
        · cases h
        · rename_i u' ps' ha
          simp only [Except.ok.injEq, Prod.mk.injEq] at h
          obtain ⟨rfl, rfl⟩ := h
          rw [ih ha]
          rfl

/-- One command issued alone does what it does with others waiting (20_memory.md R62). -/
theorem issue_of_step {s u : State} {i : Instr} {rest : List (List Byte)} {r : Response} (hi : s.inbox = encode i :: rest)
    (hu : step s = .next u) (ho : u.outbox = s.outbox ++ [r]) :
    issue i { s with inbox := [] } = some ({ u with inbox := [] }, r) := by
  have hs : step { s with inbox := [encode i] } = .next { u with inbox := [] } := by
    rcases step_cases hu with ⟨h, _⟩ | ⟨y, rest1, j, hi1, hd, he⟩ | ⟨y, rest1, w, hi1, hd, he⟩
    · rw [hi] at h; cases h
    · rw [hi] at hi1; cases hi1
      rw [step_command (s := { s with inbox := [encode i] }) rfl hd]
      exact exec_inbox (s := { s with inbox := rest }) [] he
    · rw [hi] at hi1; cases hi1
      subst he
      rw [step_illegal (s := { s with inbox := [encode i] }) rfl hd]
      exact congrArg _ (perform_inbox _ { s with inbox := rest } [] rfl)
  unfold issue
  rw [show deliver (encode i) { s with inbox := [] } = { s with inbox := [encode i] } from rfl, hs]
  simp [ho]

/-- Commands issued one by one are a run of the block on all of them. -/
theorem issueAll_of_run (cmds : List Instr) {s t : State} {rs : List Response} (hi : s.inbox = cmds.map encode)
    (hrun : runSteps cmds.length s = .next t) (ho : t.outbox = s.outbox ++ rs) (hok : AllOk rs) :
    issueAll cmds { s with inbox := [] } = .ok ({ t with inbox := [] }, payloadsOf rs) := by
  induction cmds generalizing s rs with
  | nil =>
    cases hrun
    have : rs = [] := by simpa using ho
    subst this; rfl
  | cons i cmds ih =>
    obtain ⟨u, r, rs', hu, hin, hr, hrun, ho2, rfl⟩ := run_peel hi hrun ho
    have h1 := ih hin hrun ho2 (fun r hr => hok r (by simp [hr]))
    have h3 := issue_of_step hi hu hr
    have hst : r = { status := .ok, payload := r.payload } := by
      have := hok r (by simp)
      cases r; simp only at this; subst this; rfl
    rw [hst] at h3
    exact issueAll_cons h3 h1

/-- A block that is not faulted, with no session open and nothing waiting. -/
structure Idle (s : State) : Prop where
  flt : s.flt = none
  eph : s.eph = .idle
  dph : s.dph = .idle
  inbox : s.inbox = []

/-- A block in which every loading command completes. -/
structure Ready (s : State) : Prop extends Idle s where
  mode : s.cfg.storeMode = .loadable

theorem decode_loadable {s : State} (hr : Ready s) {i : Instr} (hw : i.wf = true) : decode s.cfg.storeMode (encode i) = .command i := by
  rcases decode_encode_or (m := s.cfg.storeMode) hw with h | ⟨w, h⟩
  · exact h
  · exfalso
    have : i.existsIn s.cfg.storeMode = true := by rw [hr.mode]; rfl
    cases i with
    | ldc sym c => rw [RoundTrip.ldc sym c _ hw this] at h; cases h
    | ldl idx sym => rw [RoundTrip.ldl idx sym _ hw this] at h; cases h
    | ldi idx c0 c1 => rw [RoundTrip.ldi idx c0 c1 _ hw this] at h; cases h
    | rst => rw [RoundTrip.rst _ hw this] at h; cases h
    | stat => rw [RoundTrip.stat _ hw this] at h; cases h
    | clrc => rw [RoundTrip.clrc _ hw this] at h; cases h
    | clrt => rw [RoundTrip.clrt _ hw this] at h; cases h
    | est => rw [RoundTrip.est _ hw this] at h; cases h
    | esym sym => rw [RoundTrip.esym sym _ hw this] at h; cases h
    | efl => rw [RoundTrip.efl _ hw this] at h; cases h
    | dst => rw [RoundTrip.dst _ hw this] at h; cases h
    | dbyte b => rw [RoundTrip.dbyte b _ hw this] at h; cases h
    | dend p => rw [RoundTrip.dend p _ hw this] at h; cases h

/-- `RST` issued alone: the block is idle, with the stores as after reset. -/
theorem issue_rst {s : State} (hi : s.inbox = []) :
    ∃ t, issue .rst s = some (t, { status := .ok, payload := [] }) ∧ Idle t ∧ t.cfg = s.cfg ∧
      t.ct = (State.resetOf s.cfg).ct ∧ t.ts = (State.resetOf s.cfg).ts := by
  refine ⟨complete [] (restart { deliver (encode .rst) s with inbox := [] }), ?_, ⟨rfl, rfl, rfl, rfl⟩, rfl, rfl, rfl⟩
  have := step_command (s := deliver (encode .rst) s) (i := .rst) (t := encode .rst) (rest := []) (by simp [hi]) (decode_encode_unit rfl rfl)
  unfold issue
  rw [this]
  simp [exec, execRst]

theorem issue_node {s : State} (hr : Ready s) (i : Instr) (idx : Index) (n : Node)
    (h : (∃ sym, i = .ldl idx sym ∧ n = .leaf sym) ∨ (∃ c0 c1, i = .ldi idx c0 c1 ∧ n = .internal c0 c1)) :
    issue i s = some (complete [] (s.writeTS idx n), { status := .ok, payload := [] }) := by
  rcases h with ⟨sym, rfl, rfl⟩ | ⟨c0, c1, rfl, rfl⟩
  · exact issue_done (by simp) (by simp) hr.inbox (decode_loadable hr rfl) hr.flt (by
      simp only [bodyOf]; rw [needLoadable_ok hr.mode, needPhase_ok hr.dph])
  · exact issue_done (by simp) (by simp) hr.inbox (decode_loadable hr rfl) hr.flt (by
      simp only [bodyOf]; rw [needLoadable_ok hr.mode, needPhase_ok hr.dph])

theorem ready_writeTS {s : State} (hr : Ready s) (idx : Index) (n : Node) : Ready (complete [] (s.writeTS idx n)) :=
  ⟨⟨hr.flt, hr.eph, hr.dph, hr.inbox⟩, hr.mode⟩

theorem readNode_writeTS {s : State} {idx : Index} {n : Node} (hn : n ≠ .invalid) (j : Index) :
    readNode (s.writeTS idx n).ts j = if idx = j then n else readNode s.ts j := by
  simp only [State.writeTS, readNode, Store.write, if_neg hn, read_insert, toNat_inj_index]

/-- The tree store holds the tree, its nodes numbered from `k` on in preorder (45_host_context.md R180). -/
def Holds (ts : Store Node) : Tree → Nat → Prop
  | .leaf sym _, k => readNode ts (BitVec.ofNat 9 k) = .leaf sym
  | .node _ a b, k =>
    readNode ts (BitVec.ofNat 9 k) = .internal (BitVec.ofNat 9 (k + 1)) (BitVec.ofNat 9 (k + 1 + a.size)) ∧
      Holds ts a (k + 1) ∧ Holds ts b (k + 1 + a.size)

theorem holds_frame {ts ts' : Store Node} {t : Tree} {k : Nat} (h : Holds ts t k) (hk : k + t.size ≤ 512)
    (hf : ∀ j : Index, k ≤ j.toNat → j.toNat < k + t.size → readNode ts' j = readNode ts j) : Holds ts' t k := by
  induction t generalizing k with
  | leaf sym f =>
    simp only [Holds, Tree.size] at *
    rw [hf _ (by simp; omega) (by simp; omega)]; exact h
  | node f a b iha ihb =>
    simp only [Holds, Tree.size] at *
    have := size_pos a
    refine ⟨?_, iha h.2.1 (by omega) fun j h1 h2 => hf j (by omega) (by omega),
      ihb h.2.2 (by omega) fun j h1 h2 => hf j (by omega) (by omega)⟩
    rw [hf _ (by simp; omega) (by simp; omega)]; exact h.1

/-- Loading a tree (45_host_context.md R180). -/
theorem load_nodes (t : Tree) (k : Nat) {s : State} (hr : Ready s) (hk : k + t.size ≤ 512) :
    ∃ u ps, issueAll (loadNodes t k) s = .ok (u, ps) ∧ Ready u ∧ u.ct = s.ct ∧ Holds u.ts t k ∧
      ∀ j : Index, (j.toNat < k ∨ k + t.size ≤ j.toNat) → readNode u.ts j = readNode s.ts j := by
  induction t generalizing k s with
  | leaf sym f =>
    simp only [Tree.size] at hk
    refine ⟨_, _, issueAll_cons (issue_node hr _ _ _ (.inl ⟨sym, rfl, rfl⟩)) rfl, ready_writeTS hr _ _, rfl, ?_, ?_⟩
    · simp only [Holds]
      rw [show (complete [] (s.writeTS (BitVec.ofNat 9 k) (.leaf sym))).ts = (s.writeTS (BitVec.ofNat 9 k) (.leaf sym)).ts from rfl,
        readNode_writeTS (by simp), if_pos rfl]
    · intro j hj
      rw [show (complete [] (s.writeTS (BitVec.ofNat 9 k) (.leaf sym))).ts = (s.writeTS (BitVec.ofNat 9 k) (.leaf sym)).ts from rfl,
        readNode_writeTS (by simp), if_neg]
      rintro rfl
      simp [Tree.size] at hj; omega
  | node f a b iha ihb =>
    simp only [Tree.size] at hk
    have hpa := size_pos a
    have hpb := size_pos b
    let n : Node := .internal (BitVec.ofNat 9 (k + 1)) (BitVec.ofNat 9 (k + 1 + a.size))
    obtain ⟨u1, p1, h1, r1, c1, o1, f1⟩ := iha (k + 1) (ready_writeTS hr (BitVec.ofNat 9 k) n) (by omega)
    obtain ⟨u2, p2, h2, r2, c2, o2, f2⟩ := ihb (k + 1 + a.size) r1 (by omega)
    have hw : ∀ j : Index, readNode (complete [] (s.writeTS (BitVec.ofNat 9 k) n)).ts j =
        if BitVec.ofNat 9 k = j then n else readNode s.ts j := fun j => readNode_writeTS (s := s) (n := n) (by simp only [n]; exact Node.noConfusion) j
    refine ⟨u2, _, issueAll_cons (issue_node hr _ _ n (.inr ⟨_, _, rfl, rfl⟩)) (issueAll_append h1 h2), r2, ?_, ⟨?_, ?_, o2⟩, ?_⟩
    · rw [c2, c1]; rfl
    · rw [f2 _ (by left; simp; omega), f1 _ (by left; simp; omega), hw, if_pos rfl]
    · exact holds_frame o1 (by omega) fun j h3 h4 => f2 j (.inl (by omega))
    · intro j hj
      simp only [Tree.size] at hj
      rw [f2 _ (by omega), f1 _ (by omega), hw, if_neg]
      rintro rfl
      simp at hj; omega

theorem load_tree {t : Tree} {s : State} (hr : Ready s) (hk : t.size ≤ 512) :
    ∃ u ps, issueAll (ldTree t) s = .ok (u, ps) ∧ Ready u ∧ u.ct = s.ct ∧ Holds u.ts t 0 := by
  have h1 : issue .clrt s = some (complete [] s.clearTS, { status := .ok, payload := [] }) :=
    issue_done (by simp) (by simp) hr.inbox (decode_loadable hr rfl) hr.flt (by
      simp only [bodyOf]; rw [needLoadable_ok hr.mode, needPhase_ok hr.dph])
  obtain ⟨u, ps, h2, r, c, o, -⟩ := load_nodes t 0 (s := complete [] s.clearTS) ⟨⟨hr.flt, hr.eph, hr.dph, hr.inbox⟩, hr.mode⟩ (by omega)
  exact ⟨u, _, issueAll_cons h1 h2, r, c, o⟩

/-- Loading codes (45_host_context.md R181). -/
theorem load_codes_list (f : Symbol → Option Code) (l : List (Symbol × Code)) (hl : ∀ e ∈ l, f e.1 = some e.2 ∧ Code.legal e.2 = true)
    {s : State} (hr : Ready s) :
    ∃ u ps, issueAll (l.map fun e => .ldc e.1 e.2) s = .ok (u, ps) ∧ Ready u ∧ u.ts = s.ts ∧
      ∀ sym, u.readCT sym = if sym ∈ l.map Prod.fst then f sym else s.readCT sym := by
  induction l generalizing s with
  | nil => exact ⟨s, [], rfl, hr, rfl, by simp⟩
  | cons e l ih =>
    obtain ⟨hf, hc⟩ := hl e (by simp)
    have h1 : issue (.ldc e.1 e.2) s = some (complete [] (s.writeCT e.1 (some e.2)), { status := .ok, payload := [] }) :=
      issue_done (by simp) (by simp) hr.inbox (decode_loadable hr hc) hr.flt (by
        simp only [bodyOf]; rw [needLoadable_ok hr.mode, needLegalCode_ok hc, needPhase_ok hr.eph])
    obtain ⟨u, ps, h2, r, c, o⟩ := ih (fun e he => hl e (by simp [he])) (s := complete [] (s.writeCT e.1 (some e.2)))
      ⟨⟨hr.flt, hr.eph, hr.dph, hr.inbox⟩, hr.mode⟩
    refine ⟨u, _, issueAll_cons h1 h2, r, c, ?_⟩
    intro sym
    rw [o]
    by_cases h3 : sym ∈ l.map Prod.fst
    · rw [if_pos h3, if_pos (by simp only [List.map_cons, List.mem_cons]; exact .inr h3)]
    · rw [if_neg h3]
      have : (complete [] (s.writeCT e.1 (some e.2))).readCT sym = if e.1 = sym then some e.2 else s.readCT sym := by
        simp [State.readCT, State.writeCT, Store.write, read_insert, toNat_inj_symbol]
      rw [this]
      by_cases h4 : e.1 = sym
      · subst h4; simp [hf]
      · rw [if_neg h4, if_neg (by simp only [List.map_cons, List.mem_cons]; rintro (h | h); exact h4 h.symm; exact h3 h)]

/-- Every code of a tree of at most 256 leaves has 1 to 255 bits (00_scope.md R7). -/
theorem derive_legal {t : Tree} (h : t.symbols.length ≤ 256) : ∀ e ∈ deriveCodes t, Code.legal e.2 = true := by
  intro e he
  rw [legal_iff]
  refine ⟨derive_nonempty t e he, ?_⟩
  cases t with
  | leaf sym f => simp only [deriveCodes, List.mem_singleton] at he; subst he; simp
  | node f a b => have := leafPaths_length _ _ e he; simp at this; omega

theorem load_codes {t : Tree} {s : State} (hr : Ready s) (h : t.symbols.length ≤ 256) :
    ∃ u ps, issueAll (ldCodes t) s = .ok (u, ps) ∧ Ready u ∧ u.ts = s.ts ∧ ∀ sym, u.readCT sym = codeIn t sym := by
  have h1 : issue .clrc s = some (complete [] s.clearCT, { status := .ok, payload := [] }) :=
    issue_done (by simp) (by simp) hr.inbox (decode_loadable hr rfl) hr.flt (by
      simp only [bodyOf]; rw [needLoadable_ok hr.mode, needPhase_ok hr.eph])
  let l : List (Symbol × Code) := (List.range nsym).filterMap fun n => (codeIn t (BitVec.ofNat 8 n)).map fun c => (BitVec.ofNat 8 n, c)
  have hl : ∀ e ∈ l, codeIn t e.1 = some e.2 ∧ Code.legal e.2 = true := by
    intro e he
    obtain ⟨n, _, hn⟩ := List.mem_filterMap.mp he
    obtain ⟨c, hc, rfl⟩ := Option.map_eq_some_iff.mp hn
    refine ⟨hc, ?_⟩
    obtain ⟨e', he', rfl⟩ := Option.map_eq_some_iff.mp hc
    exact derive_legal h e' (List.mem_of_find?_eq_some he')
  obtain ⟨u, ps, h2, r, c, o⟩ := load_codes_list (codeIn t) l hl (s := complete [] s.clearCT) ⟨⟨hr.flt, hr.eph, hr.dph, hr.inbox⟩, hr.mode⟩
  have hcmd : ldCodes t = .clrc :: l.map fun e => .ldc e.1 e.2 := by
    unfold ldCodes
    congr 1
    simp only [l, List.map_filterMap]
    congr 1
    funext n
    simp only [codeIn, Option.map_map]
    cases hq : (deriveCodes t).find? fun e => decide (e.1 = BitVec.ofNat 8 n) with
    | none => rfl
    | some e => rfl
  refine ⟨u, _, hcmd ▸ issueAll_cons h1 h2, r, c, ?_⟩
  intro sym
  rw [o]
  split
  · rfl
  · rename_i hn
    cases hq : codeIn t sym with
    | none => rfl
    | some c =>
      exfalso
      apply hn
      refine List.mem_map.mpr ⟨(sym, c), ?_, rfl⟩
      refine List.mem_filterMap.mpr ⟨sym.toNat, by simpa using sym.isLt, ?_⟩
      simp [hq]

/-- The subtree at the end of a path, with the number of its node. -/
def subAt : Tree → Nat → List Bool → Option (Tree × Nat)
  | t, k, [] => some (t, k)
  | .leaf _ _, _, _ :: _ => none
  | .node _ a b, k, c :: p => if c then subAt b (k + 1 + a.size) p else subAt a (k + 1) p

theorem follow_holds {ts : Store Node} {t : Tree} {k : Nat} (h : Holds ts t k) (p : List Bool) :
    follow ts (BitVec.ofNat 9 k) p = (subAt t k p).map fun r => BitVec.ofNat 9 r.2 := by
  induction p generalizing t k with
  | nil => simp [follow, subAt]
  | cons c p ih =>
    cases t with
    | leaf sym f => simp only [Holds] at h; simp [follow, h, subAt]
    | node f a b =>
      simp only [Holds] at h
      simp only [follow, h.1, subAt, childOf]
      cases c
      · exact ih h.2.1
      · exact ih h.2.2

theorem subAt_holds {ts : Store Node} {t u : Tree} {k j : Nat} {p : List Bool} (h : Holds ts t k) (hs : subAt t k p = some (u, j)) :
    Holds ts u j ∧ k ≤ j ∧ j + u.size ≤ k + t.size ∧ (p ≠ [] → k < j) ∧ (∀ x ∈ u.symbols, x ∈ t.symbols) := by
  induction p generalizing t k with
  | nil => cases t <;> (simp only [subAt, Option.some.injEq, Prod.mk.injEq] at hs; obtain ⟨rfl, rfl⟩ := hs; exact ⟨h, by omega, by omega, by simp, by simp⟩)
  | cons c p ih =>
    cases t with
    | leaf sym f => cases hs
    | node f a b =>
      simp only [Holds] at h
      simp only [subAt] at hs
      have := size_pos a
      have := size_pos b
      simp only [Tree.size, Tree.symbols, List.mem_append]
      cases c
      · obtain ⟨h1, h2, h3, h4, h5⟩ := ih h.2.1 hs
        exact ⟨h1, by omega, by omega, fun _ => by omega, fun x hx => .inl (h5 x hx)⟩
      · obtain ⟨h1, h2, h3, h4, h5⟩ := ih h.2.2 hs
        exact ⟨h1, by omega, by omega, fun _ => by omega, fun x hx => .inr (h5 x hx)⟩

theorem subAt_inj {ts : Store Node} {t u u' : Tree} {k j : Nat} {p q : List Bool} (h : Holds ts t k) (hs : subAt t k p = some (u, j))
    (hs' : subAt t k q = some (u', j)) : p = q := by
  induction p generalizing t k q with
  | nil =>
    cases t <;> (simp only [subAt, Option.some.injEq, Prod.mk.injEq] at hs; obtain ⟨rfl, rfl⟩ := hs)
    all_goals
      by_contra hq
      have := (subAt_holds h hs').2.2.2.1 (fun h => hq h.symm)
      omega
  | cons c p ih =>
    cases t with
    | leaf sym f => cases hs
    | node f a b =>
      cases q with
      | nil =>
        have h1 := (subAt_holds h hs).2.2.2.1 (by simp)
        simp only [subAt, Option.some.injEq, Prod.mk.injEq] at hs'
        omega
      | cons c' q =>
        simp only [Holds] at h
        simp only [subAt] at hs hs'
        cases c <;> cases c'
        · rw [ih h.2.1 hs hs']
        · exfalso
          have h1 := (subAt_holds h.2.1 hs).2.2.1
          have h2 := (subAt_holds h.2.2 hs').2.1
          have := size_pos u
          omega
        · exfalso
          have h1 := (subAt_holds h.2.1 hs').2.2.1
          have h2 := (subAt_holds h.2.2 hs).2.1
          have := size_pos u'
          omega
        · rw [ih h.2.2 hs hs']

theorem subAt_leaf_inj {ts : Store Node} {t : Tree} {k j j' f f' : Nat} {sym : Symbol} {p q : List Bool} (h : Holds ts t k) (hn : t.symbols.Nodup)
    (hs : subAt t k p = some (.leaf sym f, j)) (hs' : subAt t k q = some (.leaf sym f', j')) : j = j' := by
  induction p generalizing t k q with
  | nil =>
    cases t with
    | node => simp [subAt] at hs
    | leaf =>
      simp only [subAt, Option.some.injEq, Prod.mk.injEq] at hs
      cases q with
      | nil => simp only [subAt, Option.some.injEq, Prod.mk.injEq] at hs'; omega
      | cons => cases hs'
  | cons c p ih =>
    cases t with
    | leaf sym f => cases hs
    | node g a b =>
      cases q with
      | nil => simp [subAt] at hs'
      | cons c' q =>
        simp only [Holds] at h
        simp only [subAt] at hs hs'
        simp only [Tree.symbols, List.nodup_append] at hn
        have hm : ∀ f : Nat, sym ∈ (Tree.leaf sym f).symbols := by simp [Tree.symbols]
        cases c <;> cases c'
        · exact ih h.2.1 hn.1 hs hs'
        · exact absurd rfl (hn.2.2 _ ((subAt_holds h.2.1 hs).2.2.2.2 _ (hm _)) _ ((subAt_holds h.2.2 hs').2.2.2.2 _ (hm _)))
        · exact absurd rfl (hn.2.2 _ ((subAt_holds h.2.1 hs').2.2.2.2 _ (hm _)) _ ((subAt_holds h.2.2 hs).2.2.2.2 _ (hm _)))
        · exact ih h.2.2 hn.2.1 hs hs'

theorem leafPaths_subAt {t : Tree} {acc : Code} {e : Symbol × Code} (he : e ∈ leafPaths t acc) (k : Nat) :
    ∃ p f j, e.2 = acc ++ p ∧ subAt t k p = some (.leaf e.1 f, j) := by
  induction t generalizing acc k with
  | leaf sym f => simp only [leafPaths, List.mem_singleton] at he; subst he; exact ⟨[], f, k, by simp, rfl⟩
  | node f a b iha ihb =>
    simp only [leafPaths, List.mem_append] at he
    rcases he with he | he
    · obtain ⟨p, f, j, h1, h2⟩ := iha he (k + 1)
      exact ⟨false :: p, f, j, by rw [h1]; simp, h2⟩
    · obtain ⟨p, f, j, h1, h2⟩ := ihb he (k + 1 + a.size)
      exact ⟨true :: p, f, j, by rw [h1]; simp, h2⟩

theorem root_ofNat : root = BitVec.ofNat 9 0 := rfl

theorem reach_sub {ts : Store Node} {t : Tree} (h : Holds ts t 0) {i : Index} (hr : Reachable ts i) :
    ∃ p u j, subAt t 0 p = some (u, j) ∧ i = BitVec.ofNat 9 j := by
  obtain ⟨p, hp⟩ := hr
  rw [root_ofNat, follow_holds h] at hp
  obtain ⟨⟨u, j⟩, h1, h2⟩ := Option.map_eq_some_iff.mp hp
  exact ⟨p, u, j, h1, h2.symm⟩

theorem sub_reach {ts : Store Node} {t u : Tree} (h : Holds ts t 0) {p : List Bool} {j : Nat} (hs : subAt t 0 p = some (u, j)) :
    follow ts root p = some (BitVec.ofNat 9 j) := by
  rw [root_ofNat, follow_holds h, hs]; rfl

theorem holds_node {ts : Store Node} {t : Tree} {k : Nat} (h : Holds ts t k) : readNode ts (BitVec.ofNat 9 k) ≠ .invalid := by
  cases t with
  | leaf => simp only [Holds] at h; simp [h]
  | node => simp only [Holds] at h; simp [h.1]

theorem holds_leaf {ts : Store Node} {t : Tree} {k : Nat} {sym : Symbol} (h : Holds ts t k) (hl : readNode ts (BitVec.ofNat 9 k) = .leaf sym) :
    ∃ f, t = .leaf sym f := by
  cases t with
  | leaf s f => simp only [Holds] at h; rw [h] at hl; cases hl; exact ⟨f, rfl⟩
  | node => simp only [Holds] at h; rw [h.1] at hl; cases hl

/-- A loaded tree with distinct symbols is a well-formed image (10_state.md R39). -/
theorem holds_wellFormed {ts : Store Node} {t : Tree} (h : Holds ts t 0) (hk : t.size ≤ 512) (hn : t.symbols.Nodup) : WellFormedImage ts where
  rootPresent := by rw [root_ofNat]; exact holds_node h
  childrenPresent := by
    intro i c0 c1 hr hi
    obtain ⟨p, u, j, hs, rfl⟩ := reach_sub h hr
    have hu := (subAt_holds h hs).1
    cases u with
    | leaf => simp only [Holds] at hu; rw [hu] at hi; cases hi
    | node f a b =>
      simp only [Holds] at hu
      rw [hu.1] at hi
      cases hi
      exact ⟨holds_node hu.2.1, holds_node hu.2.2⟩
  childrenNotRoot := by
    intro i c0 c1 hr hi
    obtain ⟨p, u, j, hs, rfl⟩ := reach_sub h hr
    obtain ⟨hu, h1, h2, -⟩ := subAt_holds h hs
    cases u with
    | leaf => simp only [Holds] at hu; rw [hu] at hi; cases hi
    | node f a b =>
      simp only [Holds] at hu
      rw [hu.1] at hi
      cases hi
      simp only [Tree.size] at h2
      have := size_pos a
      have := size_pos b
      constructor
      · intro h0
        have := congrArg BitVec.toNat h0
        simp at this
        omega
      · intro h0
        have := congrArg BitVec.toNat h0
        simp at this
        omega
  onePath := by
    intro p q i hp hq
    rw [root_ofNat, follow_holds h] at hp hq
    obtain ⟨⟨u, j⟩, h1, h2⟩ := Option.map_eq_some_iff.mp hp
    obtain ⟨⟨u', j'⟩, h1', h2'⟩ := Option.map_eq_some_iff.mp hq
    obtain ⟨-, -, b, -⟩ := subAt_holds h h1
    obtain ⟨-, -, b', -⟩ := subAt_holds h h1'
    have := size_pos u
    have := size_pos u'
    have hj : j = j' := by
      have := congrArg BitVec.toNat (h2.trans h2'.symm)
      simp at this
      omega
    subst hj
    exact subAt_inj h h1 h1'
  oneLeaf := by
    intro i i' sym hr hr' hi hi'
    obtain ⟨p, u, j, hs, rfl⟩ := reach_sub h hr
    obtain ⟨q, u', j', hs', rfl⟩ := reach_sub h hr'
    obtain ⟨f, rfl⟩ := holds_leaf (subAt_holds h hs).1 hi
    obtain ⟨f', rfl⟩ := holds_leaf (subAt_holds h hs').1 hi'
    rw [subAt_leaf_inj h hn hs hs']

/-- The derived codes are the codes of the image (10_state.md R40). -/
theorem derive_isCode {ts : Store Node} {t : Tree} (h : Holds ts t 0) : ∀ e ∈ deriveCodes t, IsCodeOf ts e.1 e.2 := by
  intro e he
  unfold IsCodeOf
  cases t with
  | leaf sym f =>
    simp only [deriveCodes, List.mem_singleton] at he
    subst he
    simp only [Holds] at h
    rw [if_pos (by exact h)]
  | node f a b =>
    have hr : readNode ts root ≠ .leaf e.1 := by
      simp only [Holds] at h
      rw [root_ofNat, h.1]; simp
    rw [if_neg hr]
    obtain ⟨p, f', j, h1, h2⟩ := leafPaths_subAt he 0
    refine ⟨BitVec.ofNat 9 j, ?_, ?_⟩
    · rw [h1, List.nil_append]; exact sub_reach h h2
    · exact (subAt_holds h h2).1

theorem held_iff {ts : Store Node} {t : Tree} (h : Holds ts t 0) (sym : Symbol) : HeldSymbol ts sym ↔ sym ∈ t.symbols := by
  constructor
  · rintro ⟨i, hr, hi⟩
    obtain ⟨p, u, j, hs, rfl⟩ := reach_sub h hr
    obtain ⟨f, rfl⟩ := holds_leaf (subAt_holds h hs).1 hi
    exact (subAt_holds h hs).2.2.2.2 sym (by simp [Tree.symbols])
  · intro hm
    rw [← leafPaths_symbols t []] at hm
    obtain ⟨e, he, rfl⟩ := List.mem_map.mp hm
    obtain ⟨p, f', j, h1, h2⟩ := leafPaths_subAt he 0
    exact ⟨BitVec.ofNat 9 j, ⟨p, sub_reach h h2⟩, (subAt_holds h h2).1⟩

theorem codeIn_some {t : Tree} {sym : Symbol} (h : sym ∈ t.symbols) : ∃ c, codeIn t sym = some c ∧ (sym, c) ∈ deriveCodes t := by
  rw [← deriveCodes_symbols] at h
  obtain ⟨e, he, rfl⟩ := List.mem_map.mp h
  have : ((deriveCodes t).find? fun e' => decide (e'.1 = e.1)).isSome := by
    rw [List.find?_isSome]; exact ⟨e, he, by simp⟩
  obtain ⟨e', he'⟩ := Option.isSome_iff_exists.mp this
  have h1 := List.find?_some he'
  simp only [decide_eq_true_eq] at h1
  refine ⟨e'.2, by simp [codeIn, he'], ?_⟩
  rw [← h1]
  exact List.mem_of_find?_eq_some he'

theorem encode_on_block {syms : List Symbol} {codes : List Code} {s : State} (hr : Idle s) (hc : syms.map s.readCT = codes.map some) :
    ∃ t, encodeOnBlock syms s = .ok (t, packBits codes.flatten, padCount codes.flatten.length) := by
  obtain ⟨t, rs, h1, h2, h3, h4, -⟩ := encoder_session (s := { s with inbox := (encodeSession syms).map encode }) (more := []) hr.flt hr.eph hc (by simp)
  have hlen : (encodeSession syms).length = syms.length + 2 := by simp [encodeSession, estr]
  have := issueAll_of_run (encodeSession syms) (s := { s with inbox := (encodeSession syms).map encode }) rfl (by rw [hlen]; exact h1) h2 h3
  have hs : { s with inbox := [] } = s := by
    have := hr.inbox; cases s; simp only at this; subst this; rfl
  change issueAll (encodeSession syms) { s with inbox := [] } = _ at this
  rw [hs] at this
  refine ⟨{ t with inbox := [] }, ?_⟩
  unfold encodeOnBlock
  rw [this]
  simp only
  rw [h4]

/-- An open encoder session meets a symbol without a code: LookupError (45_host_context.md R182). -/
theorem esyms_lookup {syms : List Symbol} {rest : List Instr} {s : State} (hin : s.inbox = []) (hf : s.flt = none)
    (he : s.eph = .run) (h : ∃ sym ∈ syms, s.readCT sym = none) :
    issueAll (estr syms ++ rest) s = .error .lookupError := by
  induction syms generalizing s with
  | nil => obtain ⟨_, h, _⟩ := h; cases h
  | cons sym syms ih =>
    cases hc : s.readCT sym with
    | none =>
      have hb : bodyOf (.esym sym) s = .raise .lookupError := by
        simp only [bodyOf]
        rw [needPhase_ok he, encodeSymbol, hc]
      exact issueAll_fault (issue_raise (by simp) (by simp) hin (decode_encode_unit rfl rfl) hf hb)
    | some c =>
      have hb : bodyOf (.esym sym) s = .done { s with eacc := (packAll { eacc := s.eacc, ecnt := s.ecnt, out := [] } c).eacc, ecnt := (packAll { eacc := s.eacc, ecnt := s.ecnt, out := [] } c).ecnt } (packAll { eacc := s.eacc, ecnt := s.ecnt, out := [] } c).out := by
        simp only [bodyOf]
        rw [needPhase_ok he, encodeSymbol, hc]
      refine issueAll_cons_error (issue_done (by simp) (by simp) hin (decode_encode_unit rfl rfl) hf hb) (ih hin hf he ?_)
      obtain ⟨x, hx, hn⟩ := h
      rcases List.mem_cons.mp hx with rfl | hx
      · rw [hc] at hn; cases hn
      · exact ⟨x, hx, hn⟩

theorem encode_on_block_lookup {syms : List Symbol} {s : State} (hr : Idle s) (h : ∃ sym ∈ syms, s.readCT sym = none) :
    encodeOnBlock syms s = .error .lookupError := by
  have hb : bodyOf .est s = .done { s with eacc := 0#8, ecnt := 0#3, eph := .run } [] := by
    simp only [bodyOf]
    rw [needPhase_ok hr.eph]
  have h1 := issueAll_cons_error (issue_done (by simp) (by simp) hr.inbox (decode_encode_unit rfl rfl) hr.flt hb)
    (esyms_lookup (syms := syms) (rest := [.efl]) (by exact hr.inbox) (by exact hr.flt) (by rfl) h)
  unfold encodeOnBlock encodeSession
  rw [List.cons_append, h1]

theorem decode_on_block {bytes out : List Byte} {pad : Nat} {s : State} (hr : Idle s) (hp : pad ≤ 7) (hpz : pad ≠ 0 → bytes ≠ [])
    (hw : walkBits s.ts { dcur := root, out := [] } (streamBits bytes pad) = some { dcur := root, out := out }) :
    ∃ t, decodeOnBlock bytes pad s = .ok (t, out) := by
  have hpn : (BitVec.ofNat 8 pad).toNat = pad := by simp; omega
  obtain ⟨t, rs, h1, h2, h3, h4⟩ := decoder_session (s := { s with inbox := (decodeSession bytes (BitVec.ofNat 8 pad)).map encode }) (more := []) hr.flt hr.dph
    (pad := BitVec.ofNat 8 pad) (by omega) (fun h => hpz (by rintro rfl; exact h rfl)) (by rw [hpn]; exact hw) (by simp)
  have hlen : (decodeSession bytes (BitVec.ofNat 8 pad)).length = bytes.length + 2 := by simp [decodeSession]
  have := issueAll_of_run (decodeSession bytes (BitVec.ofNat 8 pad)) (s := { s with inbox := (decodeSession bytes (BitVec.ofNat 8 pad)).map encode }) rfl (by rw [hlen]; exact h1) h2 h3
  have hs : { s with inbox := [] } = s := by
    have := hr.inbox; cases s; simp only at this; subst this; rfl
  change issueAll (decodeSession bytes (BitVec.ofNat 8 pad)) { s with inbox := [] } = _ at this
  rw [hs] at this
  refine ⟨{ t with inbox := [] }, ?_⟩
  unfold decodeOnBlock
  rw [this]
  simp only
  rw [h4]

end Sys2Proof.Software
end

