-- ==== Sys2Proof/Laws/Pipeline.lean ====
section
/-! SUPPORT. What `compress` and `decompress` give (45_host_context.md R190 to R192), in loadable and in ROM blocks. -/

namespace Sys2Proof.Software

open Sys2Proof.Machine Sys2Proof.Laws

/-- The table the host enumerates has R172's invariant and counts a 4-byte integer holds. -/
theorem enum_spec {enumOrder : FreqTable → FreqTable} (he : ∀ table, (enumOrder table).Perm table) {input : List Byte}
    (hne : input ≠ []) (hlt : input.length < 2 ^ 31) :
    enumOrder (analyze input) ≠ [] ∧ ((enumOrder (analyze input)).map Prod.fst).Nodup ∧
    (∀ e ∈ enumOrder (analyze input), 0 < e.2 ∧ e.2 < 2 ^ 31) ∧
    (∀ b ∈ input, b ∈ (enumOrder (analyze input)).map Prod.fst) ∧
    ((enumOrder (analyze input)).map Prod.snd).sum = input.length := by
  obtain ⟨hnd, hcount, hall⟩ := analyze_spec input
  have hp := he (analyze input)
  have hall' : ∀ b ∈ input, b ∈ (enumOrder (analyze input)).map Prod.fst :=
    fun b hb => (hp.map Prod.fst).symm.subset (hall b hb)
  refine ⟨?_, (hp.map Prod.fst).nodup_iff.mpr hnd, ?_, hall', ((hp.map Prod.snd).sum_eq).trans (analyze_sum input)⟩
  · intro h0
    obtain ⟨b, hb⟩ := List.exists_mem_of_ne_nil _ hne
    have := hall' b hb
    rw [h0] at this
    cases this
  · intro e hm
    have := hcount e (hp.subset hm)
    omega

/-- Counts a 4-byte integer holds pass the test of `compress`. -/
theorem counts_small {table : FreqTable} (h : ∀ e ∈ table, 0 < e.2 ∧ e.2 < 2 ^ 31) :
    ¬ (table.any fun entry => decide (2 ^ 31 ≤ entry.2)) = true := by
  intro ha
  obtain ⟨e, he1, he2⟩ := List.any_eq_true.mp ha
  have := h e he1
  simp at he2
  omega

/-- Symbols of a tree have codes in it, one for one. -/
theorem codes_of_symbols {tree : Tree} {input : List Byte} (h : ∀ b ∈ input, b ∈ tree.symbols) :
    ∃ codes : List Code, input.map (codeIn tree) = codes.map some ∧ codes.length = input.length ∧
      ∀ e ∈ input.zip codes, e ∈ deriveCodes tree := by
  induction input with
  | nil => exact ⟨[], rfl, rfl, by simp⟩
  | cons b input ih =>
    obtain ⟨codes, a1, a2, a3⟩ := ih fun b hb => h b (by simp [hb])
    obtain ⟨c, hc, hmem⟩ := codeIn_some (h b (by simp))
    refine ⟨c :: codes, by simp [a1, hc], by simp [a2], ?_⟩
    intro e he
    rw [List.zip_cons_cons] at he
    rcases List.mem_cons.mp he with rfl | he
    · exact hmem
    · exact a3 e he

/-- `RST` and the loading of a tree's codes, in a loadable block. -/
theorem ready_codes {t : Tree} {s : State} (hi : s.inbox = []) (hm : s.cfg.storeMode = .loadable) (h : t.symbols.length ≤ 256) :
    ∃ u ps, issueAll (.rst :: loadSteps s.cfg.storeMode (ldCodes t)) s = .ok (u, ps) ∧ Idle u ∧
      ∀ sym, u.readCT sym = codeIn t sym := by
  obtain ⟨s1, h1, r1, hcfg, -, -⟩ := issue_rst hi
  obtain ⟨u, ps, h2, r2, -, h3⟩ := load_codes (t := t) (s := s1) ⟨r1, by rw [hcfg, hm]⟩ h
  exact ⟨u, _, by rw [hm]; exact issueAll_cons h1 h2, r2.toIdle, h3⟩

/-- `RST` and the loading of a tree, in a loadable block. -/
theorem ready_tree {t : Tree} {s : State} (hi : s.inbox = []) (hm : s.cfg.storeMode = .loadable) (h : t.size ≤ 512) :
    ∃ u ps, issueAll (.rst :: loadSteps s.cfg.storeMode (ldTree t)) s = .ok (u, ps) ∧ Idle u ∧ Holds u.ts t 0 := by
  obtain ⟨s1, h1, r1, hcfg, -, -⟩ := issue_rst hi
  obtain ⟨u, ps, h2, r2, -, h3⟩ := load_tree (t := t) (s := s1) ⟨r1, by rw [hcfg, hm]⟩ h
  exact ⟨u, _, by rw [hm]; exact issueAll_cons h1 h2, r2.toIdle, h3⟩

/-- `RST` alone, in a ROM block: no loading command exists, the stores are the images (70_reset_and_hazards.md R245). -/
theorem ready_rom {s : State} (cmds : List Instr) (hi : s.inbox = []) (hm : s.cfg.storeMode = .rom) :
    ∃ u ps, issueAll (.rst :: loadSteps s.cfg.storeMode cmds) s = .ok (u, ps) ∧ Idle u ∧ u.ct = s.cfg.romCt ∧
      u.ts = s.cfg.romTs := by
  obtain ⟨s1, h1, r1, -, hct, hts⟩ := issue_rst hi
  refine ⟨s1, _, by rw [hm]; exact issueAll_cons h1 rfl, r1, ?_, ?_⟩
  · rw [hct]; simp only [State.resetOf, hm]
  · rw [hts]; simp only [State.resetOf, hm]

/-- A compression whose code table has the input's codes succeeds, and this is its result: the container holds the
packed form of these codes. -/
theorem compress_run {hp : HostParams} {input : List Byte} {s u : State} {ps : List (List Byte)} {tree : Tree}
    {codes : List Code} (he : ∀ table, (hp.enumOrder table).Perm table) (hne : input ≠ []) (hlt : input.length < 2 ^ 31)
    (ht : build hp.tieBreak (hp.enumOrder (analyze input)) = some tree)
    (h1 : issueAll (.rst :: loadSteps s.cfg.storeMode (ldCodes tree)) s = .ok (u, ps)) (hu : Idle u)
    (hc : input.map u.readCT = codes.map some) :
    ∃ v, (let packed := packBits codes.flatten
      let pad := padCount codes.flatten.length
      let container := writeContainer (hp.enumOrder (analyze input)) packed pad
      compress hp input s =
        .ok { block := v, container := container, statistics := statisticsOf input packed pad container }) := by
  obtain ⟨-, -, htc, -⟩ := enum_spec he hne hlt
  obtain ⟨v, hv⟩ := encode_on_block hu hc
  refine ⟨v, ?_⟩
  unfold compress
  rw [if_neg hne]
  simp only
  rw [if_neg (counts_small htc), ht]
  simp only
  rw [h1]
  simp only
  rw [hv]

/-- A compression that meets a byte without a code ends in LookupError (45_host_context.md R182). -/
theorem compress_lookup {hp : HostParams} {input : List Byte} {s u : State} {ps : List (List Byte)} {tree : Tree}
    (he : ∀ table, (hp.enumOrder table).Perm table) (hne : input ≠ []) (hlt : input.length < 2 ^ 31)
    (ht : build hp.tieBreak (hp.enumOrder (analyze input)) = some tree)
    (h1 : issueAll (.rst :: loadSteps s.cfg.storeMode (ldCodes tree)) s = .ok (u, ps)) (hu : Idle u)
    (hc : ∃ b ∈ input, u.readCT b = none) : compress hp input s = .error .lookupError := by
  obtain ⟨-, -, htc, -⟩ := enum_spec he hne hlt
  unfold compress
  rw [if_neg hne]
  simp only
  rw [if_neg (counts_small htc), ht]
  simp only
  rw [h1]
  simp only
  rw [encode_on_block_lookup hu hc]

/-- The tree of an input's table: it has the input's bytes, each once. -/
theorem build_input {hp : HostParams} {input : List Byte} (hb : hp.tieBreak.Admissible)
    (he : ∀ table, (hp.enumOrder table).Perm table) (hne : input ≠ []) (hlt : input.length < 2 ^ 31) :
    ∃ tree, build hp.tieBreak (hp.enumOrder (analyze input)) = some tree ∧ tree.symbols.Nodup ∧
      ∀ b ∈ input, b ∈ tree.symbols := by
  obtain ⟨htne, htn, -, hall, -⟩ := enum_spec he hne hlt
  obtain ⟨tree, ht, hsym⟩ := build_some hb htne
  exact ⟨tree, ht, hsym.nodup_iff.mpr htn, fun b hbi => hsym.symm.subset (hall b hbi)⟩

/-- A compression in a loadable block. -/
theorem compress_ok {hp : HostParams} {input : List Byte} {s : State} (hb : hp.tieBreak.Admissible)
    (he : ∀ table, (hp.enumOrder table).Perm table) (hne : input ≠ []) (hlt : input.length < 2 ^ 31)
    (hm : s.cfg.storeMode = .loadable) (hi : s.inbox = []) :
    ∃ tree v, ∃ codes : List Code, build hp.tieBreak (hp.enumOrder (analyze input)) = some tree ∧ tree.symbols.Nodup ∧
      input.map (codeIn tree) = codes.map some ∧
      codes.length = input.length ∧ (∀ e ∈ input.zip codes, e ∈ deriveCodes tree) ∧
      (let packed := packBits codes.flatten
       let pad := padCount codes.flatten.length
       let container := writeContainer (hp.enumOrder (analyze input)) packed pad
       compress hp input s =
         .ok { block := v, container := container, statistics := statisticsOf input packed pad container }) := by
  obtain ⟨tree, ht, hsn, hin⟩ := build_input hb he hne hlt
  obtain ⟨u, ps, h1, hu, hct⟩ := ready_codes (t := tree) hi hm (nodup_length hsn)
  obtain ⟨codes, c1, c2, c3⟩ := codes_of_symbols hin
  obtain ⟨v, hv⟩ := compress_run he hne hlt ht h1 hu (codes := codes) (by
    rw [← c1]; exact List.map_congr_left fun b _ => hct b)
  exact ⟨tree, v, codes, ht, hsn, c1, c2, c3, hv⟩

/-- A decompression whose tree store has the codes the container was packed with gives the input. -/
theorem decompress_run {hp : HostParams} {container input : List Byte} {table : FreqTable} {s u : State}
    {ps : List (List Byte)} {tree : Tree} {codes : List Code}
    (hr : readContainer container =
      .ok { table := table, packed := packBits codes.flatten, pad := padCount codes.flatten.length })
    (ht : build hp.tieBreak (hp.enumOrder table) = some tree)
    (h1 : issueAll (.rst :: loadSteps s.cfg.storeMode (ldTree tree)) s = .ok (u, ps)) (hu : Idle u)
    (hl : codes.length = input.length) (hc : ∀ e ∈ input.zip codes, IsCodeOf u.ts e.1 e.2) :
    ∃ t, decompress hp container s = .ok (t, input) := by
  have hpad := padCount_lt codes.flatten.length
  have h8 := byteCount_padCount codes.flatten.length
  obtain ⟨t, ht'⟩ := decode_on_block (bytes := packBits codes.flatten) (out := input)
    (pad := padCount codes.flatten.length) hu (by omega)
    (by
      intro h h'
      have hb := congrArg List.length h'
      rw [packBits_length] at hb
      simp only [List.length_nil] at hb
      omega)
    (by
      rw [streamBits_packBits]
      have := walkBits_codes (ts := u.ts) (input.zip codes) [] hc
      rwa [List.map_snd_zip (by omega), List.map_fst_zip (by omega), List.nil_append] at this)
  refine ⟨t, ?_⟩
  unfold decompress
  rw [hr]
  simp only
  rw [ht]
  simp only
  rw [h1]
  exact ht'

end Sys2Proof.Software
end

