-- ==== Sys2Proof/Tests/Slice0.lean ====
section
/-! SUPPORT. Tests of single steps, with the expected values of 95_test_vectors.md (the section is named before each
group), and for each obligation with hypotheses a witness that meets them. -/

namespace Sys2Proof.Tests

open Sys2Proof Sys2Proof.Machine Sys2Proof.Software

/-! ### Helpers -/

/-- The bytes of the responses, and the state with the port empty, after one transaction. -/
def after (t : List Byte) (s : State) : Option (List Byte × State) :=
  match step { s with inbox := [t] } with
  | .next u => some (u.outbox.flatMap responseBytes, { u with outbox := [] })
  | .fault _ => none
  | .refused _ => none

/-- T1 of 95_test_vectors.md section 2. -/
def tree1 : Tree := .node 5 (.leaf 0x62#8 1) (.leaf 0x61#8 4)
def ct1 : Store CTEntry := [(0x61, some [true]), (0x62, some [false])]
def ts1 : Store Node := [(0, .internal 1#9 2#9), (1, .leaf 0x62#8), (2, .leaf 0x61#8)]

/-- T2. -/
def ts2 : Store Node := [(0, .internal 1#9 6#9), (1, .internal 2#9 5#9), (2, .internal 3#9 4#9), (3, .leaf 0x64#8),
  (4, .leaf 0x63#8), (5, .leaf 0x62#8), (6, .leaf 0x61#8)]

/-- T3, with the code of its symbol. -/
def ct3 : Store CTEntry := [(0x61, some [false])]
def ts3 : Store Node := [(0, .leaf 0x61#8)]

/-- After reset with T1 loaded. -/
def loaded : State := { State.reset with ct := ct1, ts := ts1 }
def encoding : State := { loaded with eph := .run }
def decoding : State := { loaded with dph := .run }
def holding : State := { decoding with dhold := 0xF0#8, dhv := true }
def faulted : State := { State.reset with flt := some .lookupError }

/-- A block whose stores are fixed at T1. -/
def romState : State := State.resetOf (Config.rom ct1 ts1)

/-! ### WellFormed: what its checks refuse (30_encoding.md R78, R81) -/

theorem test_wf_refuses_empty_code : (Instr.ldc 0x61#8 []).wf = false := by decide
theorem test_wf_refuses_long_code : (Instr.ldc 0x61#8 (List.replicate 256 true)).wf = false := by decide +kernel
theorem test_wf_accepts_bounds : (Instr.ldc 0x61#8 [true]).wf = true ∧
    (Instr.ldc 0x61#8 (List.replicate 255 true)).wf = true := by decide +kernel
theorem test_rom_has_no_ldl : (Instr.ldl 0#9 0x61#8).existsIn .rom = false ∧
    (Instr.ldl 0#9 0x61#8).existsIn .loadable = true := by decide
theorem test_memory_refuses_unsorted : Memory.wf { loaded with ts := [(1, .leaf 0x62#8), (0, .leaf 0x61#8)] } = false := by
  decide
theorem test_memory_refuses_listed_invalid : Memory.wf { loaded with ts := [(1, .invalid)] } = false := by decide
theorem test_memory_refuses_illegal_code : Memory.wf { loaded with ct := [(1, some [])] } = false := by decide

/-! ### Decoding (95_test_vectors.md sections 2 and 3.1) -/

theorem test_decode_rst : decode .loadable [0x01#8] = .command .rst := by decide
theorem test_decode_stat : decode .loadable [0x02#8] = .command .stat := by decide
theorem test_decode_clrc : decode .loadable [0x10#8] = .command .clrc := by decide
theorem test_decode_ldc : decode .loadable [0x11#8, 0x41#8, 0x09#8, 0xB3#8, 0x80#8] =
    .command (.ldc 0x41#8 [true, false, true, true, false, false, true, true, true]) := by decide
theorem test_decode_ldc_longest :
    decode .loadable ([0x11#8, 0x41#8, 0xFF#8] ++ List.replicate 31 0xFF#8 ++ [0xFC#8]) =
      .command (.ldc 0x41#8 (List.replicate 254 true ++ [false])) := by decide +kernel
theorem test_decode_clrt : decode .loadable [0x18#8] = .command .clrt := by decide
theorem test_decode_ldl : decode .loadable [0x19#8, 0x01#8, 0xFF#8, 0x61#8] = .command (.ldl 511#9 0x61#8) := by decide
theorem test_decode_ldi : decode .loadable [0x1A#8, 0x00#8, 0x00#8, 0x00#8, 0x01#8, 0x00#8, 0x02#8] =
    .command (.ldi 0#9 1#9 2#9) := by decide
theorem test_decode_est : decode .rom [0x20#8] = .command .est := by decide
theorem test_decode_esym : decode .rom [0x21#8, 0x61#8] = .command (.esym 0x61#8) := by decide
theorem test_decode_efl : decode .rom [0x22#8] = .command .efl := by decide
theorem test_decode_dst : decode .rom [0x30#8] = .command .dst := by decide
theorem test_decode_dbyte : decode .rom [0x31#8, 0xF0#8] = .command (.dbyte 0xF0#8) := by decide
theorem test_decode_dend : decode .rom [0x32#8, 0x08#8] = .command (.dend 0x08#8) := by decide

/-- The reasons of 30_encoding.md R80, in its order. -/
theorem test_decode_illegal :
    decode .loadable [] = .illegal .empty ∧ decode .loadable [0x00#8] = .illegal .reservedOpcode ∧
    decode .loadable [0xFF#8] = .illegal .reservedOpcode ∧ decode .rom [0x10#8] = .illegal .storeFixed ∧
    decode .loadable [0x01#8, 0x00#8] = .illegal .wrongLength ∧ decode .loadable [0x21#8] = .illegal .wrongLength ∧
    decode .loadable [0x11#8, 0x61#8, 0x00#8] = .illegal .wrongLength ∧
    decode .loadable [0x11#8, 0x61#8, 0x09#8, 0xFF#8] = .illegal .wrongLength ∧
    decode .loadable [0x11#8, 0x61#8, 0x01#8, 0xC0#8] = .illegal .reservedBits ∧
    decode .loadable [0x19#8, 0x02#8, 0x00#8, 0x61#8] = .illegal .reservedBits ∧
    decode .loadable [0x1A#8, 0x00#8, 0x00#8, 0x00#8, 0x01#8, 0x02#8, 0x00#8] = .illegal .reservedBits := by decide

/-- The words of 95_test_vectors.md section 2, written by the encoder. -/
theorem test_encode : encode (.ldc 0x63#8 [false, false, true]) = [0x11#8, 0x63#8, 0x03#8, 0x20#8] ∧
    encode (.ldi 1#9 2#9 5#9) = [0x1A#8, 0x00#8, 0x01#8, 0x00#8, 0x02#8, 0x00#8, 0x05#8] ∧
    encode (.ldl 6#9 0x61#8) = [0x19#8, 0x00#8, 0x06#8, 0x61#8] := by decide

/-- Opcode-table words (log 5). -/
theorem test_table_word : decodeTableWord 16 0x6121 = some (.esym 0x61#8) ∧ decodeTableWord 8 0x22 = some .efl ∧
    decodeTableWord 8 0x1A = some (.ldi 0#9 0#9 0#9) ∧ decodeTableWord 8 0x11 = none ∧
    decodeTableWord 32 0x80016111 = some (.ldc 0x61#8 [true]) := by decide

theorem test_fetch_word_runs_next :
    step (State.reset.withFetchWord 8 0x20) = .next (State.answered { State.reset with eph := .run } []) := rfl

/-! ### One step (95_test_vectors.md sections 3.2 to 3.5) -/

theorem test_rst : after [0x01#8] { holding with flt := some .corruptStreamError, ts := ts2 } =
    some ([0x00#8, 0x00#8], State.reset) := by decide
theorem test_rst_rom : after [0x01#8] { romState with eph := .run, eacc := 0x80#8, ecnt := 1#3 } =
    some ([0x00#8, 0x00#8], romState) := by decide
theorem test_stat : after [0x02#8] { encoding with eacc := 0xF0#8, ecnt := 5#3 } =
    some ([0x00#8, 0x02#8, 0x00#8, 0x85#8], { encoding with eacc := 0xF0#8, ecnt := 5#3 }) := by decide
theorem test_stat_faulted : after [0x02#8] { holding with flt := some .corruptStreamError } =
    some ([0x00#8, 0x02#8, 0x02#8, 0x60#8], { holding with flt := some .corruptStreamError }) := by decide
theorem test_clrc : after [0x10#8] { holding with ct := [(0x63, some [true])] } =
    some ([0x00#8, 0x00#8], { holding with ct := [] }) := by decide
theorem test_clrt_in_session : after [0x18#8] { encoding with dph := .run } =
    some ([0x86#8, 0x00#8], { encoding with dph := .run, flt := some .sequenceError }) := by decide
theorem test_clrt : after [0x18#8] encoding = some ([0x00#8, 0x00#8], { encoding with ts := [] }) := by decide
theorem test_ldc : after [0x11#8, 0x63#8, 0x03#8, 0x20#8] loaded =
    some ([0x00#8, 0x00#8], { loaded with ct := ct1 ++ [(0x63, some [false, false, true])] }) := by decide
theorem test_ldc_overwrites : after [0x11#8, 0x61#8, 0x01#8, 0x00#8] loaded =
    some ([0x00#8, 0x00#8], { loaded with ct := [(0x61, some [false]), (0x62, some [false])] }) := by decide
theorem test_ldl : after [0x19#8, 0x00#8, 0x02#8, 0x61#8] State.reset =
    some ([0x00#8, 0x00#8], { State.reset with ts := [(2, .leaf 0x61#8)] }) := by decide
theorem test_ldl_in_session : after [0x19#8, 0x00#8, 0x00#8, 0x61#8] decoding =
    some ([0x86#8, 0x00#8], { decoding with flt := some .sequenceError }) := by decide
theorem test_ldi : after [0x1A#8, 0x00#8, 0x02#8, 0x00#8, 0x00#8, 0x01#8, 0xFF#8] loaded =
    some ([0x00#8, 0x00#8], { loaded with
      ts := [(0, .internal 1#9 2#9), (1, .leaf 0x62#8), (2, .internal 0#9 511#9)] }) := by decide
theorem test_ldi_rom : after [0x1A#8, 0x00#8, 0x00#8, 0x00#8, 0x00#8, 0x00#8, 0x00#8] romState =
    some ([0x85#8, 0x00#8], { romState with flt := some .commandError }) := by decide
theorem test_est : after [0x20#8] loaded = some ([0x00#8, 0x00#8], encoding) := by decide
theorem test_est_twice : after [0x20#8] { encoding with eacc := 0x80#8, ecnt := 1#3 } =
    some ([0x86#8, 0x00#8], { encoding with eacc := 0x80#8, ecnt := 1#3, flt := some .sequenceError }) := by decide
theorem test_esym_completes_byte : after [0x21#8, 0x61#8] { encoding with eacc := 0xFE#8, ecnt := 7#3 } =
    some ([0x00#8, 0x01#8, 0xFF#8], encoding) := by decide
theorem test_esym_crosses_byte :
    let code := [true, false, true, true, false, false, true, true, true]
    after [0x21#8, 0x41#8] { encoding with ct := [(0x41, some code)], eacc := 0x80#8, ecnt := 1#3 } =
      some ([0x00#8, 0x01#8, 0xD9#8], { encoding with ct := [(0x41, some code)], eacc := 0xC0#8, ecnt := 2#3 }) := by
  decide
theorem test_esym_lookup : after [0x21#8, 0x7A#8] { encoding with eacc := 0x80#8, ecnt := 1#3 } =
    some ([0x81#8, 0x00#8], { encoding with eacc := 0x80#8, ecnt := 1#3, flt := some .lookupError }) := by decide
theorem test_efl : after [0x22#8] { encoding with eacc := 0x80#8, ecnt := 1#3 } =
    some ([0x00#8, 0x02#8, 0x07#8, 0x80#8], loaded) := by decide
theorem test_efl_empty : after [0x22#8] encoding = some ([0x00#8, 0x01#8, 0x00#8], loaded) := by decide
theorem test_dst : after [0x30#8] loaded = some ([0x00#8, 0x00#8], decoding) := by decide
theorem test_dst_twice : after [0x30#8] holding =
    some ([0x86#8, 0x00#8], { holding with flt := some .sequenceError }) := by decide
theorem test_dbyte : after [0x31#8, 0x00#8] holding =
    some ([0x00#8, 0x08#8, 0x61#8, 0x61#8, 0x61#8, 0x61#8, 0x62#8, 0x62#8, 0x62#8, 0x62#8],
      { holding with dhold := 0x00#8 }) := by decide
theorem test_dbyte_inside_code : after [0x31#8, 0xCD#8] { holding with ts := ts2, dhold := 0x62#8 } =
    some ([0x00#8, 0x04#8, 0x62#8, 0x61#8, 0x64#8, 0x61#8],
      { holding with ts := ts2, dhold := 0xCD#8, dcur := 1#9 }) := by decide
theorem test_dend : after [0x32#8, 0x03#8] { holding with dhold := 0xF7#8 } =
    some ([0x00#8, 0x05#8, 0x61#8, 0x61#8, 0x61#8, 0x61#8, 0x62#8], loaded) := by decide
theorem test_dend_inside_code : after [0x32#8, 0x00#8] { holding with ts := ts2, dhold := 0x62#8 } =
    some ([0x82#8, 0x00#8], { holding with ts := ts2, dhold := 0x62#8, flt := some .corruptStreamError }) := by decide
theorem test_refused : after [0x22#8] faulted = some ([0xC1#8, 0x00#8], faulted) ∧
    after [0x00#8] faulted = some ([0xC1#8, 0x00#8], faulted) := by decide
theorem test_illegal_faults : after [0x01#8, 0x00#8] State.reset =
    some ([0x85#8, 0x00#8], { State.reset with flt := some .commandError }) := by decide

/-! ### The host's software (95_test_vectors.md S1, sections 2 and 4; 30_encoding.md R89, R90) -/

/-- A tie-break for tables without ties. -/
def byFreq : TieBreak := fun _ _ a b => decide (a.freq < b.freq)

theorem test_build_s1 : build byFreq [(0x61#8, 4), (0x62#8, 1)] = some tree1 := by decide
theorem test_codes_s1 : deriveCodes tree1 = [(0x62#8, [false]), (0x61#8, [true])] := by decide
theorem test_codes_t2 : (build byFreq [(0x61#8, 8), (0x62#8, 4), (0x63#8, 2), (0x64#8, 1)]).map deriveCodes =
    some [(0x64#8, [false, false, false]), (0x63#8, [false, false, true]), (0x62#8, [false, true]),
      (0x61#8, [true])] := by decide
/-- A tie-break that looks at the merges already made: on equal frequencies it puts merged nodes last. -/
def mergedLast : TieBreak := fun _ merges a b =>
  decide (a.freq < b.freq ∨ (a.freq = b.freq ∧ a ∉ merges ∧ b ∈ merges))

/-- A tie-break that looks at the counts: on equal frequencies it puts a leaf of a symbol that occurs thrice first. -/
def frequentFirst : TieBreak := fun counts _ a b =>
  decide (a.freq < b.freq ∨ (a.freq = b.freq ∧ (a.symbols.any fun sym => decide (3 ≤ counts sym)) = true))

theorem test_tieBreak_sees_merges_and_counts :
    build mergedLast [(0x61#8, 1), (0x62#8, 2), (0x63#8, 3)] =
      some (.node 6 (.leaf 0x63#8 3) (.node 3 (.leaf 0x61#8 1) (.leaf 0x62#8 2))) ∧
    build frequentFirst [(0x61#8, 1), (0x62#8, 2), (0x63#8, 3)] =
      some (.node 6 (.leaf 0x63#8 3) (.node 3 (.leaf 0x61#8 1) (.leaf 0x62#8 2))) := by decide
theorem test_ldtree_s1 : ldTree tree1 = [.clrt, .ldi 0#9 1#9 2#9, .ldl 1#9 0x62#8, .ldl 2#9 0x61#8] := by decide
theorem test_container_s1 : writeContainer [(0x61#8, 4), (0x62#8, 1)] [0xF0#8] 3 =
    [0x00#8, 0x00#8, 0x00#8, 0x02#8, 0x61#8, 0x00#8, 0x00#8, 0x00#8, 0x04#8, 0x62#8, 0x00#8, 0x00#8, 0x00#8, 0x01#8,
      0x00#8, 0x00#8, 0x00#8, 0x03#8, 0xF0#8] := by decide
theorem test_container_padding : readContainer [0x00#8, 0x00#8, 0x00#8, 0x01#8, 0x61#8, 0x00#8, 0x00#8, 0x00#8, 0x01#8,
    0x00#8, 0x00#8, 0x01#8, 0x00#8, 0x00#8] = .error .formatError := by rfl
/-- A ROM block with the one-symbol code of 0x61. -/
def romBlock : State := State.resetOf (Config.rom [(0x61, some [false])] [(0, .leaf 0x61#8)])

theorem test_compress_rom :
    (compress { tieBreak := byFreq, enumOrder := id } [0x61#8, 0x61#8] romBlock).map Compressed.container =
      .ok [0x00#8, 0x00#8, 0x00#8, 0x01#8, 0x61#8, 0x00#8, 0x00#8, 0x00#8, 0x02#8, 0x00#8, 0x00#8, 0x00#8, 0x06#8,
        0x00#8] ∧
    (compress { tieBreak := byFreq, enumOrder := id } [0x62#8] romBlock).map Compressed.container =
      .error .lookupError := ⟨by rfl, by rfl⟩
theorem test_assemble : assembleLine "LDC 'c', \"001\" ; code".toList = some [.ldc 0x63#8 [false, false, true]] ∧
    assembleLine "LDL 2, 'a'".toList = some [.ldl 2#9 0x61#8] ∧
    assembleLine "DECODE 0xF0, 3".toList = some [.dst, .dbyte 0xF0#8, .dend 0x03#8] ∧
    assembleLine "ESYM97".toList = some [.esym 0x61#8] ∧
    assembleLine "DECODE , 0".toList = some [.dst, .dend 0x00#8] ∧
    assembleLine "ENCODE \"ab\"".toList = some [.est, .esym 0x61#8, .esym 0x62#8, .efl] ∧
    assembleLine "ESYM 256".toList = none := by decide

/-! ### Witnesses: states and operands that meet the hypotheses of each obligation, clause by clause -/

/-- A state with one transaction delivered. -/
def given (t : List Byte) (s : State) : State := { s with inbox := [t] }

theorem witness_DecodeOfEncodeIsTheCommand :
    (Instr.ldc 0xFF#8 [true]).wf = true ∧ (Instr.ldc 0xFF#8 [true]).existsIn .loadable = true ∧
    (Instr.dend 0xFF#8).wf = true ∧ (Instr.dend 0xFF#8).existsIn .rom = true := by decide

theorem witness_AcceptedTransactionIsTheEncoding :
    decode .loadable [0x19#8, 0x01#8, 0xFF#8, 0xFF#8] = .command (.ldl 511#9 0xFF#8) ∧
    decode .rom [0x31#8, 0x00#8] = .command (.dbyte 0x00#8) := by decide

theorem witness_IllegalCommandsAreThoseOfTheRule_reserved : ∀ o : Opcode, o.byte ≠ 0x00#8 ∧ o.byte ≠ 0xFF#8 := by
  intro o; cases o <;> decide
theorem witness_IllegalCommandsAreThoseOfTheRule_rom : StoreMode.rom = .rom ∧ Opcode.ldi.writesStore = true ∧
    ¬ (StoreMode.rom = .rom ∧ Opcode.dend.writesStore = true) := by decide
theorem witness_IllegalCommandsAreThoseOfTheRule_length : WrongLength .ldc [0x11#8, 0x61#8, 0x00#8] ∧
    WrongLength .ldc [0x11#8, 0x61#8, 0x09#8, 0xFF#8] ∧ WrongLength .rst [0x01#8, 0x00#8] := by
  unfold WrongLength; decide
theorem witness_IllegalCommandsAreThoseOfTheRule_bits :
    (¬ WrongLength .ldl [0x19#8, 0x02#8, 0x00#8, 0x61#8] ∧ ReservedBitSet .ldl [0x19#8, 0x02#8, 0x00#8, 0x61#8]) ∧
    (¬ WrongLength .ldc [0x11#8, 0x61#8, 0x07#8, 0x01#8] ∧ ReservedBitSet .ldc [0x11#8, 0x61#8, 0x07#8, 0x01#8]) := by
  refine ⟨⟨by unfold WrongLength; decide, by unfold ReservedBitSet fieldValue; decide⟩,
    ⟨by unfold WrongLength; decide, 7, by decide⟩⟩
theorem witness_IllegalCommandsAreThoseOfTheRule_legal :
    ¬ WrongLength .ldl [0x19#8, 0x01#8, 0xFF#8, 0x61#8] ∧ ¬ ReservedBitSet .ldl [0x19#8, 0x01#8, 0xFF#8, 0x61#8] := by
  unfold WrongLength ReservedBitSet fieldValue; decide
theorem witness_IllegalCommandsAreThoseOfTheRule_step :
    (given [] loaded).inbox = [] :: [] ∧ (given [] loaded).flt = none ∧ (given [] faulted).flt = some .lookupError ∧
    decode loaded.cfg.storeMode [] = .illegal .empty := by decide

theorem witness_RomModeHasNoStoreWritingCommand :
    0x10#8 ∈ [0x10#8, 0x11#8, 0x18#8, 0x19#8, 0x1A#8] ∧ 0x1A#8 ∈ [0x10#8, 0x11#8, 0x18#8, 0x19#8, 0x1A#8] := by decide

theorem witness_StepPerformsTheDecodedCommand :
    ((given [0x20#8] loaded).inbox = [0x20#8] :: [] ∧
      decode (given [0x20#8] loaded).cfg.storeMode [0x20#8] = .command .est) ∧ State.reset.inbox = [] := by decide

theorem witness_SequenceErrorExactlyWhenThePhaseIsWrong :
    loaded.flt = none ∧ Instr.efl.wf = true ∧ Instr.efl.existsIn loaded.cfg.storeMode = true ∧
    phaseOk .efl loaded = false ∧ encoding.flt = none ∧ phaseOk .efl encoding = true := by decide

theorem witness_FaultedBlockRefuses : (given [] faulted).flt = some .lookupError ∧
    (given [] faulted).inbox = [] :: [] ∧ ([] : List Byte) ≠ [0x01#8] ∧ ([] : List Byte) ≠ [0x02#8] := by decide

theorem witness_FaultIsPrecise : ∃ t, step (given [0x20#8] encoding) = .next t ∧
    t.outbox = (given [0x20#8] encoding).outbox ++ [{ status := .fault .sequenceError, payload := [] }] :=
  ⟨_, rfl, rfl⟩

theorem witness_FaultFlagChangesOnlyByFaultOrReset :
    (∃ t, step (given [0x20#8] encoding) = .next t ∧ t.flt ≠ none) ∧
    ∃ t, step (given [0x01#8] faulted) = .next t ∧ t.flt = none := ⟨⟨_, rfl, by decide⟩, ⟨_, rfl, by decide⟩⟩

theorem witness_CommandSeesNoLaterCommand : ∃ t,
    { loaded with inbox := [[0x20#8], [0x22#8]] }.inbox = [0x20#8] :: [[0x22#8]] ∧
    step { loaded with inbox := [[0x20#8], [0x22#8]] } = .next t := ⟨_, rfl, rfl⟩

theorem witness_OneBoundedResponsePerTransaction : ∃ t, codeTableWf (given [0x31#8, 0x00#8] holding).ct = true ∧
    (given [0x31#8, 0x00#8] holding).inbox = [0x31#8, 0x00#8] :: [] ∧
    step (given [0x31#8, 0x00#8] holding) = .next t ∧
    decode loaded.cfg.storeMode [0x31#8, 0x00#8] = .command (.dbyte 0x00#8) := ⟨_, by decide, rfl, rfl, by decide⟩

theorem witness_ResetValues : Config.loadable.storeMode = .loadable ∧ (Config.rom ct1 ts1).storeMode = .rom := by decide
theorem witness_RstRestoresTheResetState : faulted.cfg.storeMode = .loadable ∧ romState.cfg.storeMode = .rom := by decide

theorem witness_StatDoesNotRevealHiddenState : ∃ t u, exec .stat holding = .next t ∧
    exec .stat { holding with eacc := 0xFF#8, dcur := 511#9, dhold := 0x00#8, ct := [], ts := [] } = .next u :=
  ⟨_, _, rfl, rfl⟩

theorem witness_ClrcClearsTheCodeTable :
    (loaded.flt = none ∧ loaded.cfg.storeMode = .loadable ∧ loaded.eph = .idle) ∧
    (encoding.flt = none ∧ encoding.cfg.storeMode = .loadable ∧ encoding.eph = .run) ∧
    ((given [0x10#8] romState).flt = none ∧ romState.cfg.storeMode = .rom ∧
      (given [0x10#8] romState).inbox = [0x10#8] :: []) := by decide

theorem witness_LdcWritesOneCode :
    (loaded.flt = none ∧ Code.legal [true] = true ∧ loaded.cfg.storeMode = .loadable ∧ loaded.eph = .idle) ∧
    (encoding.flt = none ∧ encoding.cfg.storeMode = .loadable ∧ encoding.eph = .run) ∧
    ((given [0x11#8] romState).flt = none ∧ romState.cfg.storeMode = .rom ∧
      (given [0x11#8] romState).inbox = (0x11#8 :: []) :: []) ∧
    ((given [0x11#8, 0x61#8, 0x00#8] loaded).inbox = (0x11#8 :: 0x61#8 :: 0x00#8 :: []) :: [] ∧ (0x00#8 : Byte) = 0#8) ∧
    ([0xFF#8].length ≠ ((0x09#8 : Byte).toNat + 7) / 8) ∧
    ((0x07#8 : Byte).toNat ≤ 7 ∧ 7 < 8 * [0x01#8].length ∧ bitOfBytes [0x01#8] 7 = true) := by decide

theorem witness_ClrtClearsTheTreeStore :
    (loaded.flt = none ∧ loaded.cfg.storeMode = .loadable ∧ loaded.dph = .idle) ∧
    (decoding.flt = none ∧ decoding.cfg.storeMode = .loadable ∧ decoding.dph = .run) ∧
    ((given [0x18#8] romState).flt = none ∧ romState.cfg.storeMode = .rom ∧
      (given [0x18#8] romState).inbox = [0x18#8] :: []) := by decide

theorem witness_LdlWritesOneLeaf :
    ((511#9 : Index).toNat = 256 * (0x01#8 : Byte).toNat + (0xFF#8 : Byte).toNat) ∧
    (loaded.flt = none ∧ loaded.cfg.storeMode = .loadable ∧ loaded.dph = .idle) ∧
    (decoding.flt = none ∧ decoding.cfg.storeMode = .loadable ∧ decoding.dph = .run) ∧
    ((given [0x19#8] romState).flt = none ∧ romState.cfg.storeMode = .rom ∧
      (given [0x19#8] romState).inbox = (0x19#8 :: []) :: []) ∧
    ((given [0x19#8, 0x02#8, 0x00#8, 0x61#8] loaded).inbox = [0x19#8, 0x02#8, 0x00#8, 0x61#8] :: [] ∧
      512 ≤ 256 * (0x02#8 : Byte).toNat + (0x00#8 : Byte).toNat) := by decide

theorem witness_LdiWritesOneInternalNode :
    ((511#9 : Index).toNat = 256 * (0x01#8 : Byte).toNat + (0xFF#8 : Byte).toNat ∧
      (0#9 : Index).toNat = 256 * (0x00#8 : Byte).toNat + (0x00#8 : Byte).toNat) ∧
    (loaded.flt = none ∧ loaded.cfg.storeMode = .loadable ∧ loaded.dph = .idle) ∧
    (decoding.flt = none ∧ decoding.cfg.storeMode = .loadable ∧ decoding.dph = .run) ∧
    ((given [0x1A#8] romState).flt = none ∧ romState.cfg.storeMode = .rom ∧
      (given [0x1A#8] romState).inbox = (0x1A#8 :: []) :: []) ∧
    ((given [0x1A#8, 0x00#8, 0x00#8, 0x00#8, 0x01#8, 0x02#8, 0x00#8] loaded).inbox =
        [0x1A#8, 0x00#8, 0x00#8, 0x00#8, 0x01#8, 0x02#8, 0x00#8] :: [] ∧
      512 ≤ 256 * (0x02#8 : Byte).toNat + (0x00#8 : Byte).toNat) := by decide

theorem witness_LoadingTwiceIsLoadingOnce : ∃ t u, exec (.ldl 511#9 0x61#8) loaded = .next t ∧
    exec (.ldl 511#9 0x61#8) t = .next u := ⟨_, _, rfl, rfl⟩

theorem witness_StoresReadBackWhatWasWritten : Memory.wf loaded = true ∧ Code.legal [false] = true := by decide

theorem witness_EstOpensAnEncoderSession :
    (loaded.flt = none ∧ loaded.eph = .idle) ∧ (encoding.flt = none ∧ encoding.eph = .run) := by decide

theorem witness_PackPlacesOneBit : (7#3 : BitVec 3).toNat = 7 ∧ (6#3 : BitVec 3).toNat < 7 ∧ 7 < 8 := by decide

theorem witness_EsymAppendsTheCode :
    (encoding.flt = none ∧ encoding.eph = .run ∧ encoding.readCT 0x61#8 = some [true] ∧ Code.legal [true] = true) ∧
    encoding.readCT 0x7A#8 = none ∧ (loaded.flt = none ∧ loaded.eph = .idle) := by decide

theorem witness_EflFlushesAndCloses :
    (encoding.flt = none ∧ encoding.eph = .run) ∧ (loaded.flt = none ∧ loaded.eph = .idle) := by decide

theorem witness_UnusedPackerBitsStayZero : ∃ t,
    (∀ i, i + (given [0x21#8, 0x61#8] { encoding with eacc := 0x80#8, ecnt := 1#3 }).ecnt.toNat < 8 →
      (given [0x21#8, 0x61#8] { encoding with eacc := 0x80#8, ecnt := 1#3 }).eacc.getLsbD i = false) ∧
    step (given [0x21#8, 0x61#8] { encoding with eacc := 0x80#8, ecnt := 1#3 }) = .next t := by
  refine ⟨_, ?_, rfl⟩
  intro i hi
  simp only [given] at hi ⊢
  have : i < 7 := by
    change i + 1 < 8 at hi
    omega
  rcases (by omega : i = 0 ∨ i = 1 ∨ i = 2 ∨ i = 3 ∨ i = 4 ∨ i = 5 ∨ i = 6) with
    h | h | h | h | h | h | h <;> subst h <;> rfl

theorem witness_PackedFormHasTheStreamBits : 7 < 8 * (packBits [true]).length ∧ 7 ≤ padMax ∧
    8 * 1 = [true].length + 7 := by decide

theorem witness_DstOpensADecoderSession :
    (loaded.flt = none ∧ loaded.dph = .idle) ∧ (decoding.flt = none ∧ decoding.dph = .run) := by decide

theorem witness_WalkStepFollowsTheTree : readNode ts1 511#9 = .invalid ∧ readNode ts3 0#9 = .leaf 0x61#8 ∧
    readNode ts1 0#9 = .internal 1#9 2#9 ∧ readNode ts1 2#9 = .leaf 0x61#8 ∧ readNode ts2 1#9 = .internal 2#9 5#9 ∧
    readNode [(0, Node.internal 1#9 1#9)] 1#9 = .invalid := by decide

theorem witness_ConsumeWalksMostSignificantFirst : 8 ≤ 8 ∧
    consume ts1 { dcur := 0#9, out := [] } 0xF0#8 1 = some { dcur := 0#9, out := [0x61#8] } := by decide

theorem witness_DbyteWalksTheHeldByte :
    (decoding.flt = none ∧ decoding.dph = .run ∧ decoding.dhv = false) ∧
    (holding.flt = none ∧ holding.dph = .run ∧ holding.dhv = true) ∧ (loaded.flt = none ∧ loaded.dph = .idle) := by decide

/-- The tests of `DEND` meet at `pad = 8`, 7 and 0, with a byte held and without. -/
theorem witness_DendWalksTheUnpaddedBits :
    (holding.flt = none ∧ holding.dph = .run ∧ 7 < (8#8 : Byte).toNat) ∧
    (decoding.flt = none ∧ decoding.dph = .run ∧ (7#8 : Byte).toNat ≤ 7 ∧ 7#8 ≠ 0#8 ∧ decoding.dhv = false) ∧
    (decoding.dcur = 0#9) ∧
    ({ decoding with dcur := 1#9 }.dhv = false ∧ { decoding with dcur := 1#9 }.dcur ≠ 0#9) ∧
    (holding.dph = .run ∧ (7#8 : Byte).toNat ≤ 7 ∧ (0#8 : Byte).toNat ≤ 7 ∧ holding.dhv = true) ∧
    (loaded.flt = none ∧ loaded.dph = .idle) := by decide

theorem witness_PaddingBitsAreNotExamined :
    ∀ j, j < 8 - (3#8 : Byte).toNat → holding.dhold.getLsbD (7 - j) = (0xF7#8 : Byte).getLsbD (7 - j) := by decide

/-- T2 with a walk that stands on node 1. -/
def midCode : State := { holding with ts := ts2, dcur := 1#9 }

theorem witness_WalkStandsOnAnInternalNode :
    (midCode.flt = none → midCode.dcur ≠ 0#9 →
      midCode.dph = .run ∧ ∃ c0 c1, midCode.readTS midCode.dcur = .internal c0 c1) ∧ midCode.dcur ≠ 0#9 ∧
    ∃ t, step (given [0x31#8, 0x80#8] midCode) = .next t :=
  ⟨fun _ _ => ⟨rfl, _, _, rfl⟩, by decide, _, rfl⟩

theorem witness_OpenSessionLocksItsStore : ∃ t, step (given [0x10#8] { encoding with dph := .run }) = .next t ∧
    (given [0x10#8] encoding).inbox.head? ≠ some [0x01#8] ∧ encoding.eph = .run ∧ decoding.dph = .run :=
  ⟨_, rfl, by decide, rfl, rfl⟩

theorem witness_CommandsTouchOnlyTheirUnit :
    (∃ t, exec (.esym 0x61#8) encoding = .next t) ∧ (∃ t, exec (.dbyte 0x00#8) holding = .next t) ∧
    (∃ t, exec (.ldc 0x61#8 [true]) loaded = .next t) ∧ (∃ t, exec (.ldi 0#9 1#9 2#9) loaded = .next t) :=
  ⟨⟨_, rfl⟩, ⟨_, rfl⟩, ⟨_, rfl⟩, ⟨_, rfl⟩⟩

theorem witness_RomStoresNeverChange : romState.cfg.storeMode = .rom ∧ romState.ct = romState.cfg.romCt ∧
    romState.ts = romState.cfg.romTs ∧ ∃ t, step (given [0x18#8] romState) = .next t := ⟨rfl, rfl, rfl, _, rfl⟩

theorem witness_NodeWordHoldsTheNode : nodeOfWord 0x80402#20 = some (.internal 2#9 2#9) := by decide
theorem witness_CodeEntryFields : Code.legal [true] = true ∧ 254 < 255 := by decide

theorem loaded_inv : loaded.Inv where
  memory := by decide
  packer := by intro i _; simp [loaded, State.reset, State.resetOf]
  packerIdle := fun _ => ⟨rfl, rfl⟩
  walker := fun _ h => absurd rfl h
  hold := fun _ => rfl
  holdIdle := fun _ => rfl
  rom := by intro h; cases h
  config := by intro h; cases h

theorem witness_EveryStepKeepsTheInvariant : loaded.Inv ∧ ∃ t, step loaded = .next t := ⟨loaded_inv, _, rfl⟩

def encodeRun : State := { loaded with inbox := (Instr.est :: [.esym 0x61#8, .stat] ++ [Instr.efl]).map encode }

theorem witness_EncoderSessionPacksTheStream : ∃ t,
    encodeRun.inbox = (Instr.est :: [.esym 0x61#8, .stat] ++ [Instr.efl]).map encode ++ [] ∧
    (∀ i ∈ [Instr.esym 0x61#8, .stat], i.wf = true ∧ i ≠ .est ∧ i ≠ .efl) ∧ runSteps 4 encodeRun = .next t ∧
    t.outbox = encodeRun.outbox ++ [{ status := .ok, payload := [] }, { status := .ok, payload := [] },
      { status := .ok, payload := [0x00#8, 0x81#8] }, { status := .ok, payload := [0x07#8, 0x80#8] }] ∧
    AllOk [{ status := .ok, payload := [] }, { status := .ok, payload := [] },
      { status := .ok, payload := [0x00#8, 0x81#8] }, { status := .ok, payload := [0x07#8, 0x80#8] }] :=
  ⟨_, rfl, by decide, rfl, rfl, by unfold AllOk; decide⟩

def decodeRun : State := { loaded with inbox := (Instr.dst :: [.dbyte 0x80#8, .est] ++ [Instr.dend 7#8]).map encode }

theorem witness_DecoderSessionWalksTheStream : ∃ t,
    decodeRun.inbox = (Instr.dst :: [.dbyte 0x80#8, .est] ++ [Instr.dend 7#8]).map encode ++ [] ∧
    (∀ i ∈ [Instr.dbyte 0x80#8, .est], i.wf = true ∧ i ≠ .dst ∧ ∀ p, i ≠ .dend p) ∧ runSteps 4 decodeRun = .next t ∧
    t.outbox = decodeRun.outbox ++ [{ status := .ok, payload := [] }, { status := .ok, payload := [] },
      { status := .ok, payload := [] }, { status := .ok, payload := [0x61#8] }] ∧
    AllOk [{ status := .ok, payload := [] }, { status := .ok, payload := [] },
      { status := .ok, payload := [] }, { status := .ok, payload := [0x61#8] }] :=
  ⟨_, rfl, by simp [Instr.wf], rfl, rfl, by unfold AllOk; decide⟩

theorem ts1_holds : Holds ts1 tree1 0 := ⟨rfl, rfl, rfl⟩

theorem witness_WalkReadsConcatenatedCodes : WellFormedImage ts1 :=
  holds_wellFormed ts1_holds (by decide) (by decide)

theorem ct1_matches : TableMatches ct1 ts1 := by
  intro sym h
  rw [held_iff ts1_holds] at h
  have hc := derive_isCode ts1_holds
  simp only [tree1, Tree.symbols, List.cons_append, List.nil_append, List.mem_cons, List.not_mem_nil, or_false] at h
  rcases h with rfl | rfl
  · exact ⟨[false], hc (0x62#8, [false]) (by decide), rfl⟩
  · exact ⟨[true], hc (0x61#8, [true]) (by decide), rfl⟩

theorem witness_RoundTripThroughTheBlock :
    WellFormedImage loaded.ts ∧ TableMatches loaded.ct loaded.ts ∧ (∀ sym ∈ [0x61#8], HeldSymbol loaded.ts sym) ∧
    loaded.flt = none ∧ loaded.eph = .idle ∧ loaded.dph = .idle ∧
    { loaded with inbox := (encodeSession [0x61#8]).map encode }.inbox = (encodeSession [0x61#8]).map encode ++ [] ∧
    packedForm (payloadsOf [{ status := .ok, payload := [] }, { status := .ok, payload := [] },
      { status := .ok, payload := [0x07#8, 0x80#8] }]) = ([0x80#8], 7) ∧
    { loaded with inbox := (decodeSession [0x80#8] 7#8).map encode }.inbox =
      (decodeSession [0x80#8] (BitVec.ofNat 8 7)).map encode ++ [] := by
  refine ⟨witness_WalkReadsConcatenatedCodes, ct1_matches, ?_, rfl, rfl, rfl, rfl, rfl, rfl⟩
  intro sym h
  obtain rfl := List.mem_singleton.mp h
  exact (held_iff ts1_holds _).mpr (by decide)

def single : State := { State.reset with ct := ct3, ts := ts3 }

theorem witness_OneSymbolTree : single.readTS 0#9 = .leaf 0x61#8 ∧ single.readCT 0x61#8 = some [false] ∧
    single.flt = none ∧ single.eph = .idle ∧ single.dph = .idle ∧
    { single with inbox := (encodeSession (List.replicate 3 0x61#8)).map encode }.inbox =
      (encodeSession (List.replicate 3 0x61#8)).map encode ++ [] ∧
    { single with inbox := (decodeSession [0x00#8] 5#8).map encode }.inbox =
      (decodeSession (List.replicate ((3 + 7) / 8) 0#8) (BitVec.ofNat 8 ((8 - 3 % 8) % 8))).map encode ++ [] := by decide

theorem witness_EmptySessions : loaded.flt = none ∧ loaded.eph = .idle ∧ loaded.dph = .idle ∧
    { loaded with inbox := [[0x20#8], [0x22#8]] }.inbox = [0x20#8] :: [0x22#8] :: [] ∧
    { loaded with inbox := [[0x30#8], [0x32#8, 0x00#8]] }.inbox = [0x30#8] :: [0x32#8, 0x00#8] :: [] := by decide

theorem witness_ContainerReadsBack : ([(0x61#8, 4), (0x62#8, 1)] : FreqTable) ≠ [] ∧
    (([(0x61#8, 4), (0x62#8, 1)] : FreqTable).map Prod.fst).Nodup ∧
    (∀ e ∈ ([(0x61#8, 4), (0x62#8, 1)] : FreqTable), 0 < e.2 ∧ e.2 < 2 ^ 31) ∧ 7 ≤ 7 := by decide

theorem witness_TruncatedContainerIsAFormatError : ([(0x61#8, 4), (0x62#8, 1)] : FreqTable) ≠ [] ∧
    ([(0x61#8, 4), (0x62#8, 1)] : FreqTable).length ≤ 256 ∧ 17 < 4 + 5 * 2 + 4 := by decide

/-- A number list that spells a tree; no spelling begins another. -/
def spell : Tree → List Nat
  | .leaf sym f => [0, sym.toNat, f]
  | .node f a b => 1 :: f :: (spell a ++ spell b)

theorem spell_cancel (a b : Tree) (x y : List Nat) (h : spell a ++ x = spell b ++ y) : a = b ∧ x = y := by
  induction a generalizing b x y with
  | leaf sym f =>
    cases b with
    | leaf sym' f' =>
      simp only [spell, List.cons_append, List.nil_append, List.cons.injEq, true_and] at h
      exact ⟨by rw [BitVec.eq_of_toNat_eq h.1, h.2.1], h.2.2⟩
    | node => simp [spell] at h
  | node f a1 a2 ih1 ih2 =>
    cases b with
    | leaf => simp [spell] at h
    | node f' b1 b2 =>
      simp only [spell, List.cons_append, List.cons.injEq, true_and, List.append_assoc] at h
      obtain ⟨h1, h2⟩ := ih1 _ _ _ h.2
      obtain ⟨h3, h4⟩ := ih2 _ _ _ h2
      exact ⟨by rw [h.1, h1, h3], h4⟩

/-- An order of the kind 45_host_context.md R176 asks for: by frequency, then by the spelling. -/
def bySpelling : NodeOrder := fun a b => decide (a.freq < b.freq ∨ (a.freq = b.freq ∧ spell a < spell b))

theorem bySpelling_admissible : NodeOrder.Admissible bySpelling where
  irrefl a := by simp [bySpelling]
  trans a b c h1 h2 := by
    simp only [bySpelling, decide_eq_true_eq] at *
    rcases h1 with h1 | ⟨h1, h1'⟩ <;> rcases h2 with h2 | ⟨h2, h2'⟩
    · exact .inl (by omega)
    · exact .inl (by omega)
    · exact .inl (by omega)
    · exact .inr ⟨by omega, lt_trans h1' h2'⟩
  total a b h := by
    simp only [bySpelling, decide_eq_true_eq]
    have hne : spell a ≠ spell b := fun he => h (spell_cancel a b [] [] (by simpa using he)).1
    rcases Nat.lt_trichotomy a.freq b.freq with hf | hf | hf
    · exact .inl (.inl hf)
    · rcases lt_or_gt_of_ne hne with hs | hs
      · exact .inl (.inr ⟨hf, hs⟩)
      · exact .inr (.inr ⟨hf.symm, hs⟩)
    · exact .inr (.inl hf)
  refines a b h := by simp [bySpelling, h]

theorem witness_TreeIsAFunctionOfTheTable : TieBreak.Admissible (fun _ _ => bySpelling) ∧
    (([(0x61#8, 2), (0x62#8, 2)] : FreqTable).map Prod.fst).Nodup ∧
    ([(0x61#8, 2), (0x62#8, 2)] : FreqTable).Perm [(0x62#8, 2), (0x61#8, 2)] :=
  ⟨fun _ _ => bySpelling_admissible, by decide, List.Perm.swap _ _ _⟩

theorem witness_LoadingATreeGivesMatchingStores : tree1.symbols.Nodup ∧ State.reset.flt = none ∧
    State.reset.eph = .idle ∧ State.reset.dph = .idle ∧ State.reset.cfg.storeMode = .loadable ∧
    State.reset.inbox = [] := by decide

theorem witness_DecompressOfCompressIsTheInput : TieBreak.Admissible (fun _ _ => bySpelling) ∧
    (∀ table : FreqTable, (id table).Perm table) ∧ [0x61#8] ≠ [] ∧ [0x61#8].length < 2 ^ 31 ∧
    faulted.cfg.storeMode = .loadable ∧ faulted.inbox = [] :=
  ⟨fun _ _ => bySpelling_admissible, fun _ => List.Perm.refl _, by decide, by decide, rfl, rfl⟩

theorem witness_CompressReportsItsStatistics : TieBreak.Admissible (fun _ _ => bySpelling) ∧
    (∀ table : FreqTable, (id table).Perm table) ∧ [0x61#8] ≠ [] ∧ [0x61#8].length < 2 ^ 31 ∧
    faulted.cfg.storeMode = .loadable ∧ faulted.inbox = [] := witness_DecompressOfCompressIsTheInput

theorem witness_TestablePropertiesOfTheSource : TieBreak.Admissible (fun _ _ => bySpelling) ∧
    (∀ table : FreqTable, (id table).Perm table) ∧ faulted.cfg.storeMode = .loadable ∧ faulted.inbox = [] ∧
    ([0x61#8] ≠ [] ∧ [0x61#8].length < 2 ^ 31) ∧ 0 < 5000 ∧ 5000 < 2 ^ 31 :=
  ⟨fun _ _ => bySpelling_admissible, fun _ => List.Perm.refl _, rfl, rfl, by decide, by decide, by decide⟩

theorem witness_RomBlocksCompressWithTheirImages_coded : TieBreak.Admissible (fun _ _ => bySpelling) ∧
    (∀ table : FreqTable, (id table).Perm table) ∧ romBlock.cfg.storeMode = .rom ∧ romBlock.inbox = [] ∧
    ([0x61#8] ≠ [] ∧ [0x61#8].length < 2 ^ 31) ∧ TableMatches romBlock.cfg.romCt romBlock.cfg.romTs ∧
    ∀ b ∈ [0x61#8], HeldSymbol romBlock.cfg.romTs b := by
  refine ⟨fun _ _ => bySpelling_admissible, fun _ => List.Perm.refl _, rfl, rfl, by decide, ?_, ?_⟩
  · rintro sym ⟨i, ⟨path, hp⟩, hl⟩
    cases path with
    | nil =>
      cases hp
      have h0 : Node.leaf 0x61#8 = Node.leaf sym := hl
      cases h0
      exact ⟨[false], by unfold IsCodeOf; rw [if_pos (by decide)], by decide⟩
    | cons b path => cases hp
  · intro b hb
    rw [List.mem_singleton] at hb
    subst hb
    exact ⟨root, ⟨[], rfl⟩, rfl⟩

theorem witness_RomBlocksCompressWithTheirImages_uncoded : romBlock.cfg.storeMode = .rom ∧ romBlock.inbox = [] ∧
    ∃ b ∈ [0x62#8], Store.read none romBlock.cfg.romCt b.toNat = none := by decide

end Sys2Proof.Tests
end

section
/-! SUPPORT. The statements about the state as a whole: its values after reset, what a step can write of it, the
invariant of Safety.lean, and the hardware form of the store entries. -/

namespace Sys2Proof.Machine

/-! ### What a step can do -/

/-- The outcomes of a step, with the whole next state of each (60_exceptions.md R218). The transaction taken is no
longer waiting in the state the command works on. -/
inductive StepOutcome (s : State) : State → Prop
  /-- No transaction was delivered. -/
  | idle : StepOutcome s s
  /-- `RST`. -/
  | restarted (rest : List (List Byte)) (head : s.inbox = [0x01#8] :: rest) :
      StepOutcome s (complete [] (restart { s with inbox := rest }))
  /-- `STAT`. -/
  | reported (rest : List (List Byte)) :
      StepOutcome s (complete (bytes16 (statusWord s)) { s with inbox := rest })
  /-- Any other transaction while the block is faulted. -/
  | refused (rest : List (List Byte)) (c : Cause) (faulted : s.flt = some c) :
      StepOutcome s (refuse c { s with inbox := rest })
  /-- An illegal transaction, or a command whose body raises. -/
  | raised (rest : List (List Byte)) (c : Cause) (unfaulted : s.flt = none) :
      StepOutcome s (raiseFault c { s with inbox := rest })
  /-- A command whose body completes. -/
  | completed (rest : List (List Byte)) (i : Instr) (u : State) (payload : List Byte) (unfaulted : s.flt = none)
      (body : bodyOf i { s with inbox := rest } = .done u payload) : StepOutcome s (complete payload u)

theorem step_outcome {s t : State} (h : step s = .next t) : StepOutcome s t := by
  obtain ⟨-, rfl⟩ | ⟨x, rest, i, hi, hd, he⟩ | ⟨x, rest, w, -, -, rfl⟩ := step_cases h
  · exact .idle
  · obtain ⟨rfl, rfl⟩ | ⟨-, rfl⟩ | ⟨-, -, ⟨c, hf, rfl⟩ | ⟨c, hf, -, rfl⟩ | ⟨u, p, hf, hb, rfl⟩⟩ := exec_cases he
    · exact .restarted rest (decode_rst hd ▸ hi)
    · exact .reported rest
    · exact .refused rest c hf
    · exact .raised rest c hf
    · exact .completed rest i u p hf hb
  · obtain ⟨c, hf, hp⟩ | ⟨hf, hp⟩ := performIllegal_cases { s with inbox := rest }
    · exact hp ▸ .refused rest c hf
    · exact hp ▸ .raised rest _ hf

/-! ### The invariant -/

/-- The invariant speaks neither of the transactions waiting nor of the responses given. -/
theorem inv_withPort {s : State} (hs : s.Inv) (inbox : List (List Byte)) (outbox : List Response) :
    State.Inv { s with inbox := inbox, outbox := outbox } :=
  ⟨hs.memory, hs.packer, hs.packerIdle, hs.walker, hs.hold, hs.holdIdle, hs.rom, hs.config⟩

theorem inv_respond {s : State} (hs : s.Inv) (r : Response) : (respond r s).Inv := inv_withPort hs _ _

theorem inv_complete {s : State} (hs : s.Inv) (payload : List Byte) : (complete payload s).Inv := inv_respond hs _

theorem inv_refuse {s : State} (hs : s.Inv) (c : Cause) : (refuse c s).Inv := inv_respond hs _

/-- A fault writes `FLT` alone, and the walk is free while faulted (10_state.md R29). -/
theorem inv_raiseFault {s : State} (hs : s.Inv) (c : Cause) : (raiseFault c s).Inv :=
  { memory := hs.memory
    packer := hs.packer
    packerIdle := hs.packerIdle
    walker := fun hf => nomatch hf
    hold := hs.hold
    holdIdle := hs.holdIdle
    rom := hs.rom
    config := hs.config }

theorem resetOf_memory_wf {cfg : Config} (h : cfg.storeMode = .rom → configWf cfg = true) :
    Memory.wf (State.resetOf cfg) = true := by
  rw [memory_wf_iff]
  cases hm : cfg.storeMode with
  | loadable => simp [resetOf_ct_loadable hm, resetOf_ts_loadable hm, codeTableWf, codesLegal, treeStoreWf]
  | rom => rw [resetOf_ct_rom hm, resetOf_ts_rom hm]; exact (configWf_iff cfg).mp (h hm)

/-- The reset state of every configuration whose images, where it has them, are in canonical form. -/
theorem inv_resetOf {cfg : Config} (h : cfg.storeMode = .rom → configWf cfg = true) : (State.resetOf cfg).Inv :=
  { memory := resetOf_memory_wf h
    packer := fun _ _ => BitVec.getLsbD_zero
    packerIdle := fun _ => ⟨rfl, rfl⟩
    walker := fun _ hd => absurd rfl hd
    hold := fun _ => rfl
    holdIdle := fun _ => rfl
    rom := fun hm => ⟨resetOf_ct_rom hm, resetOf_ts_rom hm⟩
    config := h }

theorem inv_restart {s : State} (hs : s.Inv) : (restart s).Inv := inv_withPort (inv_resetOf hs.config) _ _

/-- In `ROM` mode no command's body writes a store (70_reset_and_hazards.md R243). -/
theorem body_rom {i : Instr} {s t : State} {p : List Byte} (h : bodyOf i s = .done t p)
    (hm : s.cfg.storeMode = .rom) : t.ct = s.ct ∧ t.ts = s.ts := by
  obtain ⟨hct, hts⟩ := body_stores h
  simpa [hm] using And.intro hct hts

theorem inv_body {i : Instr} {s t : State} {p : List Byte} (hs : s.Inv) (hf : s.flt = none)
    (h : bodyOf i s = .done t p) : t.Inv := by
  obtain ⟨-, hcfg, -, -⟩ := bodyOf_frame h
  obtain ⟨hpackerIdle, hhold, hholdIdle⟩ := body_idle h hs.packerIdle hs.hold hs.holdIdle
  exact
    { memory := body_memory h hs.memory
      packer := body_packer h hs.packer
      packerIdle := hpackerIdle
      walker := fun _ => body_walker h (hs.walker hf)
      hold := hhold
      holdIdle := hholdIdle
      rom := fun hm => by
        rw [hcfg] at hm ⊢
        obtain ⟨hct, hts⟩ := body_rom h hm
        exact hct ▸ hts ▸ hs.rom hm
      config := hcfg ▸ hs.config }

/-- Settles O44: each outcome of a step keeps the invariant. -/
theorem everyStepKeepsTheInvariant : Obligations.EveryStepKeepsTheInvariant := by
  intro s t hs h
  have taken (rest) : State.Inv { s with inbox := rest } := inv_withPort hs rest s.outbox
  cases step_outcome h with
  | idle => exact hs
  | restarted rest => exact inv_complete (inv_restart (taken rest)) _
  | reported rest => exact inv_complete (taken rest) _
  | refused rest c => exact inv_refuse (taken rest) c
  | raised rest c => exact inv_raiseFault (taken rest) c
  | completed rest i u p hf hb => exact inv_complete (inv_body (taken rest) hf hb) p

/-- Settles O43: the default configuration has no images. -/
theorem resetMeetsTheInvariant : Obligations.ResetMeetsTheInvariant :=
  inv_resetOf (cfg := Config.loadable) (fun hm => nomatch hm)

/-! ### What a step writes -/

/-- Settles O10: of the outcomes of a step only `RST` and a fault write `FLT`. -/
theorem faultFlagChangesOnlyByFaultOrReset : Obligations.FaultFlagChangesOnlyByFaultOrReset := by
  intro s t h
  cases step_outcome h with
  | idle => exact .inl rfl
  | restarted rest hi => exact .inr (.inr ⟨by rw [hi]; rfl, rfl⟩)
  | reported => exact .inl rfl
  | refused => exact .inl rfl
  | raised rest c hf => exact .inr (.inl ⟨hf, c, rfl, lastResponse_raiseFault _ _⟩)
  | completed rest i u p hf hb => exact .inl (bodyOf_frame hb).1

/-- A body that completes writes the code table only when no encoder session is open, and the tree store only when
no decoder session is open (10_state.md R27). -/
theorem body_locked {i : Instr} {s t : State} {p : List Byte} (h : bodyOf i s = .done t p) :
    (s.eph = .run → t.ct = s.ct) ∧ (s.dph = .run → t.ts = s.ts) := by
  obtain ⟨hct, hts⟩ := body_stores h
  exact ⟨fun he => hct.resolve_right fun h' => phase_run he h'.2,
    fun hd => hts.resolve_right fun h' => phase_run hd h'.2⟩

/-- Settles O38: of the outcomes of a step only `RST` and a command's body write a store. -/
theorem openSessionLocksItsStore : Obligations.OpenSessionLocksItsStore := by
  intro s t h hrst
  cases step_outcome h with
  | idle => exact ⟨fun _ => rfl, fun _ => rfl⟩
  | restarted rest hi => exact absurd (by rw [hi]; rfl) hrst
  | reported => exact ⟨fun _ => rfl, fun _ => rfl⟩
  | refused => exact ⟨fun _ => rfl, fun _ => rfl⟩
  | raised => exact ⟨fun _ => rfl, fun _ => rfl⟩
  | completed rest i u p hf hb => exact (body_locked hb :)

/-! ### What a command leaves alone -/

/-- The fields an encoder command may write taken from `t`, the others from `s` (10_state.md R20). -/
def encoderFrame (s t : State) : State :=
  { s with flt := t.flt, eph := t.eph, eacc := t.eacc, ecnt := t.ecnt, outbox := t.outbox }

/-- The fields a decoder command may write taken from `t`, the others from `s` (10_state.md R20). -/
def decoderFrame (s t : State) : State :=
  { s with flt := t.flt, dph := t.dph, dcur := t.dcur, dhold := t.dhold, dhv := t.dhv, outbox := t.outbox }

/-- The fields `CLRC` and `LDC` may write taken from `t`, the others from `s` (10_state.md R20). -/
def codeTableFrame (s t : State) : State := { s with flt := t.flt, ct := t.ct, outbox := t.outbox }

/-- The fields `CLRT`, `LDL` and `LDI` may write taken from `t`, the others from `s` (10_state.md R20). -/
def treeStoreFrame (s t : State) : State := { s with flt := t.flt, ts := t.ts, outbox := t.outbox }

/-- What holds after a refusal, after a fault and after a completed body holds after every command but `RST` and
`STAT`. -/
theorem exec_gated {i : Instr} {s t : State} {P : State → Prop} (hi : i ≠ .rst ∧ i ≠ .stat) (h : exec i s = .next t)
    (refused : ∀ c, P (refuse c s)) (raised : ∀ c, P (raiseFault c s))
    (completed : ∀ u p, bodyOf i s = .done u p → P (complete p u)) : P t := by
  obtain ⟨rfl, -⟩ | ⟨rfl, -⟩ | ⟨-, -, ⟨c, -, rfl⟩ | ⟨c, -, -, rfl⟩ | ⟨u, p, -, hb, rfl⟩⟩ := exec_cases h
  · exact absurd rfl hi.1
  · exact absurd rfl hi.2
  · exact refused c
  · exact raised c
  · exact completed u p hb

theorem body_encoderFrame {i : Instr} {s t : State} {p : List Byte}
    (hi : i = .est ∨ (∃ sym, i = .esym sym) ∨ i = .efl) (h : bodyOf i s = .done t p) : t = encoderFrame s t := by
  obtain rfl | ⟨sym, rfl⟩ | rfl := hi <;> simp only [bodyOf] at h <;> obtain ⟨-, h⟩ := needPhase_done h
  · cases h; rfl
  · rw [encodeSymbol] at h
    split at h <;> cases h
    rfl
  · cases h; rfl

theorem body_decoderFrame {i : Instr} {s t : State} {p : List Byte}
    (hi : i = .dst ∨ (∃ b, i = .dbyte b) ∨ ∃ pad, i = .dend pad) (h : bodyOf i s = .done t p) :
    t = decoderFrame s t := by
  obtain rfl | ⟨b, rfl⟩ | ⟨pad, rfl⟩ := hi <;> simp only [bodyOf] at h <;> obtain ⟨-, h⟩ := needPhase_done h
  · cases h; rfl
  · rw [takeByte] at h
    split at h <;> cases h
    rfl
  · rw [endStream] at h
    repeat' split at h
    all_goals cases h
    rfl

theorem body_codeTableFrame {i : Instr} {s t : State} {p : List Byte}
    (hi : i = .clrc ∨ ∃ sym c, i = .ldc sym c) (h : bodyOf i s = .done t p) : t = codeTableFrame s t := by
  obtain rfl | ⟨sym, c, rfl⟩ := hi <;> obtain ⟨-, h⟩ := needLoadable_done h
  · obtain ⟨-, h⟩ := needPhase_done h
    cases h; rfl
  · obtain ⟨-, h⟩ := needLegalCode_done h
    obtain ⟨-, h⟩ := needPhase_done h
    cases h; rfl

theorem body_treeStoreFrame {i : Instr} {s t : State} {p : List Byte}
    (hi : i = .clrt ∨ (∃ idx sym, i = .ldl idx sym) ∨ ∃ idx c0 c1, i = .ldi idx c0 c1)
    (h : bodyOf i s = .done t p) : t = treeStoreFrame s t := by
  obtain rfl | ⟨idx, sym, rfl⟩ | ⟨idx, c0, c1, rfl⟩ := hi <;> obtain ⟨-, h⟩ := needLoadable_done h <;>
    obtain ⟨-, h⟩ := needPhase_done h <;> cases h <;> rfl

/-- Settles O39: a refusal and a fault write `FLT` and the responses alone, and each body keeps its unit's frame. -/
theorem commandsTouchOnlyTheirUnit : Obligations.CommandsTouchOnlyTheirUnit := by
  intro i s t h
  refine ⟨fun hi => ?_, fun hi => ?_, fun hi => ?_, fun hi => ?_⟩
  · exact exec_gated (P := fun t => t = encoderFrame s t) (by grind) h (fun _ => rfl) (fun _ => rfl)
      fun u p hb => congrArg (complete p) (body_encoderFrame hi hb)
  · exact exec_gated (P := fun t => t = decoderFrame s t) (by grind) h (fun _ => rfl) (fun _ => rfl)
      fun u p hb => congrArg (complete p) (body_decoderFrame hi hb)
  · exact exec_gated (P := fun t => t = codeTableFrame s t) (by grind) h (fun _ => rfl) (fun _ => rfl)
      fun u p hb => congrArg (complete p) (body_codeTableFrame hi hb)
  · exact exec_gated (P := fun t => t = treeStoreFrame s t) (by grind) h (fun _ => rfl) (fun _ => rfl)
      fun u p hb => congrArg (complete p) (body_treeStoreFrame hi hb)

/-! ### The hardware form of the store entries -/

theorem toNat_append_eq_add {high low : Nat} (x : BitVec high) (y : BitVec low) :
    (x ++ y).toNat = x.toNat * 2 ^ low + y.toNat := by
  rw [BitVec.toNat_append, ← Nat.shiftLeft_add_eq_or_of_lt y.isLt, Nat.shiftLeft_eq]

theorem nodeOfWord_nodeWord (n : Node) : nodeOfWord (nodeWord n) = some n := by
  cases n with
  | invalid => decide
  | leaf sym =>
    have htag : (nodeWord (.leaf sym)).extractLsb' 18 2 = 1#2 := BitVec.extractLsb'_append_eq_left
    have hpayload : (nodeWord (.leaf sym)).extractLsb' 0 18 = (0#10 ++ sym : BitVec 18) :=
      BitVec.extractLsb'_append_eq_right
    have hzero : (0#10 ++ sym : BitVec 18).extractLsb' 8 10 = 0#10 := BitVec.extractLsb'_append_eq_left
    have hsym : (0#10 ++ sym : BitVec 18).extractLsb' 0 8 = sym := BitVec.extractLsb'_append_eq_right
    simp [nodeOfWord, htag, hpayload, hzero, hsym]
  | internal c0 c1 =>
    have htag : (nodeWord (.internal c0 c1)).extractLsb' 18 2 = 2#2 := BitVec.extractLsb'_append_eq_left
    have hpayload : (nodeWord (.internal c0 c1)).extractLsb' 0 18 = (c0 ++ c1 : BitVec 18) :=
      BitVec.extractLsb'_append_eq_right
    have hc0 : (c0 ++ c1 : BitVec 18).extractLsb' 9 9 = c0 := BitVec.extractLsb'_append_eq_left
    have hc1 : (c0 ++ c1 : BitVec 18).extractLsb' 0 9 = c1 := BitVec.extractLsb'_append_eq_right
    simp [nodeOfWord, htag, hpayload, hc0, hc1]

/-- A word is its tag above its payload (10_state.md R33). -/
theorem tag_append_payload {w : BitVec 20} {tag : BitVec 2} {payload : BitVec 18}
    (htag : (w.extractLsb' 18 2).toNat = tag.toNat) (hpayload : w.extractLsb' 0 18 = payload) :
    tag ++ payload = w := by
  rw [← BitVec.eq_of_toNat_eq htag, ← hpayload]
  exact BitVec.extractLsb'_append_extractLsb' (w := 2) (len := 18)

theorem nodeWord_of_nodeOfWord {w : BitVec 20} {n : Node} (h : nodeOfWord w = some n) : nodeWord n = w := by
  simp only [nodeOfWord] at h
  split at h
  next htag =>
    obtain ⟨hzero, hn⟩ := Option.ite_none_right_eq_some.mp h
    cases hn
    exact tag_append_payload (tag := 0#2) htag hzero
  next htag =>
    obtain ⟨hzero, hn⟩ := Option.ite_none_right_eq_some.mp h
    cases hn
    refine tag_append_payload (tag := 1#2) htag ?_
    rw [← hzero]
    exact (BitVec.extractLsb'_append_extractLsb' (w := 10) (len := 8)).symm
  next htag =>
    cases h
    exact tag_append_payload (tag := 2#2) htag (BitVec.extractLsb'_append_extractLsb' (w := 9) (len := 9)).symm
  next => cases h

theorem nodeWord_leaf_toNat (sym : Symbol) : (nodeWord (.leaf sym)).toNat = 2 ^ 18 + sym.toNat := by
  simp only [nodeWord, toNat_append_eq_add, BitVec.toNat_ofNat]
  omega

theorem nodeWord_internal_toNat (c0 c1 : Index) :
    (nodeWord (.internal c0 c1)).toNat = 2 * 2 ^ 18 + 512 * c0.toNat + c1.toNat := by
  simp only [nodeWord, toNat_append_eq_add, BitVec.toNat_ofNat]
  omega

/-- Settles O41: tag and payload are read back by the positions they were put at. -/
theorem nodeWordHoldsTheNode : Obligations.NodeWordHoldsTheNode :=
  ⟨nodeOfWord_nodeWord, fun _ _ => nodeWord_of_nodeOfWord, nodeWord_leaf_toNat, nodeWord_internal_toNat, rfl⟩

/-- Bit `i` of the bit field of a code (10_state.md R32). -/
theorem ctBitField_getLsbD (c : Code) {i : Nat} (hi : i < 255) : (ctBitField (some c)).getLsbD i = c.getD i false := by
  simp [ctBitField, BitVec.getLsbD_ofBoolListLE, hi]

/-- Settles O42: a legal code's length fits its 8 bits, and its bits stand from position 0 on. -/
theorem codeEntryFields : Obligations.CodeEntryFields := by
  refine ⟨rfl, rfl, fun c hc => ⟨len_toNat hc, fun i hi => ?_⟩⟩
  rw [ctBitField_getLsbD c hi]
  split
  · rfl
  · exact List.getD_eq_default _ _ (by omega)

/-! ### Reset -/

/-- Settles O14: the registers by `State.resetOf` itself, the stores by the mode. -/
theorem resetValues : Obligations.ResetValues := by
  refine ⟨fun cfg => ⟨rfl, rfl, rfl, rfl, rfl, rfl, rfl, rfl, fun hm => ⟨fun sym => ?_, fun i => ?_⟩,
    fun hm => ⟨fun sym => ?_, fun i => ?_⟩⟩, fun s => ⟨_, rfl, rfl⟩⟩
  · rw [State.readCT, resetOf_ct_loadable hm, read_nil]
  · rw [State.readTS, resetOf_ts_loadable hm, readNode, read_nil]
  · rw [State.readCT, resetOf_ct_rom hm]
  · rw [State.readTS, resetOf_ts_rom hm]

end Sys2Proof.Machine
end

section
/-! SUPPORT. The statements about the memory of the block (20_memory.md): the order of the commands, the stores read
and written, and the packed form of a bit stream. -/

namespace Sys2Proof.Machine

/-! ### The order of the commands (R62) -/

/-- An illegal transaction is answered without a look at the transactions waiting. -/
theorem performIllegal_inbox (s : State) (rest : List (List Byte)) :
    performIllegal { s with inbox := rest } = { performIllegal s with inbox := rest } :=
  perform_inbox _ s rest rfl

theorem performIllegal_keeps_inbox (s : State) : (performIllegal s).inbox = s.inbox := by
  obtain ⟨c, -, hp⟩ | ⟨-, hp⟩ := performIllegal_cases s
  · rw [hp, refuse_inbox]
  · rw [hp, raiseFault_inbox]

/-- Settles O11: the transaction decodes to the same in both states, and neither a command nor the answer to an
illegal transaction looks at those behind it. -/
theorem commandSeesNoLaterCommand : Obligations.CommandSeesNoLaterCommand := by
  intro s t x rest rest' hs h
  cases hd : decode s.cfg.storeMode x with
  | command i =>
    rw [step_command hs hd] at h
    refine ⟨(exec_keeps_inbox h).1, ?_⟩
    calc step { s with inbox := x :: rest' }
      _ = exec i { s with inbox := rest' } := step_command rfl hd
      _ = .next { t with inbox := rest' } :=
        exec_inbox (s := { s with inbox := rest }) rest' h
  | illegal why =>
    rw [step_illegal hs hd] at h
    cases h
    refine ⟨performIllegal_keeps_inbox _, ?_⟩
    calc step { s with inbox := x :: rest' }
      _ = .next (performIllegal { s with inbox := rest' }) := step_illegal rfl hd
      _ = .next { performIllegal { s with inbox := rest } with inbox := rest' } :=
        congrArg _ (performIllegal_inbox { s with inbox := rest } rest')

/-! ### The stores (R50 to R52, R59) -/

/-- A value that an unlisted index does not read as, written twice. -/
theorem write_write {α : Type} [DecidableEq α] {d v : α} (hv : v ≠ d) (m : Store α) (i : Nat) :
    Store.write d (Store.write d m i v) i v = Store.write d m i v := by
  simp only [Store.write, if_neg hv, insert_insert]

theorem writeCT_writeCT (s : State) (sym : Symbol) (c : Code) :
    (s.writeCT sym (some c)).writeCT sym (some c) = s.writeCT sym (some c) := by
  simp only [State.writeCT, write_write (Option.some_ne_none c)]

theorem writeTS_writeTS (s : State) (idx : Index) {n : Node} (hn : n ≠ .invalid) :
    (s.writeTS idx n).writeTS idx n = s.writeTS idx n := by
  simp only [State.writeTS, write_write hn]

theorem writeCT_complete (s : State) (sym : Symbol) (e : CTEntry) (payload : List Byte) :
    (complete payload s).writeCT sym e = complete payload (s.writeCT sym e) := rfl

theorem writeTS_complete (s : State) (idx : Index) (n : Node) (payload : List Byte) :
    (complete payload s).writeTS idx n = complete payload (s.writeTS idx n) := rfl

/-- A store write that completed completes again, and writes nothing new. -/
theorem body_load_again {i : Instr} {s t : State} {p : List Byte}
    (hi : (∃ sym c, i = .ldc sym c) ∨ (∃ idx sym, i = .ldl idx sym) ∨ ∃ idx c0 c1, i = .ldi idx c0 c1)
    (h : bodyOf i s = .done t p) : bodyOf i (complete p t) = .done (complete p t) [] := by
  obtain ⟨sym, c, rfl⟩ | ⟨idx, sym, rfl⟩ | ⟨idx, c0, c1, rfl⟩ := hi <;> obtain ⟨hm, h⟩ := needLoadable_done h
  · obtain ⟨hc, h⟩ := needLegalCode_done h
    obtain ⟨he, h⟩ := needPhase_done h
    cases h
    simp [bodyOf, needLoadable_ok, needLegalCode_ok, needPhase_ok, hm, hc, he, writeCT_complete, writeCT_writeCT]
  all_goals
    obtain ⟨hd, h⟩ := needPhase_done h
    cases h
    simp [bodyOf, needLoadable_ok, needPhase_ok, hm, hd, writeTS_complete, writeTS_writeTS]

/-- Settles O23: after a refusal or a fault the block refuses the second write, and after a completion the second
write finds its entry written. -/
theorem loadingTwiceIsLoadingOnce : Obligations.LoadingTwiceIsLoadingOnce := by
  intro s t u i hi hst htu
  have hgate (v : State) : exec i v = .next (perform (bodyOf i) v) := exec_eq_perform (by grind) (by grind) v
  rw [hgate] at hst htu
  cases hst
  cases htu
  obtain ⟨c, hf, ht⟩ | ⟨c, hf, -, ht⟩ | ⟨v, p, hf, hb, ht⟩ := perform_cases (bodyOf i) s <;> rw [ht]
  · rw [perform_faulted (s := refuse c s) hf]; rfl
  · rw [perform_faulted (s := raiseFault c s) rfl]; rfl
  · obtain ⟨hflt, -⟩ := bodyOf_frame hb
    rw [perform_done (s := complete p v) (hflt.trans hf) (body_load_again hi hb)]; rfl

/-- Settles O24: the laws of reading after writing, and of the canonical form, for each store. -/
theorem storesReadBackWhatWasWritten : Obligations.StoresReadBackWhatWasWritten :=
  fun _ hs =>
    ⟨fun sym sym' c hc => ⟨readCT_writeCT hs sym sym' (some c), writeCT_memory_wf hs sym hc⟩,
      fun sym sym' => readCT_writeCT hs sym sym' none,
      fun i j n => ⟨readTS_writeTS hs i j n, writeTS_memory_wf hs i n⟩⟩

/-! ### The packed form of a bit stream (R54) -/

/-- A stream's length fixes the byte count and the padding count of its packed form (30_encoding.md R85). -/
theorem byteCount_padCount_unique {bits bytes pad : Nat} (hpad : pad ≤ padMax) (h : 8 * bytes = bits + pad) :
    bytes = byteCount bits ∧ pad = padCount bits := by
  have hpad7 : pad ≤ 7 := hpad
  unfold byteCount padCount
  omega

/-- Settles O30: the bits by their numbers, the inverse by `streamBits_packBits`, and the counts by arithmetic. -/
theorem packedFormHasTheStreamBits : Obligations.PackedFormHasTheStreamBits := by
  intro l
  rw [packBits_length]
  exact ⟨rfl, fun k hk => packBits_bit l k (by rwa [packBits_length]), Nat.le_of_lt_succ (padCount_lt _),
    byteCount_padCount _, streamBits_packBits l, fun _ _ => byteCount_padCount_unique⟩

end Sys2Proof.Machine
end

section
/-! SUPPORT. The statements about the encoding (30_encoding.md): what decodes to a command, the illegal commands in
the order of their tests, and the response to a transaction. -/

namespace Sys2Proof.Machine

open Sys2Proof.Laws

/-! ### Decode and encode (R84) -/

/-- Settles O1: each word is read by the format of its opcode. -/
theorem decodesTheWordsOfTheTable : Obligations.DecodesTheWordsOfTheTable := by
  unfold Obligations.DecodesTheWordsOfTheTable
  decide

/-- Settles O2: command by command, each by its format's fields read back. -/
theorem decodeOfEncodeIsTheCommand : Obligations.DecodeOfEncodeIsTheCommand := by
  intro m i
  cases i with
  | rst => exact RoundTrip.rst m
  | stat => exact RoundTrip.stat m
  | clrc => exact RoundTrip.clrc m
  | ldc sym c => exact RoundTrip.ldc sym c m
  | clrt => exact RoundTrip.clrt m
  | ldl idx sym => exact RoundTrip.ldl idx sym m
  | ldi idx c0 c1 => exact RoundTrip.ldi idx c0 c1 m
  | est => exact RoundTrip.est m
  | esym sym => exact RoundTrip.esym sym m
  | efl => exact RoundTrip.efl m
  | dst => exact RoundTrip.dst m
  | dbyte b => exact RoundTrip.dbyte b m
  | dend pad => exact RoundTrip.dend pad m

/-- Operand bytes that decode are those of the encoding, the command is legal, and it writes a store exactly when its
opcode does. -/
theorem decodeOperands_command {o : Opcode} {rest : List Byte} {i : Instr} (h : decodeOperands o rest = .command i) :
    o.byte :: rest = encode i ∧ i.wf = true ∧ i.writesStore = o.writesStore := by
  cases o <;> simp only [decodeOperands] at h
  case ldc => obtain ⟨sym, c, rfl, hc, rfl⟩ := decodeC_command h; exact ⟨rfl, hc, rfl⟩
  case ldl => obtain ⟨idx, sym, rfl, rfl⟩ := decodeL_command h; exact ⟨rfl, rfl, rfl⟩
  case ldi => obtain ⟨idx, c0, c1, rfl, rfl⟩ := decodeI_command h; exact ⟨rfl, rfl, rfl⟩
  case esym | dbyte | dend => obtain ⟨v, rfl, rfl⟩ := decodeB_command h; exact ⟨rfl, rfl, rfl⟩
  case rst | stat | clrc | clrt | est | efl | dst => obtain ⟨rfl, rfl⟩ := decodeN_command h; exact ⟨rfl, rfl, rfl⟩

theorem existsIn_iff (m : StoreMode) (i : Instr) : i.existsIn m = true ↔ (m = .rom → i.writesStore = false) := by
  cases m <;> simp [Instr.existsIn]

/-- Settles O3: the opcode and the operand bytes are those of the encoding, and the mode has the opcode. -/
theorem acceptedTransactionIsTheEncoding : Obligations.AcceptedTransactionIsTheEncoding := by
  intro m t i h
  obtain ⟨o, rest, rfl, ho, hm⟩ := decode_command h
  obtain ⟨henc, hwf, hw⟩ := decodeOperands_command ho
  exact ⟨henc, hwf, (existsIn_iff m i).mpr fun hrom => hw.trans (hm hrom)⟩

/-! ### Illegal commands (R80) -/

/-- R80 (3): a store-writing opcode in `ROM` mode. -/
theorem decode_storeFixed {o : Opcode} (ho : o.writesStore = true) (rest : List Byte) :
    decode .rom (o.byte :: rest) = .illegal .storeFixed := by
  simp [decode_cons, ho]

/-- Settles O5: the five bytes are those of the store-writing opcodes. -/
theorem romModeHasNoStoreWritingCommand : Obligations.RomModeHasNoStoreWritingCommand := by
  intro rest b hb
  have hbytes : ∀ b ∈ [0x10#8, 0x11#8, 0x18#8, 0x19#8, 0x1A#8], ∃ o ∈ opcodeRows, o.writesStore = true ∧ o.byte = b := by
    decide
  obtain ⟨o, -, ho, rfl⟩ := hbytes b hb
  exact decode_storeFixed ho rest

/-- R80 (4) and (5) in their order: what the tests of the length and of the reserved bits make of a transaction whose
opcode the mode has. -/
def TestedAs (wrongLength reservedBits : Prop) (d : Decoded) : Prop :=
  (wrongLength → d = .illegal .wrongLength) ∧
  (¬ wrongLength → (reservedBits → d = .illegal .reservedBits) ∧ (¬ reservedBits → ∃ i, d = .command i))

theorem TestedAs.ofWrongLength {w r : Prop} {d : Decoded} (hw : w) (hd : d = .illegal .wrongLength) : TestedAs w r d :=
  ⟨fun _ => hd, fun h => absurd hw h⟩

theorem TestedAs.ofReservedBits {w r : Prop} {d : Decoded} (hw : ¬ w) (hr : r) (hd : d = .illegal .reservedBits) :
    TestedAs w r d :=
  ⟨fun h => absurd h hw, fun _ => ⟨fun _ => hd, fun h => absurd hr h⟩⟩

theorem TestedAs.ofCommand {w r : Prop} {d : Decoded} (hw : ¬ w) (hr : ¬ r) (hd : ∃ i, d = .command i) :
    TestedAs w r d :=
  ⟨fun h => absurd h hw, fun _ => ⟨fun h => absurd h hr, fun _ => hd⟩⟩

/-- Every opcode but `LDC` has one length (R83). -/
theorem wrongLength_iff {o : Opcode} (ho : o ≠ .ldc) (t : List Byte) :
    WrongLength o t ↔ t.length ≠ commandLength o (t.getD 2 0#8) := by
  simp [WrongLength, ho]

/-- An index field is refused when its value is no index (R77). -/
theorem fieldIndex_eq_none_iff (hi lo : Byte) : fieldIndex hi lo = none ↔ 512 ≤ 256 * hi.toNat + lo.toNat := by
  have := lo.isLt
  rw [fieldIndex_none_iff]
  omega

/-- A command of format `N` or `B` has no field with reserved bits (R72, R73). -/
theorem not_reservedBitSet {o : Opcode} (ho : o.format = .n ∨ o.format = .b) (t : List Byte) : ¬ ReservedBitSet o t := by
  cases o
  case ldc | ldl | ldi => simp [Opcode.format] at ho
  all_goals exact id

theorem decodeN_tested {o : Opcode} (ho : o.format = .n) (i : Instr) (rest : List Byte) :
    TestedAs (WrongLength o (o.byte :: rest)) (ReservedBitSet o (o.byte :: rest)) (decodeN i rest) := by
  have hldc : o ≠ .ldc := by rintro rfl; cases ho
  have hw : WrongLength o (o.byte :: rest) ↔ rest ≠ [] := by simp [wrongLength_iff hldc, commandLength, ho]
  obtain ⟨hrest, hd⟩ | ⟨hrest, hd⟩ := decodeN_any i rest
  · exact .ofCommand (fun h => hw.mp h hrest) (not_reservedBitSet (.inl ho) _) ⟨_, hd⟩
  · exact .ofWrongLength (hw.mpr hrest) hd

theorem decodeB_tested {o : Opcode} (ho : o.format = .b) (f : Byte → Instr) (rest : List Byte) :
    TestedAs (WrongLength o (o.byte :: rest)) (ReservedBitSet o (o.byte :: rest)) (decodeB f rest) := by
  have hldc : o ≠ .ldc := by rintro rfl; cases ho
  have hw : WrongLength o (o.byte :: rest) ↔ rest.length ≠ 1 := by simp [wrongLength_iff hldc, commandLength, ho]
  obtain ⟨hrest, v, hd⟩ | ⟨hrest, hd⟩ := decodeB_any f rest
  · exact .ofCommand (fun h => hw.mp h hrest) (not_reservedBitSet (.inr ho) _) ⟨_, hd⟩
  · exact .ofWrongLength (hw.mpr hrest) hd

/-- The length tests of an `LDC` that has its `len` byte (R80 (4)). -/
theorem wrongLength_ldc_iff (sym : Symbol) (len : Byte) (code : List Byte) :
    WrongLength .ldc (Opcode.ldc.byte :: sym :: len :: code) ↔ len = 0#8 ∨ codeLengthOk len code = false := by
  have hthree : ¬ code.length + 1 + 1 + 1 < 3 := by omega
  simp [WrongLength, commandLength, Opcode.format, codeLengthOk, Nat.add_comm 3, hthree]

theorem decodeC_tested (f : Symbol → Code → Instr) (rest : List Byte) :
    TestedAs (WrongLength .ldc (Opcode.ldc.byte :: rest)) (ReservedBitSet .ldc (Opcode.ldc.byte :: rest))
      (decodeC f rest) := by
  match rest with
  | [] => exact .ofWrongLength (.inl ⟨rfl, .inl (by simp)⟩) rfl
  | [_] => exact .ofWrongLength (.inl ⟨rfl, .inl (by simp)⟩) rfl
  | sym :: len :: code =>
    have hw := wrongLength_ldc_iff sym len code
    have hr : ReservedBitSet .ldc (Opcode.ldc.byte :: sym :: len :: code) ↔
        (codeUnusedBits len code).any id = true := (unused_any_iff len code).symm
    rw [hw, hr, decodeC]
    by_cases hlen : len = 0#8 ∨ codeLengthOk len code = false
    · exact .ofWrongLength hlen (if_pos hlen)
    · rw [if_neg hlen]
      by_cases hu : (codeUnusedBits len code).any id = true
      · exact .ofReservedBits hlen hu (if_pos hu)
      · exact .ofCommand hlen hu ⟨_, if_neg hu⟩

theorem decodeL_wrongLength (f : Index → Symbol → Instr) {rest : List Byte} (h : rest.length ≠ 3) :
    decodeL f rest = .illegal .wrongLength := by
  unfold decodeL
  split
  · exact absurd rfl h
  · rfl

theorem decodeL_tested (f : Index → Symbol → Instr) (rest : List Byte) :
    TestedAs (WrongLength .ldl (Opcode.ldl.byte :: rest)) (ReservedBitSet .ldl (Opcode.ldl.byte :: rest))
      (decodeL f rest) := by
  have hw : WrongLength .ldl (Opcode.ldl.byte :: rest) ↔ rest.length ≠ 3 := by
    simp [wrongLength_iff, commandLength, Opcode.format]
  rw [hw]
  by_cases hl : rest.length = 3
  · obtain ⟨ih, il, sym, rfl⟩ := List.length_eq_three.mp hl
    have hr : ReservedBitSet .ldl [Opcode.ldl.byte, ih, il, sym] ↔ fieldIndex ih il = none :=
      (fieldIndex_eq_none_iff ih il).symm
    rw [hr, decodeL]
    cases fieldIndex ih il with
    | none => exact .ofReservedBits (not_not_intro hl) rfl rfl
    | some idx => exact .ofCommand (not_not_intro hl) nofun ⟨_, rfl⟩
  · exact .ofWrongLength hl (decodeL_wrongLength f hl)

theorem decodeI_wrongLength (f : Index → Index → Index → Instr) {rest : List Byte} (h : rest.length ≠ 6) :
    decodeI f rest = .illegal .wrongLength := by
  unfold decodeI
  split
  · exact absurd rfl h
  · rfl

theorem decodeI_tested (f : Index → Index → Index → Instr) (rest : List Byte) :
    TestedAs (WrongLength .ldi (Opcode.ldi.byte :: rest)) (ReservedBitSet .ldi (Opcode.ldi.byte :: rest))
      (decodeI f rest) := by
  have hw : WrongLength .ldi (Opcode.ldi.byte :: rest) ↔ rest.length ≠ 6 := by
    simp [wrongLength_iff, commandLength, Opcode.format]
  rw [hw]
  by_cases hl : rest.length = 6
  · match rest, hl with
    | [ih, il, ah, al, bh, bl], hl =>
      have hr : ReservedBitSet .ldi [Opcode.ldi.byte, ih, il, ah, al, bh, bl] ↔
          fieldIndex ih il = none ∨ fieldIndex ah al = none ∨ fieldIndex bh bl = none := by
        simp only [fieldIndex_eq_none_iff]
        rfl
      rw [hr, decodeI]
      cases fieldIndex ih il with
      | none => exact .ofReservedBits (not_not_intro hl) (.inl rfl) rfl
      | some idx =>
        cases fieldIndex ah al with
        | none => exact .ofReservedBits (not_not_intro hl) (.inr (.inl rfl)) rfl
        | some c0 =>
          cases fieldIndex bh bl with
          | none => exact .ofReservedBits (not_not_intro hl) (.inr (.inr rfl)) rfl
          | some c1 => exact .ofCommand (not_not_intro hl) (by simp) ⟨_, rfl⟩
  · exact .ofWrongLength hl (decodeI_wrongLength f hl)

/-- R80 (4) and (5) for every opcode, by its format. -/
theorem decodeOperands_tested (o : Opcode) (rest : List Byte) :
    TestedAs (WrongLength o (o.byte :: rest)) (ReservedBitSet o (o.byte :: rest)) (decodeOperands o rest) := by
  cases o
  case ldc => exact decodeC_tested _ rest
  case ldl => exact decodeL_tested _ rest
  case ldi => exact decodeI_tested _ rest
  case esym | dbyte | dend => exact decodeB_tested rfl _ rest
  case rst | stat | clrc | clrt | est | efl | dst => exact decodeN_tested rfl _ rest

/-- An illegal transaction while faulted (60_exceptions.md R219). -/
theorem step_illegal_refused {s : State} {t : List Byte} {rest : List (List Byte)} {why : Illegal} {c : Cause}
    (hf : s.flt = some c) (h : s.inbox = t :: rest) (hd : decode s.cfg.storeMode t = .illegal why) :
    step s = .next (State.afterRefusal { s with inbox := rest } c) := by
  rw [step_illegal h hd]
  exact congrArg _ (perform_faulted (s := { s with inbox := rest }) hf _)

/-- Settles O4: the first three tests by `decode` itself, the last two by the format of the opcode, and the effect by
the fault flag. -/
theorem illegalCommandsAreThoseOfTheRule : Obligations.IllegalCommandsAreThoseOfTheRule := by
  refine ⟨fun m => rfl, fun m b rest hb => ?_, fun m o rest => ⟨?_, fun hm => ?_⟩, fun s t rest why hs hd => ?_⟩
  · rw [decode_cons, (opcodeOf_none_iff b).mpr hb]
  · rintro ⟨rfl, ho⟩
    exact decode_storeFixed ho rest
  · rw [decode_opcode m o rest fun hrom => by simpa [hrom] using hm]
    exact decodeOperands_tested o rest
  · split
    next hf => exact step_illegal_fault hf hs hd
    next c hf => exact step_illegal_refused hf hs hd

/-! ### The response (R70, R86, R87) -/

/-- The bounds on the response to a command (R86, 41_encoder_ops.md R126, 42_decoder_ops.md R143). -/
def Response.Bounded (i : Instr) (r : Response) : Prop :=
  r.payload.length ≤ maxPay ∧ (r.status ≠ .ok → r.payload = []) ∧ (i = .efl → r.payload.length ≤ 2) ∧
    ∀ b, i = .dbyte b ∨ i = .dend b → r.payload.length ≤ 8

theorem Response.bounded_of_empty {r : Response} (h : r.payload = []) (i : Instr) : r.Bounded i := by
  simp [Response.Bounded, h]

/-- Every command gives one response, within the bounds. -/
theorem exec_response {i : Instr} {s t : State} (hct : codeTableWf s.ct = true) (h : exec i s = .next t) :
    ∃ r : Response, t.outbox = s.outbox ++ [r] ∧ r.Bounded i := by
  obtain ⟨rfl, rfl⟩ | ⟨rfl, rfl⟩ | ⟨-, -, ⟨c, -, rfl⟩ | ⟨c, -, -, rfl⟩ | ⟨u, p, -, hb, rfl⟩⟩ := exec_cases h
  · exact ⟨_, rfl, Response.bounded_of_empty rfl _⟩
  · exact ⟨_, rfl, by simp [Response.Bounded, bytes16, maxPay]⟩
  · exact ⟨_, rfl, Response.bounded_of_empty rfl _⟩
  · exact ⟨_, rfl, Response.bounded_of_empty rfl _⟩
  · obtain ⟨-, -, -, hout⟩ := bodyOf_frame hb
    obtain ⟨hmax, hefl, hdec⟩ := body_payload hct hb
    exact ⟨⟨.ok, p⟩, congrArg (· ++ [_]) hout, hmax, absurd rfl, hefl, hdec⟩

/-- An illegal transaction gets one response, with an empty payload. -/
theorem performIllegal_response (s : State) :
    ∃ r : Response, (performIllegal s).outbox = s.outbox ++ [r] ∧ r.payload = [] := by
  obtain ⟨c, -, hp⟩ | ⟨-, hp⟩ := performIllegal_cases s
  · exact ⟨_, congrArg State.outbox hp, rfl⟩
  · exact ⟨_, congrArg State.outbox hp, rfl⟩

/-- Settles O12: a command responds within its bounds, and an illegal transaction with an empty payload. -/
theorem oneBoundedResponsePerTransaction : Obligations.OneBoundedResponsePerTransaction := by
  intro s t x rest hct hs h
  cases hd : decode s.cfg.storeMode x with
  | command i =>
    rw [step_command hs hd] at h
    obtain ⟨r, hout, hmax, hempty, hefl, hdec⟩ := exec_response (s := { s with inbox := rest }) hct h
    exact ⟨r, hout, hmax, hempty, fun j hj => by cases hj; exact ⟨hefl, hdec⟩⟩
  | illegal why =>
    rw [step_illegal hs hd] at h
    cases h
    obtain ⟨r, hout, hr⟩ := performIllegal_response { s with inbox := rest }
    exact ⟨r, hout, by simp [hr], fun _ => hr, nofun⟩

/-- Settles O13: the codes of the five causes. -/
theorem statusBytesAreTheOnesListed : Obligations.StatusBytesAreTheOnesListed := by
  refine ⟨rfl, rfl, fun st => ?_⟩
  cases st with
  | ok => decide
  | fault c => cases c <;> decide
  | refused c => cases c <;> decide

end Sys2Proof.Machine
end

section
/-! SUPPORT. The statements about the store-loading commands (40_config_ops.md), and where the walk of the decoder
stands. -/

namespace Sys2Proof.Machine

open Sys2Proof.Laws

/-! ### The effect of a store-loading command (R101 to R105) -/

/-- A command whose body asks for an idle phase and then leaves the state `write s`: it completes when the phase is
idle, and raises SequenceError when a session is open (60_exceptions.md R217). -/
theorem exec_whenIdle {i : Instr} {s : State} {phase : State → Phase} {write : State → State} (hf : s.flt = none)
    (hi : i ≠ .rst ∧ i ≠ .stat) (hb : bodyOf i s = needPhase phase .idle (fun t => .done (write t) []) s) :
    (phase s = .idle → exec i s = .next ((write s).answered [])) ∧
    (phase s = .run → exec i s = .next (s.afterFault .sequenceError)) := by
  rw [exec_eq_perform hi.1 hi.2]
  refine ⟨fun hidle => congrArg _ ?_, fun hrun => congrArg _ ?_⟩
  · exact perform_done hf (hb.trans (needPhase_ok hidle))
  · exact perform_raise hf (hb.trans (needPhase_bad (phase_run hrun)))

/-- In `ROM` mode every transaction with a store-writing opcode raises CommandError (R101 to R105). -/
theorem step_storeFixed {o : Opcode} {s : State} {bytes : List Byte} {rest : List (List Byte)}
    (ho : o.writesStore = true) (hf : s.flt = none) (hm : s.cfg.storeMode = .rom)
    (hs : s.inbox = (o.byte :: bytes) :: rest) :
    step s = .next (State.afterFault { s with inbox := rest } .commandError) :=
  step_illegal_fault hf hs (hm ▸ decode_storeFixed ho bytes)

theorem TestedAs.illegal {w r : Prop} {d : Decoded} (h : TestedAs w r d) (hwr : w ∨ r) : ∃ why, d = .illegal why := by
  obtain ⟨hw, hr⟩ := h
  by_cases hlen : w
  · exact ⟨_, hw hlen⟩
  · exact ⟨_, (hr hlen).1 (hwr.resolve_left hlen)⟩

/-- A transaction of the wrong length, or with a reserved bit set, raises CommandError in both modes
(30_encoding.md R80). -/
theorem step_badForm {o : Opcode} {s : State} {bytes : List Byte} {rest : List (List Byte)} (hf : s.flt = none)
    (hs : s.inbox = (o.byte :: bytes) :: rest)
    (hbad : WrongLength o (o.byte :: bytes) ∨ ReservedBitSet o (o.byte :: bytes)) :
    step s = .next (State.afterFault { s with inbox := rest } .commandError) := by
  obtain ⟨why, hd⟩ := exists_illegal s.cfg.storeMode o bytes ((decodeOperands_tested o bytes).illegal hbad)
  exact step_illegal_fault hf hs hd

/-! ### The code table (R101, R102) -/

/-- Settles O18: the clearing write under the phase test, and the opcode refused in `ROM` mode. -/
theorem clrcClearsTheCodeTable : Obligations.ClrcClearsTheCodeTable := by
  refine ⟨RoundTrip.clrc .loadable rfl rfl, fun s hf hm => ?_, fun s rest hf hm hs => ?_⟩
  · obtain ⟨hidle, hrun⟩ := exec_whenIdle (i := .clrc) hf (by simp) (needLoadable_ok hm)
    exact ⟨fun he => ⟨s.clearCT, hidle he, rfl, readCT_clearCT s⟩, hrun⟩
  · exact step_storeFixed (o := .clrc) rfl hf hm hs

/-- A code loaded is read back, whatever the table held. -/
theorem readCT_writeCT_some (s : State) (sym sym' : Symbol) (c : Code) :
    (s.writeCT sym (some c)).readCT sym' = if sym' = sym then some c else s.readCT sym' := by
  simp only [State.readCT, State.writeCT, Store.write, if_neg (Option.some_ne_none c), read_insert, toNat_inj_symbol,
    eq_comm (a := sym')]

/-- Settles O19: the encoding read back, the entry written under the phase test, and the tests of R80 on the form. -/
theorem ldcWritesOneCode : Obligations.LdcWritesOneCode := by
  refine ⟨fun sym c hc => RoundTrip.ldc sym c .loadable hc rfl, fun s sym c hf hc hm => ?_,
    fun s bytes rest hf hm hs => ?_, fun s sym len bytes rest hf hs hbad => ?_⟩
  · obtain ⟨hidle, hrun⟩ := exec_whenIdle (i := .ldc sym c) hf (by simp)
      ((needLoadable_ok hm).trans (needLegalCode_ok hc))
    exact ⟨fun he => ⟨s.writeCT sym (some c), hidle he, rfl, fun sym' => readCT_writeCT_some s sym sym' c⟩, hrun⟩
  · exact step_storeFixed (o := .ldc) rfl hf hm hs
  · refine step_badForm (o := .ldc) hf hs ?_
    have hlen : codeLengthOk len bytes = false ↔ bytes.length ≠ (len.toNat + 7) / 8 :=
      decide_eq_false_iff_not
    rw [wrongLength_ldc_iff, hlen, or_assoc]
    exact hbad

/-! ### The tree store (R103 to R105) -/

/-- Settles O20: as O18, for the tree store. -/
theorem clrtClearsTheTreeStore : Obligations.ClrtClearsTheTreeStore := by
  refine ⟨RoundTrip.clrt .loadable rfl rfl, fun s hf hm => ?_, fun s rest hf hm hs => ?_⟩
  · obtain ⟨hidle, hrun⟩ := exec_whenIdle (i := .clrt) hf (by simp) (needLoadable_ok hm)
    exact ⟨fun hd => ⟨s.clearTS, hidle hd, rfl, readTS_clearTS s⟩, hrun⟩
  · exact step_storeFixed (o := .clrt) rfl hf hm hs

/-- The two bytes of an index are the two parts of its value (30_encoding.md R77). -/
theorem indexBytes_eq {hi lo : Byte} {idx : Index} (h : idx.toNat = 256 * hi.toNat + lo.toNat) :
    indexBytes idx = [hi, lo] := by
  have := lo.isLt
  have hhi : idx.toNat / 256 = hi.toNat := by omega
  have hlo : idx.toNat % 256 = lo.toNat := by omega
  simp [indexBytes, hhi, hlo]

/-- A node loaded is read back, whatever the store held. -/
theorem readTS_writeTS_node (s : State) (idx i : Index) {n : Node} (hn : n ≠ .invalid) :
    (s.writeTS idx n).readTS i = if i = idx then n else s.readTS i := by
  simp only [State.readTS, Software.readNode_writeTS hn, eq_comm (a := i)]

/-- Settles O21: the index read back from its bytes, the leaf written under the phase test, and an index field with a
reserved bit set. -/
theorem ldlWritesOneLeaf : Obligations.LdlWritesOneLeaf := by
  refine ⟨fun ih il sym idx hidx => ?_, fun s idx sym hf hm => ?_, fun s bytes rest hf hm hs => ?_,
    fun s ih il sym rest hf hs hbad => ?_⟩
  · have hd := RoundTrip.ldl idx sym .loadable rfl rfl
    rwa [encode, indexBytes_eq hidx] at hd
  · obtain ⟨hidle, hrun⟩ := exec_whenIdle (i := .ldl idx sym) hf (by simp) (needLoadable_ok hm)
    exact ⟨fun hd => ⟨s.writeTS idx (.leaf sym), hidle hd, rfl, fun i => readTS_writeTS_node s idx i nofun⟩, hrun⟩
  · exact step_storeFixed (o := .ldl) rfl hf hm hs
  · exact step_badForm (o := .ldl) hf hs (.inr hbad)

/-- Settles O22: as O21, with three index fields. -/
theorem ldiWritesOneInternalNode : Obligations.LdiWritesOneInternalNode := by
  refine ⟨fun ih il ah al bh bl idx c0 c1 hidx hc0 hc1 => ?_, fun s idx c0 c1 hf hm => ?_,
    fun s bytes rest hf hm hs => ?_, fun s ih il ah al bh bl rest hf hs hbad => ?_⟩
  · have hd := RoundTrip.ldi idx c0 c1 .loadable rfl rfl
    rwa [encode, indexBytes_eq hidx, indexBytes_eq hc0, indexBytes_eq hc1] at hd
  · obtain ⟨hidle, hrun⟩ := exec_whenIdle (i := .ldi idx c0 c1) hf (by simp) (needLoadable_ok hm)
    exact ⟨fun hd => ⟨s.writeTS idx (.internal c0 c1), hidle hd, rfl, fun i => readTS_writeTS_node s idx i nofun⟩,
      hrun⟩
  · exact step_storeFixed (o := .ldi) rfl hf hm hs
  · exact step_badForm (o := .ldi) hf hs (.inr hbad)

/-! ### The walk of the decoder (10_state.md R29) -/

/-- Settles O37: of the outcomes of a step only `RST` and a command's body move the walk or write what it stands on,
and while the block is faulted nothing is said of it. -/
theorem walkStandsOnAnInternalNode : Obligations.WalkStandsOnAnInternalNode := by
  refine ⟨resetOf_dcur, fun s t hs h => ?_⟩
  cases step_outcome h with
  | idle => exact hs
  | restarted => exact fun _ hroot => absurd rfl hroot
  | reported => exact hs
  | refused => exact hs
  | raised => exact fun hf => nomatch hf
  | completed rest i u p hf hb => exact fun _ => (body_walker hb (hs hf) :)

end Sys2Proof.Machine
end

section
/-! SUPPORT. The statements about the encoder (41_encoder_ops.md): the packer, the commands of a session, what a
session produces, and the round trip through the block. -/

namespace Sys2Proof.Machine

/-! ### The packer (R123) -/

/-- Settles O26: `setBit` writes the one position, which is free until `ECNT` is 7. -/
theorem packPlacesOneBit : Obligations.PackPlacesOneBit := by
  intro p b
  refine ⟨setBit p.eacc (7 - p.ecnt.toNat) b, fun j hj => ?_, fun h7 => ?_, fun hlt => ?_⟩
  · have := p.ecnt.isLt
    rw [setBit_getLsbD _ _ _ _ (by omega)]
    exact if_congr (by omega) rfl rfl
  · rw [pack_full (BitVec.eq_of_toNat_eq h7), h7]
  · have hne : p.ecnt ≠ 7#3 := fun h => by simp [h] at hlt
    rw [pack_notFull hne]
    exact ⟨rfl, rfl, ecnt_succ hne⟩

/-! ### The commands (R121, R122, R124) -/

/-- The state in which `EST` leaves the encoder: a session is open, and no bit is pending. -/
def State.openEncoder (s : State) : State := { s with eacc := 0#8, ecnt := 0#3, eph := .run }

/-- The state in which `EFL` leaves the encoder: no session is open, and no bit is pending. -/
def State.closeEncoder (s : State) : State := { s with eacc := 0#8, ecnt := 0#3, eph := .idle }

theorem bodyOf_est (s : State) : bodyOf .est s = needPhase State.eph .idle (fun t => .done t.openEncoder []) s := rfl

theorem bodyOf_esym (sym : Symbol) (s : State) :
    bodyOf (.esym sym) s = needPhase State.eph .run (encodeSymbol sym) s := rfl

theorem bodyOf_efl (s : State) :
    bodyOf .efl s = needPhase State.eph .run (fun t => .done t.closeEncoder (flushBytes t)) s := rfl

/-- A command whose body asks for an open session, in each of its outcomes (60_exceptions.md R217, R218). -/
theorem exec_whenRunning {i : Instr} {s : State} {phase : State → Phase} {body : State → Effect} (hf : s.flt = none)
    (hi : i ≠ .rst ∧ i ≠ .stat) (hb : bodyOf i s = needPhase phase .run body s) :
    (∀ t p, phase s = .run → body s = .done t p → exec i s = .next (t.answered p)) ∧
    (∀ c, phase s = .run → body s = .raise c → exec i s = .next (s.afterFault c)) ∧
    (phase s = .idle → exec i s = .next (s.afterFault .sequenceError)) := by
  rw [exec_eq_perform hi.1 hi.2]
  refine ⟨fun t p hrun hdone => congrArg _ ?_, fun c hrun hraise => congrArg _ ?_, fun hidle => congrArg _ ?_⟩
  · exact perform_done hf (hb.trans ((needPhase_ok hrun).trans hdone))
  · exact perform_raise hf (hb.trans ((needPhase_ok hrun).trans hraise))
  · exact perform_raise hf (hb.trans (needPhase_bad (phase_idle hidle)))

/-- Settles O25: the opening write under the phase test. -/
theorem estOpensAnEncoderSession : Obligations.EstOpensAnEncoderSession := by
  refine ⟨fun _ => decode_encode_unit (i := .est) rfl rfl, fun s hf => ?_⟩
  obtain ⟨hidle, hrun⟩ := exec_whenIdle (i := .est) hf (by simp) (bodyOf_est s)
  exact ⟨fun he => ⟨_, hidle he, rfl, rfl, rfl, rfl⟩, hrun⟩

/-- The packer as a command of `s` finds it. -/
def State.packer (s : State) : Packer := { eacc := s.eacc, ecnt := s.ecnt, out := [] }

theorem encodeSymbol_of_code {s : State} {sym : Symbol} {c : Code} (h : s.readCT sym = some c) :
    encodeSymbol sym s =
      .done { s with eacc := (packAll s.packer c).eacc, ecnt := (packAll s.packer c).ecnt } (packAll s.packer c).out := by
  simp only [encodeSymbol, h, State.packer]

theorem encodeSymbol_of_none {s : State} {sym : Symbol} (h : s.readCT sym = none) :
    encodeSymbol sym s = .raise .lookupError := by
  simp only [encodeSymbol, h]

/-- Settles O27: the packer's counts and its stream after the bits of the code. -/
theorem esymAppendsTheCode : Obligations.EsymAppendsTheCode := by
  refine ⟨fun _ sym => decode_encode_unit (i := .esym sym) rfl rfl, fun s sym hf => ?_⟩
  obtain ⟨hdone, hraise, hidle⟩ := exec_whenRunning (i := .esym sym) hf (by simp) (bodyOf_esym sym s)
  refine ⟨fun he c hc => ?_, fun he hnone => hraise _ he (encodeSymbol_of_none hnone), hidle⟩
  obtain ⟨hbytes, hecnt⟩ := packAll_counts s.packer c
  have hbytes : (packAll s.packer c).out.length = (s.ecnt.toNat + c.length) / 8 := hbytes.trans (Nat.zero_add _)
  refine ⟨_, _, hdone _ _ he (encodeSymbol_of_code hc), rfl, (packAll_eq_foldl c s.packer).symm, hbytes, hecnt,
    fun hlegal => ?_, packAll_stream s.packer c⟩
  have hlen := (legal_iff c).mp hlegal
  have := s.ecnt.isLt
  omega

/-- What `EFL` emits, with the value of its padding count. -/
theorem flushBytes_count (s : State) : ∃ count : Byte,
    flushBytes s = (if s.ecnt = 0#3 then [count] else [count, s.eacc]) ∧
    count.toNat = if s.ecnt = 0#3 then 0 else 8 - s.ecnt.toNat := by
  unfold flushBytes
  split
  · exact ⟨0#8, rfl, rfl⟩
  · refine ⟨8#8 - s.ecnt.setWidth 8, rfl, ?_⟩
    bv_omega

/-- Settles O28: the bytes of the flush, and the closing write. -/
theorem eflFlushesAndCloses : Obligations.EflFlushesAndCloses := by
  refine ⟨fun _ => decode_encode_unit (i := .efl) rfl rfl, fun s hf => ?_⟩
  obtain ⟨hdone, -, hidle⟩ := exec_whenRunning (i := .efl) hf (by simp) (bodyOf_efl s)
  obtain ⟨count, hflush, hcount⟩ := flushBytes_count s
  exact ⟨fun he => ⟨_, count, hflush ▸ hdone _ _ he rfl, rfl, rfl, rfl, rfl, hcount⟩, hidle⟩

/-! ### The unused bits of the packer (10_state.md R26) -/

/-- Settles O29: of the outcomes of a step only `RST` and a command's body write the packer. -/
theorem unusedPackerBitsStayZero : Obligations.UnusedPackerBitsStayZero := by
  refine ⟨fun _ _ _ => BitVec.getLsbD_zero, fun s t hclean h => ?_⟩
  cases step_outcome h with
  | idle => exact hclean
  | restarted => exact fun _ _ => BitVec.getLsbD_zero
  | reported => exact hclean
  | refused => exact hclean
  | raised => exact hclean
  | completed rest i u p _ hb => exact (body_packer hb hclean :)

/-! ### What a session produces (R125) -/

/-- A padding count and the bytes whose bits are a stream and then that many zeros are the stream's packed form
(30_encoding.md R85). -/
theorem packedForm_of_unpackBits {bytes : List Byte} {count : Byte} {l : List Bool} (hcount : count.toNat < 8)
    (h : unpackBits bytes = l ++ List.replicate count.toNat false) :
    (bytes, count.toNat) = (packBits l, padCount l.length) := by
  obtain ⟨hbytes, hpad⟩ := packBits_of_unpackBits bytes l count.toNat hcount h
  rw [← hbytes, ← hpad]

/-- The bits of the packed form less its padding are as many as the stream's (30_encoding.md R85). -/
theorem packBits_bitCount (l : List Bool) : 8 * (packBits l).length - padCount l.length = l.length := by
  rw [packBits_length, byteCount_padCount, Nat.add_sub_cancel]

/-- Settles O45: `EST` leaves the packer empty, so the bits of the session's payloads are those of the codes and then
the padding, and the packed form is the one pair with these bits. -/
theorem encoderSessionPacksTheStream : Obligations.EncoderSessionPacksTheStream := by
  intro s t mid more rs hi hm hrun ho hok
  obtain ⟨u, r, rs', hu, hin, hr, hrun, ho', rfl⟩ := run_peel hi hrun ho
  obtain ⟨h, -⟩ | ⟨h, -⟩ | ⟨-, -, -, v, p, hb, rfl, -⟩ := step_ok rfl hi hu hr (hok r List.mem_cons_self)
  · cases h
  · cases h
  rw [bodyOf_est] at hb
  obtain ⟨-, hopen⟩ := needPhase_done hb
  cases hopen
  obtain ⟨codes, init, count, last, hcodes, hpay, hcount, hbits⟩ :=
    encoder_tail hin hm hrun ho' (fun r hr => hok r (List.mem_cons_of_mem _ hr)) rfl (fun _ _ => BitVec.getLsbD_zero)
  have hform : Software.packedForm (payloadsTo pickEncoder (Instr.est :: mid ++ [.efl]) (r :: rs')) =
      (packBits codes.flatten, padCount codes.flatten.length) := by
    rw [List.cons_append, payloadsTo_cons, if_neg (by decide), hpay, packedForm_snoc]
    exact packedForm_of_unpackBits hcount hbits
  refine ⟨codes, hcodes, ?_⟩
  dsimp only
  rw [hform, packBits_bitCount, List.length_flatten]
  exact ⟨rfl, rfl, rfl, Nat.le_of_lt_succ (padCount_lt _)⟩

/-! ### The round trip (42_decoder_ops.md R150) -/

/-- Under a code table that matches the tree image, every sequence of held symbols has codes, and the table lists
them (10_state.md R40). -/
theorem TableMatches.codes {ct : Store CTEntry} {ts : Store Node} (hmatch : TableMatches ct ts) {syms : List Symbol}
    (hheld : ∀ sym ∈ syms, HeldSymbol ts sym) :
    ∃ pairs : List (Symbol × Code), pairs.map Prod.fst = syms ∧
      ∀ e ∈ pairs, IsCodeOf ts e.1 e.2 ∧ Store.read none ct e.1.toNat = some e.2 := by
  induction syms with
  | nil => exact ⟨[], rfl, nofun⟩
  | cons sym syms ih =>
    obtain ⟨pairs, hfst, hpairs⟩ := ih fun sym' h => hheld sym' (List.mem_cons_of_mem _ h)
    obtain ⟨c, hc⟩ := hmatch sym (hheld sym List.mem_cons_self)
    exact ⟨(sym, c) :: pairs, by rw [List.map_cons, hfst], List.forall_mem_cons.mpr ⟨hc, hpairs⟩⟩

/-- A packed form with padding has a byte. -/
theorem packBits_ne_nil {l : List Bool} (h : padCount l.length ≠ 0) : packBits l ≠ [] := by
  intro hnil
  have hbytes : 0 = byteCount l.length := by rw [← packBits_length, hnil, List.length_nil]
  have := byteCount_padCount l.length
  omega

/-- Settles O48: the encoder packs the codes of the symbols, and the decoder's walk reads them back. -/
theorem roundTripThroughTheBlock : Obligations.RoundTripThroughTheBlock := by
  intro s s' syms more more' _ hmatch hheld hf he hi hf' hd' hts
  obtain ⟨pairs, rfl, hpairs⟩ := hmatch.codes hheld
  have hcodes : (pairs.map Prod.fst).map s.readCT = (pairs.map Prod.snd).map some := by
    rw [List.map_map, List.map_map]
    exact List.map_congr_left fun e hmem => (hpairs e hmem).2
  obtain ⟨t, rs, hrun, ho, hok, hform, -⟩ := encoder_session hf he hcodes hi
  refine ⟨t, rs, hrun, ho, hok, ?_⟩
  rw [hform]
  dsimp only
  intro hi'
  have hwalk := walkBits_codes pairs [] fun e hmem => (hpairs e hmem).1
  have hpad := pad_ofNat (pairs.map Prod.snd).flatten.length
  refine decoder_session hf' hd' (hpad.trans_le (Nat.le_of_lt_succ (padCount_lt _)))
    (fun hne => packBits_ne_nil fun h0 => hne (by rw [h0])) ?_ hi'
  rw [hpad, streamBits_packBits, hts, hwalk, List.nil_append]

/-! ### The empty sessions (R128, 42_decoder_ops.md R145) -/

/-- Two commands that write no store and complete, one after the other. -/
theorem run_two_done {s v w : State} {i j : Instr} {more : List (List Byte)} {p q : List Byte}
    (hi : i ≠ .rst ∧ i ≠ .stat ∧ i.wf = true ∧ i.writesStore = false)
    (hj : j ≠ .rst ∧ j ≠ .stat ∧ j.wf = true ∧ j.writesStore = false) (hf : s.flt = none)
    (hs : s.inbox = encode i :: encode j :: more)
    (hv : bodyOf i { s with inbox := encode j :: more } = .done v p)
    (hw : bodyOf j { complete p v with inbox := more } = .done w q) :
    runSteps 2 s = .next (complete q w) := by
  obtain ⟨hirst, histat, hiwf, histore⟩ := hi
  obtain ⟨hjrst, hjstat, hjwf, hjstore⟩ := hj
  obtain ⟨hvflt, -, hvinbox, -⟩ := bodyOf_frame hv
  calc runSteps 2 s
    _ = runSteps 1 (complete p v) := run_succ 1 (step_done hirst histat hs (decode_encode_unit hiwf histore) hf hv)
    _ = .next (complete q w) :=
      run_succ 0 (step_done hjrst hjstat hvinbox (decode_encode_unit hjwf hjstore) (hvflt.trans hf) hw)

/-- The state in which `DST` leaves the decoder: a session is open, at the root and with no byte held. -/
def State.openDecoder (s : State) : State := { s with dcur := root, dhold := 0#8, dhv := false, dph := .run }

theorem bodyOf_dst (s : State) : bodyOf .dst s = needPhase State.dph .idle (fun t => .done t.openDecoder []) s := rfl

theorem bodyOf_dend (pad : Byte) (s : State) : bodyOf (.dend pad) s = needPhase State.dph .run (endStream pad) s := rfl

/-- `DEND 0` at the root with no byte held closes the session and emits nothing. -/
theorem endStream_nothingHeld {s : State} (hhv : s.dhv = false) (hcur : s.dcur = root) :
    endStream 0#8 s = .done { s with dhold := 0#8, dhv := false, dph := .idle } [] := by
  simp [endStream, consumeHeld_none hhv, hcur]

/-- Settles O50: with an empty packer `EFL` emits the count 0 alone, and with no byte held `DEND 0` walks nothing. -/
theorem emptySessions : Obligations.EmptySessions := by
  intro s more hf
  refine ⟨fun he hs => ?_, fun hd hs => ?_⟩
  · have hrun := run_two_done (i := .est) (j := .efl) (by decide) (by decide) hf hs
      ((bodyOf_est _).trans (needPhase_ok he)) ((bodyOf_efl _).trans (needPhase_ok rfl))
    exact ⟨_, hrun, List.append_assoc _ _ _, rfl⟩
  · have hrun := run_two_done (i := .dst) (j := .dend 0#8) (by decide) (by decide) hf hs
      ((bodyOf_dst _).trans (needPhase_ok hd))
      ((bodyOf_dend _ _).trans ((needPhase_ok rfl).trans (endStream_nothingHeld rfl rfl)))
    exact ⟨_, hrun, List.append_assoc _ _ _, rfl⟩

end Sys2Proof.Machine
end

section
/-! SUPPORT. The statements about the decoder (42_decoder_ops.md): the walk, the commands of a session, what a session
produces, and the one-symbol tree. -/

namespace Sys2Proof.Machine

/-! ### The walk (R142, R143) -/

theorem walk1_invalid {ts : Store Node} {w : Walker} (h : readNode ts w.dcur = .invalid) (b : Bool) :
    walk1 ts w b = none := by
  simp only [walk1, h]

theorem walk1_leaf {ts : Store Node} {w : Walker} {sym : Symbol} (h : readNode ts w.dcur = .leaf sym) :
    walk1 ts w false = some { dcur := w.dcur, out := w.out ++ [sym] } ∧ walk1 ts w true = none := by
  simp [walk1, h]

/-- Settles O32: an entry for each kind of node stood on, and, below an internal node, for each kind of child. -/
theorem walkStepFollowsTheTree : Obligations.WalkStepFollowsTheTree := by
  intro ts w
  refine ⟨walk1_invalid, fun sym => walk1_leaf, fun c0 c1 hnode b child hchild => ?_⟩
  have hstep := walk1_internal (out := w.out) (b := b) hnode
  rw [show childOf b c0 c1 = child from hchild.symm] at hstep
  refine ⟨fun hinvalid => ?_, fun sym hleaf => ?_, fun d0 d1 hinternal => ?_⟩
  · rwa [hinvalid] at hstep
  · rwa [hleaf] at hstep
  · rwa [hinternal] at hstep

/-- Settles O33: `consume` is the fold of the walk's step over the bits, each of which emits at most one symbol. -/
theorem consumeWalksMostSignificantFirst : Obligations.ConsumeWalksMostSignificantFirst :=
  fun ts w held k hk => ⟨consume_eq ts w held k hk, fun _ => consume_length⟩

/-- Settles O47: the codes of the symbols, paired with the symbols they spell. -/
theorem walkReadsConcatenatedCodes : Obligations.WalkReadsConcatenatedCodes := by
  intro ts bits syms hts
  refine (walkBits_root_iff hts bits syms).trans ⟨?_, ?_⟩
  · rintro ⟨pairs, rfl, hbits, hcodes⟩
    refine ⟨pairs.map Prod.snd, by simp, hbits, ?_⟩
    rwa [← List.zip_of_prod rfl rfl]
  · rintro ⟨codes, hlength, hbits, hcodes⟩
    exact ⟨syms.zip codes, List.map_fst_zip hlength.ge, by rwa [List.map_snd_zip hlength.le], hcodes⟩

/-! ### The commands (R141, R144, R145) -/

/-- Settles O31: the opening write under the phase test. -/
theorem dstOpensADecoderSession : Obligations.DstOpensADecoderSession := by
  refine ⟨fun _ => decode_encode_unit (i := .dst) rfl rfl, fun s hf => ?_⟩
  obtain ⟨hidle, hrun⟩ := exec_whenIdle (i := .dst) hf (by simp) (bodyOf_dst s)
  exact ⟨fun hd => ⟨s.openDecoder, hidle hd, rfl, rfl, rfl, rfl, rfl⟩, hrun⟩

/-- The walk of the held byte emits at most one symbol per bit (R143). -/
theorem consumeHeld_length {s : State} {k : Nat} {w : Walker} (h : consumeHeld s k = some w) : w.out.length ≤ k := by
  cases hv : s.dhv with
  | false =>
    rw [consumeHeld_none hv] at h
    cases h
    exact Nat.zero_le k
  | true =>
    rw [consumeHeld, if_pos hv] at h
    simpa using consume_length h

theorem bodyOf_dbyte (b : Byte) (s : State) : bodyOf (.dbyte b) s = needPhase State.dph .run (takeByte b) s := rfl

theorem takeByte_of_walk {s : State} {w : Walker} (b : Byte) (h : consumeHeld s 8 = some w) :
    takeByte b s = .done { s with dcur := w.dcur, dhold := b, dhv := true } w.out := by
  rw [takeByte, h]

theorem takeByte_of_noWalk {s : State} (b : Byte) (h : consumeHeld s 8 = none) :
    takeByte b s = .raise .corruptStreamError := by
  rw [takeByte, h]

/-- Settles O34: with no byte held the walk is that of no bits. -/
theorem dbyteWalksTheHeldByte : Obligations.DbyteWalksTheHeldByte := by
  refine ⟨fun _ b => decode_encode_unit (i := .dbyte b) rfl rfl, fun s b hf => ?_⟩
  obtain ⟨hdone, hraise, hidle⟩ := exec_whenRunning (i := .dbyte b) hf (by simp) (bodyOf_dbyte b s)
  refine ⟨fun hd hv => ?_, fun hd hv => ?_, hidle⟩
  · exact hdone _ _ hd (takeByte_of_walk b (consumeHeld_none hv 8))
  · rw [← consumeHeld_held hv 8 (Nat.le_refl 8)]
    cases hwalk : consumeHeld s 8 with
    | some w => exact ⟨hdone _ _ hd (takeByte_of_walk b hwalk), consumeHeld_length hwalk⟩
    | none => exact hraise _ hd (takeByte_of_noWalk b hwalk)

theorem endStream_badCount {pad : Byte} (h : 7 < pad.toNat) (s : State) : endStream pad s = .raise .formatError :=
  if_pos h

theorem endStream_nothingToPad {pad : Byte} {s : State} (hpad : pad.toNat ≤ 7) (hne : pad ≠ 0#8)
    (hv : s.dhv = false) : endStream pad s = .raise .formatError := by
  rw [endStream, if_neg (Nat.not_lt.mpr hpad), if_pos ⟨hv, hne⟩]

/-- What `DEND` does past the two tests of the padding count: it walks, and closes the session at the root. -/
theorem endStream_walk {pad : Byte} {s : State} (hpad : pad.toNat ≤ 7) (hform : s.dhv = false → pad = 0#8) :
    (consumeHeld s (8 - pad.toNat) = none → endStream pad s = .raise .corruptStreamError) ∧
    (∀ w, consumeHeld s (8 - pad.toNat) = some w → w.dcur ≠ root → endStream pad s = .raise .corruptStreamError) ∧
    (∀ w, consumeHeld s (8 - pad.toNat) = some w → w.dcur = root →
      endStream pad s = .done { s with dcur := root, dhold := 0#8, dhv := false, dph := .idle } w.out) := by
  rw [endStream, if_neg (Nat.not_lt.mpr hpad), if_neg fun h => h.2 (hform h.1)]
  refine ⟨fun hwalk => ?_, fun w hwalk hroot => ?_, fun w hwalk hroot => ?_⟩
  · simp only [hwalk]
  · simp only [hwalk, if_pos hroot]
  · simp only [hwalk, hroot, ne_eq, not_true_eq_false, if_false]

/-- Settles O35: the tests in their order, with `endStream_walk` past those of the padding count. -/
theorem dendWalksTheUnpaddedBits : Obligations.DendWalksTheUnpaddedBits := by
  refine ⟨fun _ pad => decode_encode_unit (i := .dend pad) rfl rfl, fun s pad hf => ?_⟩
  obtain ⟨hdone, hraise, hidle⟩ := exec_whenRunning (i := .dend pad) hf (by simp) (bodyOf_dend pad s)
  refine ⟨fun hd hpad => hraise _ hd (endStream_badCount hpad s),
    fun hd hpad hne hv => hraise _ hd (endStream_nothingToPad hpad hne hv), fun hd hzero hv hroot => ?_,
    fun hd hzero hv hroot => ?_, fun hd hpad hv => ?_, hidle⟩
  · exact hdone _ _ hd (hzero ▸ endStream_nothingHeld hv hroot)
  · obtain ⟨-, hoff, -⟩ := endStream_walk (pad := pad) (hzero ▸ Nat.zero_le 7) fun _ => hzero
    exact hraise _ hd (hoff _ (consumeHeld_none hv _) hroot)
  · obtain ⟨hnone, hoff, hclose⟩ := endStream_walk (s := s) hpad fun h => nomatch hv.symm.trans h
    rw [← consumeHeld_held hv _ (Nat.sub_le 8 _)]
    cases hwalk : consumeHeld s (8 - pad.toNat) with
    | none => exact hraise _ hd (hnone hwalk)
    | some w =>
      dsimp only
      split
      · next hroot =>
        exact ⟨hdone _ _ hd (hclose w hwalk hroot), (consumeHeld_length hwalk).trans (Nat.sub_le 8 _)⟩
      · next hroot => exact hraise _ hd (hoff w hwalk hroot)

/-! ### The padding bits (R148) -/

/-- Only the bits walked of the held byte are read. -/
theorem consumeHeld_hold {s : State} {held : Byte} {k : Nat} (hk : k ≤ 8)
    (h : ∀ j, j < k → s.dhold.getLsbD (7 - j) = held.getLsbD (7 - j)) :
    consumeHeld { s with dhold := held } k = consumeHeld s k := by
  have hbits : (msbBits held).take k = (msbBits s.dhold).take k := by
    rw [msbBits_take held k hk, msbBits_take s.dhold k hk]
    exact List.map_congr_left fun j hj => (h j (List.mem_range.mp hj)).symm
  simp only [consumeHeld, consume, hbits]

/-- A command that does the same whichever of the two bytes is held leaves the same state and response, but for a
held byte that it does not write. -/
theorem perform_hold {body : State → Effect} {s : State} {held : Byte} (h : body { s with dhold := held } = body s) :
    { perform body { s with dhold := held } with dhold := (perform body s).dhold } = perform body s := by
  obtain ⟨c, hf, hp⟩ | ⟨c, hf, hb, hp⟩ | ⟨t, p, hf, hb, hp⟩ := perform_cases body s
  · rw [hp, perform_faulted (s := { s with dhold := held }) hf]
    rfl
  · rw [hp, perform_raise (s := { s with dhold := held }) hf (h.trans hb)]
    rfl
  · rw [hp, perform_done (s := { s with dhold := held }) hf (h.trans hb)]

/-- `DEND` does the same with two held bytes that agree on the bits it walks: where it completes it clears the held
byte. -/
theorem bodyOf_dend_hold {s : State} {pad held : Byte}
    (h : ∀ j, j < 8 - pad.toNat → s.dhold.getLsbD (7 - j) = held.getLsbD (7 - j)) :
    bodyOf (.dend pad) { s with dhold := held } = bodyOf (.dend pad) s := by
  have hend : endStream pad { s with dhold := held } = endStream pad s := by
    simp only [endStream, consumeHeld_hold (Nat.sub_le 8 _) h]
  rw [bodyOf_dend, bodyOf_dend, needPhase, needPhase, hend]

/-- Settles O36: the padding bits are not among those walked. -/
theorem paddingBitsAreNotExamined : Obligations.PaddingBitsAreNotExamined := by
  intro s pad held h
  have hexec := exec_eq_perform (i := .dend pad) nofun nofun
  exact ⟨_, _, hexec s, hexec _, perform_hold (bodyOf_dend_hold h)⟩

/-! ### What a session produces -/

/-- The first command of a run in which every response is `OK` completed (the converse of `run_cons_ok`). -/
theorem run_peel_done {k : Nat} {s t : State} {i : Instr} {rest : List (List Byte)} {rs : List Response}
    (hw : i.wf = true) (h1 : i ≠ .rst) (h2 : i ≠ .stat) (hi : s.inbox = encode i :: rest)
    (hrun : runSteps (k + 1) s = .next t) (ho : t.outbox = s.outbox ++ rs) (hok : AllOk rs) :
    ∃ v p rs', bodyOf i { s with inbox := rest } = .done v p ∧ runSteps k (complete p v) = .next t ∧
      t.outbox = (complete p v).outbox ++ rs' ∧ AllOk rs' ∧ rs = { status := .ok, payload := p } :: rs' := by
  obtain ⟨u, r, rs', hu, -, hr, hrun, ho', rfl⟩ := run_peel hi hrun ho
  obtain ⟨h, -⟩ | ⟨h, -⟩ | ⟨-, -, -, v, p, hb, rfl, rfl⟩ := step_ok hw hi hu hr (hok r List.mem_cons_self)
  · exact absurd h h1
  · exact absurd h h2
  · exact ⟨v, p, rs', hb, hrun, ho', fun r hr => hok r (List.mem_cons_of_mem _ hr), rfl⟩

/-- Settles O46: `DST` leaves the walk at the root with no byte held, and from there the rest of the session walks the
bytes it is handed. -/
theorem decoderSessionWalksTheStream : Obligations.DecoderSessionWalksTheStream := by
  intro s t mid pad more rs hi hm hrun ho hok
  obtain ⟨v, p, rs', hb, hrun, ho, hok', rfl⟩ := run_peel_done (i := .dst) rfl nofun nofun hi hrun ho hok
  obtain ⟨-, hopen⟩ := needPhase_done ((bodyOf_dst _).symm.trans hb)
  cases hopen
  obtain ⟨-, -, hwalk⟩ := decoder_tail rfl hm hrun ho hok' rfl
  rw [List.cons_append, payloadsTo_cons, if_neg (by simp [dbyteOperand])]
  exact hwalk

/-! ### The one-symbol tree (R147) -/

/-- On a tree whose root is a leaf, `n` bits 0 are walked to `n` copies of its symbol. -/
theorem walkBits_oneSymbol {ts : Store Node} {sym : Symbol} (h : readNode ts root = .leaf sym) (n : Nat) :
    walkBits ts { dcur := root, out := [] } (List.replicate n false) =
      some { dcur := root, out := List.replicate n sym } := by
  have hcode : IsCodeOf ts sym singleCode := by rw [IsCodeOf, if_pos h]
  have hwalk := walkBits_codes (List.replicate n (sym, singleCode)) [] fun e he => by
    rwa [List.eq_of_mem_replicate he]
  rwa [List.map_replicate, List.map_replicate, List.flatten_replicate_singleton, List.nil_append] at hwalk

/-- Settles O49: `n` codes 0 are `n` bits 0, whose packed form is bytes 0, and these are walked back to `n` symbols. -/
theorem oneSymbolTree : Obligations.OneSymbolTree := by
  intro s sym n more hroot hcode hf
  have hpacked := packBits_zeros n
  have hlength : (List.replicate n false).length = n := List.length_replicate
  refine ⟨fun out => walk1_leaf (w := { dcur := root, out := out }) hroot, fun he hi => ?_, fun hd hi => ?_⟩
  · have hcodes : (List.replicate n sym).map s.readCT = (List.replicate n singleCode).map some := by
      rw [List.map_replicate, List.map_replicate, hcode]
    obtain ⟨t, rs, hrun, ho, hok, hform, -⟩ := encoder_session hf he hcodes hi
    rw [List.length_replicate] at hrun
    rw [List.flatten_replicate_singleton, hpacked, hlength] at hform
    exact ⟨t, rs, hrun, ho, hok, hform⟩
  · have hpad : (BitVec.ofNat 8 (padCount n)).toNat = padCount n := pad_ofNat n
    have hbits := streamBits_packBits (List.replicate n false)
    rw [hpacked, hlength] at hbits
    have hsome : BitVec.ofNat 8 (padCount n) ≠ 0#8 → List.replicate ((n + 7) / 8) 0#8 ≠ [] := fun hne =>
      hpacked ▸ packBits_ne_nil fun h0 => hne (by rw [← hlength, h0])
    have hwalk := walkBits_oneSymbol hroot n
    rw [← hbits, ← hpad] at hwalk
    obtain ⟨t, rs, hrun, ho, hok, hout⟩ :=
      decoder_session hf hd (hpad.trans_le (Nat.le_of_lt_succ (padCount_lt n))) hsome hwalk hi
    rw [List.length_replicate] at hrun
    exact ⟨t, rs, hrun, ho, hok, hout⟩

end Sys2Proof.Machine
end

section
/-! SUPPORT. The statements about the system commands (43_system_ops.md). -/

namespace Sys2Proof.Machine

/-! ### RST (R160) -/

theorem exec_rst (s : State) : exec .rst s = .next (complete [] (restart s)) := rfl

/-- Settles O15: the registers are those of `State.resetOf`, and what the stores read in LOADABLE mode is the value
after reset. -/
theorem rstRestoresTheResetState : Obligations.RstRestoresTheResetState := by
  refine ⟨fun s => ⟨_, exec_rst s, ?_⟩, fun m => decode_opcode m .rst [] fun _ => rfl,
    fun m b rest => decode_opcode m .rst (b :: rest) fun _ => rfl⟩
  obtain ⟨-, -, -, -, -, -, -, -, hempty, -⟩ := resetValues.1 s.cfg
  exact ⟨rfl, rfl, rfl, rfl, rfl, rfl, rfl, rfl, hempty, fun hm => ⟨resetOf_ct_rom hm, resetOf_ts_rom hm⟩,
    rfl, rfl, rfl, rfl⟩

/-! ### STAT (R161) -/

theorem exec_stat (s : State) : exec .stat s = .next (complete (bytes16 (statusWord s)) s) := rfl

/-- Bits 15:12 of the `STATUS` word (10_state.md R36). -/
theorem statusWord_top (s : State) : (statusWord s).extractLsb' 12 4 = 0#4 := by
  refine BitVec.eq_of_getLsbD_eq fun i hi => ?_
  rw [BitVec.getLsbD_extractLsb', statusWord_getLsbD]
  simp (disch := omega) [if_neg]

/-- Bits 11:8 of the `STATUS` word (10_state.md R36). -/
theorem statusWord_flt (s : State) : (statusWord s).extractLsb' 8 4 = fltBits s.flt := by
  refine BitVec.eq_of_getLsbD_eq fun i hi => ?_
  rw [BitVec.getLsbD_extractLsb', statusWord_getLsbD]
  simp (disch := omega) [if_neg, if_pos, hi]

/-- Bits 2:0 of the `STATUS` word (10_state.md R36). -/
theorem statusWord_ecnt (s : State) : (statusWord s).extractLsb' 0 3 = s.ecnt := by
  refine BitVec.eq_of_getLsbD_eq fun i hi => ?_
  rw [BitVec.getLsbD_extractLsb', statusWord_getLsbD]
  simp [hi]

/-- Settles O16: the two bytes are the `STATUS` word, whose fields stand at their positions. -/
theorem statAnswersTheStatusWord : Obligations.StatAnswersTheStatusWord := by
  refine ⟨fun m => decode_opcode m .stat [] fun _ => rfl, fun s => ⟨_, _, exec_stat s, ?_⟩⟩
  simp only [append_bytes16]
  refine ⟨statusWord_top s, statusWord_flt s, ?_, ?_, ?_, ?_, statusWord_getLsbD s 3, statusWord_ecnt s⟩
  · exact (statusWord_getLsbD s 7).trans (phaseBit_getLsbD s.eph)
  · exact (statusWord_getLsbD s 6).trans (phaseBit_getLsbD s.dph)
  · exact (statusWord_getLsbD s 5).trans (BitVec.getLsbD_ofBool ..)
  · exact (statusWord_getLsbD s 4).trans (romfBit_getLsbD s.cfg.storeMode)

/-- Settles O17: the response is the `STATUS` word, which has none of the five pieces in it. -/
theorem statDoesNotRevealHiddenState : Obligations.StatDoesNotRevealHiddenState := by
  intro s eacc dcur dhold ct ts t u ht hu
  have hword : statusWord { s with eacc := eacc, dcur := dcur, dhold := dhold, ct := ct, ts := ts } = statusWord s :=
    rfl
  rw [exec_stat] at ht hu
  cases ht
  cases hu
  rw [lastResponse_complete, lastResponse_complete, hword]

end Sys2Proof.Machine
end

section
/-! SUPPORT. The statements about the host's software (45_host_context.md): the tree and its codes, the container, the
loading of a tree, and the pipeline through the block. -/

namespace Sys2Proof.Software

open Sys2Proof.Machine

/-! ### The tree of a table (R174 to R177) -/

/-- The tree depends on the table's contents alone (R176). -/
theorem build_perm {tieBreak : TieBreak} (hb : tieBreak.Admissible) {table table' : FreqTable}
    (hp : table.Perm table') : build tieBreak table = build tieBreak table' := by
  unfold build
  rw [tableCounts_perm hp, hp.length_eq]
  exact mergeAll_perm (hb _) _ (hp.map _)

/-- Settles O54: every merge extracts the same two nodes from both enumerations. -/
theorem treeIsAFunctionOfTheTable : Obligations.TreeIsAFunctionOfTheTable :=
  fun _ _ _ hb _ hp => build_perm hb hp

/-- For one symbol the tree is the single leaf (R175). -/
theorem build_singleton (tieBreak : TieBreak) (sym : Symbol) (n : Nat) :
    build tieBreak [(sym, n)] = some (.leaf sym n) := rfl

/-- An entry of the analyzer's table is a symbol that occurs, with its count (R171). -/
theorem eq_count_of_mem_analyze {input : List Byte} {e : Symbol × Nat} (he : e ∈ analyze input) :
    e.1 ∈ input ∧ e.2 = input.count e.1 := by
  obtain ⟨n, -, hn⟩ := List.mem_filterMap.mp he
  simp only at hn
  split at hn
  · cases hn
  · next hcount =>
    cases hn
    exact ⟨List.count_pos_iff.mp (Nat.pos_of_ne_zero hcount), rfl⟩

theorem mem_analyze {input : List Byte} {e : Symbol × Nat} :
    e ∈ analyze input ↔ e.1 ∈ input ∧ e.2 = input.count e.1 := by
  refine ⟨eq_count_of_mem_analyze, fun ⟨hmem, hcount⟩ => ?_⟩
  obtain ⟨e', he', hsym⟩ := List.mem_map.mp ((analyze_spec input).2.2 e.1 hmem)
  have heq : e' = e := Prod.ext hsym (by rw [(eq_count_of_mem_analyze he').2, hsym, hcount])
  exact heq ▸ he'

/-- The table of one repeated byte has one entry (R172). -/
theorem analyze_replicate_perm (sym : Symbol) {n : Nat} (hn : 0 < n) :
    (analyze (List.replicate n sym)).Perm [(sym, n)] := by
  refine (List.perm_ext_iff_of_nodup (analyze_spec _).1.of_map (List.nodup_singleton _)).mpr fun e => ?_
  rw [mem_analyze, List.mem_replicate, List.mem_singleton]
  constructor
  · rintro ⟨⟨-, hsym⟩, hcount⟩
    rw [hsym, List.count_replicate_self] at hcount
    exact Prod.ext hsym hcount
  · rintro rfl
    exact ⟨⟨hn.ne', rfl⟩, List.count_replicate_self.symm⟩

/-! ### The codes of a tree (R178, R179) -/

theorem deriveCodes_pairwise (t : Tree) :
    (deriveCodes t).Pairwise (fun a b => ¬ a.2 <+: b.2 ∧ ¬ b.2 <+: a.2) := by
  cases t with
  | leaf sym f => exact List.pairwise_singleton _ _
  | node f a b => exact leafPaths_pairwise _ _

/-- Settles O53: the paths to two leaves part at some node, and there they differ. -/
theorem derivedCodesArePrefixFree : Obligations.DerivedCodesArePrefixFree :=
  fun t => ⟨derive_nonempty t, deriveCodes_pairwise t, deriveCodes_symbols t⟩

theorem deriveCodes_prefixFree (t : Tree) : PrefixFree (deriveCodes t) := fun _ ha _ hb =>
  have hpair := deriveCodes_pairwise t
  List.Pairwise.forall_of_forall_of_flip (R := fun a b : Symbol × Code => a.1 ≠ b.1 → ¬ a.2 <+: b.2)
    (fun _ _ hne => absurd rfl hne) (hpair.imp fun h _ => h.1) (hpair.imp fun h _ => h.2) ha hb

/-- In a tree of two leaves both codes have one bit. -/
theorem deriveCodes_length_one {t : Tree} (h : t.symbols.length = 2) : ∀ e ∈ deriveCodes t, e.2.length = 1 := by
  intro e he
  have hpos := derive_nonempty t e he
  cases t with
  | leaf sym f => cases h
  | node f a b =>
    have hle := leafPaths_length _ _ e he
    rw [h, List.length_nil] at hle
    omega

/-! ### The container (R184 to R189) -/

/-- A table of R172's invariant passes the reader's test. -/
theorem tableSpecified_of_counts {table : FreqTable} (hn : (table.map Prod.fst).Nodup)
    (hc : ∀ e ∈ table, 0 < e.2 ∧ e.2 < 2 ^ 31) :
    tableSpecified (table.map fun e => (e.1, (e.2 : Int))) = true := by
  simp only [tableSpecified, List.map_map, List.all_map, Bool.and_eq_true, decide_eq_true_eq, List.all_eq_true,
    Function.comp_apply]
  refine ⟨hn, fun e he => ?_⟩
  have := hc e he
  omega

/-- A container reads back as what was written (R184, R188). -/
theorem readContainer_writeContainer {table : FreqTable} (packed : List Byte) {pad : Nat} (hne : table ≠ [])
    (hn : (table.map Prod.fst).Nodup) (hc : ∀ e ∈ table, 0 < e.2 ∧ e.2 < 2 ^ 31) (hp : pad ≤ 7) :
    readContainer (writeContainer table packed pad) = .ok { table := table, packed := packed, pad := pad } := by
  have hpos := List.length_pos_of_ne_nil hne
  have hlen : table.length ≤ 256 := by simpa using nodup_length hn
  have hback : ((table.map fun e => (e.1, (e.2 : Int))).map fun e => (e.1, e.2.toNat)) = table := by
    rw [List.map_map]
    exact List.map_id table
  unfold readContainer writeContainer
  rw [readInt_nat32 (by omega)]
  simp only
  rw [if_neg (by omega), Int.toNat_natCast, readEntries_write table fun e he => (hc e he).2]
  simp only
  rw [readInt_nat32 (by omega)]
  simp only
  rw [if_neg (by omega), if_pos (tableSpecified_of_counts hn hc), hback, Int.toNat_natCast]

/-- Settles O51: each field is read back in turn. -/
theorem containerReadsBack : Obligations.ContainerReadsBack :=
  fun table packed pad hne hn hc hp =>
    ⟨readContainer_writeContainer packed hne hn hc hp, writeContainer_length table packed pad⟩

/-- After the table size, too few bytes for the entries and the padding field (R188). -/
theorem readContainer_short {n : Nat} (h1 : 1 ≤ n) (h2 : n ≤ 256) {rest : List Byte} (hr : rest.length < 5 * n + 4) :
    readContainer (nat32 n ++ rest) = .error .formatError := by
  unfold readContainer
  rw [readInt_nat32 (by omega)]
  simp only
  rw [if_neg (by omega), Int.toNat_natCast]
  cases he : readEntries n rest with
  | none => rfl
  | some r =>
    obtain ⟨entries, after⟩ := r
    have hlen := readEntries_some he
    simp only
    rw [readInt_none (by omega)]

/-- A container cut off in its header fields (R188, R196). -/
theorem readContainer_take {table : FreqTable} (packed : List Byte) (pad : Nat) {k : Nat} (hne : table ≠ [])
    (hlen : table.length ≤ 256) (hk : k < 4 + 5 * table.length + 4) :
    readContainer ((writeContainer table packed pad).take k) = .error .formatError := by
  have hpos := List.length_pos_of_ne_nil hne
  have hcut := List.length_take_le k (writeContainer table packed pad)
  rcases Nat.lt_or_ge k 4 with h4 | h4
  · unfold readContainer
    rw [readInt_none (by omega)]
  · unfold writeContainer
    rw [List.take_append, List.take_of_length_le (by rw [nat32_length]; exact h4), nat32_length]
    refine readContainer_short hpos hlen ?_
    rw [List.length_take]
    omega

/-- Settles O52: the cut falls in the table size, in the entries or in the padding field. -/
theorem truncatedContainerIsAFormatError : Obligations.TruncatedContainerIsAFormatError :=
  fun _ packed pad _ hne hlen hk => readContainer_take packed pad hne hlen hk

/-! ### Loading (R180, R181) -/

/-- A tree with no symbol twice fits the tree store. -/
theorem size_le_of_nodup {t : Tree} (hn : t.symbols.Nodup) : t.size ≤ 512 := by
  have hsize := size_symbols t
  have hlen := nodup_length hn
  omega

/-- The codes derived from a tree match a tree store that holds it (10_state.md R40). -/
theorem holds_tableMatches {ct : Store CTEntry} {ts : Store Node} {t : Tree} (h : Holds ts t 0)
    (hc : ∀ sym : Symbol, Store.read none ct sym.toNat = codeIn t sym) : TableMatches ct ts := by
  intro sym hheld
  obtain ⟨c, hcode, hmem⟩ := codeIn_some ((held_iff h sym).mp hheld)
  exact ⟨c, derive_isCode h _ hmem, (hc sym).trans hcode⟩

/-- Settles O55: the tree's nodes stand at their preorder numbers, the code table holds the derived codes, and loading
the codes leaves the tree store as it is. -/
theorem loadingATreeGivesMatchingStores : Obligations.LoadingATreeGivesMatchingStores := by
  intro tree s hn hf he hd hm hi
  have hsize := size_le_of_nodup hn
  obtain ⟨t, ps, htree, hready, -, hholds⟩ := load_tree (t := tree) (s := s) ⟨⟨hf, he, hd, hi⟩, hm⟩ hsize
  obtain ⟨u, qs, hcodes, -, hts, hct⟩ := load_codes (t := tree) hready (nodup_length hn)
  rw [← hts] at hholds
  exact ⟨u, _, issueAll_append htree hcodes, holds_wellFormed hholds hsize hn, holds_tableMatches hholds hct,
    held_iff hholds, derive_isCode hholds⟩

/-! ### The result of a compression (R190, R192) -/

/-- What `compress` leaves in `r`, told through the tree of the input's table and the codes of the input's bytes in
it. -/
structure CompressionOf (hp : HostParams) (input : List Byte) (tree : Tree) (codes : List Code) (r : Compressed) :
    Prop where
  build_eq : build hp.tieBreak (hp.enumOrder (analyze input)) = some tree
  nodup : tree.symbols.Nodup
  codes_eq : input.map (codeIn tree) = codes.map some
  codes_length : codes.length = input.length
  codes_mem : ∀ e ∈ input.zip codes, e ∈ deriveCodes tree
  container_eq : r.container = writeContainer (hp.enumOrder (analyze input)) (packBits codes.flatten)
    (padCount codes.flatten.length)
  statistics_eq : r.statistics = statisticsOf input (packBits codes.flatten) (padCount codes.flatten.length) r.container

section

variable {hp : HostParams} {input : List Byte}

/-- The length of the stream is that of the codes (R192). -/
theorem CompressionOf.encodedBitLength_eq {tree : Tree} {codes : List Code} {r : Compressed}
    (h : CompressionOf hp input tree codes r) : encodedBitLength tree input = codes.flatten.length := by
  have hmap : (input.map fun b => ((codeIn tree b).getD []).length) =
      (input.map (codeIn tree)).map fun c => (c.getD []).length := by rw [List.map_map]; rfl
  rw [encodedBitLength, hmap, h.codes_eq, List.map_map, List.length_flatten]
  rfl

/-- The tree and the codes are functions of the input, and the container is one of them. -/
theorem CompressionOf.container_unique {tree tree' : Tree} {codes codes' : List Code} {r r' : Compressed}
    (h : CompressionOf hp input tree codes r) (h' : CompressionOf hp input tree' codes' r') :
    r.container = r'.container := by
  obtain rfl : tree = tree' := Option.some.inj (h.build_eq.symm.trans h'.build_eq)
  obtain rfl : codes = codes' :=
    List.map_injective_iff.mpr (Option.some_injective _) (h.codes_eq.symm.trans h'.codes_eq)
  rw [h.container_eq, h'.container_eq]

variable (he : ∀ table, (hp.enumOrder table).Perm table) (hne : input ≠ []) (hlt : input.length < 2 ^ 31)
include he hne hlt

/-- The container reads back as the input's table and the packed codes (R188). -/
theorem CompressionOf.readContainer_eq {tree : Tree} {codes : List Code} {r : Compressed}
    (h : CompressionOf hp input tree codes r) :
    readContainer r.container = .ok { table := hp.enumOrder (analyze input), packed := packBits codes.flatten,
                                      pad := padCount codes.flatten.length } := by
  obtain ⟨htne, hnodup, hcount, -, -⟩ := enum_spec he hne hlt
  rw [h.container_eq]
  exact readContainer_writeContainer _ htne hnodup hcount (Nat.le_of_lt_succ (padCount_lt _))

variable (hb : hp.tieBreak.Admissible)
include hb

/-- A loadable block with nothing waiting compresses (R190). -/
theorem compress_result {s : State} (hm : s.cfg.storeMode = .loadable) (hi : s.inbox = []) :
    ∃ tree codes r, compress hp input s = .ok r ∧ CompressionOf hp input tree codes r := by
  obtain ⟨tree, v, codes, hbuild, hnodup, hcodes, hlen, hmem, hrun⟩ := compress_ok hb he hne hlt hm hi
  exact ⟨tree, codes, _, hrun, hbuild, hnodup, hcodes, hlen, hmem, rfl, rfl⟩

/-- What is known of the result of a compression that succeeded (R190). -/
theorem compressionOf_of_compress {s : State} (hm : s.cfg.storeMode = .loadable) (hi : s.inbox = []) {r : Compressed}
    (h : compress hp input s = .ok r) : ∃ tree codes, CompressionOf hp input tree codes r := by
  obtain ⟨tree, codes, r', hr', hof⟩ := compress_result he hne hlt hb hm hi
  obtain rfl := Except.ok.inj (hr'.symm.trans h)
  exact ⟨tree, codes, hof⟩

/-- A loadable block with nothing waiting decompresses what was compressed: the tree built from the container's table is
the tree the input was packed with (R191, R201). -/
theorem CompressionOf.decompress_eq {tree : Tree} {codes : List Code} {r : Compressed}
    (h : CompressionOf hp input tree codes r) {s' : State} (hm' : s'.cfg.storeMode = .loadable)
    (hi' : s'.inbox = []) : ∃ t', decompress hp r.container s' = .ok (t', input) := by
  obtain ⟨u, ps, hload, hidle, hholds⟩ := ready_tree hi' hm' (size_le_of_nodup h.nodup)
  have hbuild : build hp.tieBreak (hp.enumOrder (hp.enumOrder (analyze input))) = some tree :=
    (build_perm hb (he _)).trans h.build_eq
  exact decompress_run (h.readContainer_eq he hne hlt) hbuild hload hidle h.codes_length fun e hem =>
    derive_isCode hholds e (h.codes_mem e hem)

section

variable {s s' : State} (hm : s.cfg.storeMode = .loadable) (hi : s.inbox = [])
include hm hi

/-! ### The source's testable properties (R196) -/

theorem paddingBounded : PaddingBounded hp input s := by
  intro r c tree hr hc ht
  obtain ⟨tree', codes, hof⟩ := compressionOf_of_compress he hne hlt hb hm hi hr
  obtain rfl := Except.ok.inj ((hof.readContainer_eq he hne hlt).symm.trans hc)
  obtain rfl : tree' = tree := Option.some.inj (hof.build_eq.symm.trans ht)
  refine ⟨Nat.le_of_lt_succ (padCount_lt _), ?_⟩
  rw [hof.encodedBitLength_eq, packBits_length, Nat.mul_comm]
  exact byteCount_padCount _

theorem truncationRejected : TruncationRejected hp input s := by
  intro r c k hr hc hk
  obtain ⟨tree, codes, hof⟩ := compressionOf_of_compress he hne hlt hb hm hi hr
  obtain ⟨htne, hnodup, -⟩ := enum_spec he hne hlt
  obtain rfl := Except.ok.inj ((hof.readContainer_eq he hne hlt).symm.trans hc)
  rw [hof.container_eq]
  exact readContainer_take _ _ htne (by simpa using nodup_length hnodup) (Nat.lt_add_right 4 hk)

variable (hm' : s'.cfg.storeMode = .loadable) (hi' : s'.inbox = [])
include hm' hi'

theorem roundTrips : RoundTrips hp input s s' := by
  obtain ⟨tree, codes, r, hr, hof⟩ := compress_result he hne hlt hb hm hi
  exact ⟨r, hr, hof.decompress_eq he hne hlt hb hm' hi'⟩

theorem deterministic : Deterministic hp input s s' := by
  obtain ⟨tree, codes, r, hr, hof⟩ := compress_result he hne hlt hb hm hi
  obtain ⟨tree', codes', r', hr', hof'⟩ := compress_result he hne hlt hb hm' hi'
  exact ⟨r, r', hr, hr', hof.container_unique hof'⟩

theorem frequencyConserved : FrequencyConserved hp input s s' := by
  intro r c t' output hr hc hd
  obtain ⟨tree, codes, hof⟩ := compressionOf_of_compress he hne hlt hb hm hi hr
  obtain ⟨-, -, -, -, hsum⟩ := enum_spec he hne hlt
  obtain ⟨t, hd'⟩ := hof.decompress_eq he hne hlt hb hm' hi'
  obtain rfl := Except.ok.inj ((hof.readContainer_eq he hne hlt).symm.trans hc)
  obtain ⟨rfl, rfl⟩ := Prod.mk.inj (Except.ok.inj (hd'.symm.trans hd))
  exact hsum

end

end

/-- The table of `"aaaab"` (R196). -/
theorem analyze_twoSymbolInput : analyze twoSymbolInput = [(0x61#8, 4), (0x62#8, 1)] := by decide

theorem emptyInputRejected (hp : HostParams) (s : State) : EmptyInputRejected hp s := rfl

section

variable {hp : HostParams} {s s' : State} (hb : hp.tieBreak.Admissible)
  (he : ∀ table, (hp.enumOrder table).Perm table) (hm : s.cfg.storeMode = .loadable) (hi : s.inbox = [])
  (hm' : s'.cfg.storeMode = .loadable) (hi' : s'.inbox = [])
include hb he hm hi hm' hi'

theorem singleSymbolCase (sym : Symbol) {n : Nat} (hn : 0 < n) (hlt : n < 2 ^ 31) : SingleSymbolCase hp sym n s s' := by
  have htable : hp.enumOrder (analyze (List.replicate n sym)) = [(sym, n)] :=
    List.perm_singleton.mp ((he _).trans (analyze_replicate_perm sym hn))
  have hne : List.replicate n sym ≠ [] := fun h => hn.ne' (List.replicate_eq_nil_iff _ |>.mp h)
  exact ⟨by rw [htable, build_singleton], roundTrips he hne (by rwa [List.length_replicate]) hb hm hi hm' hi'⟩

theorem twoSymbolCase : TwoSymbolCase hp s s' := by
  have hne : twoSymbolInput ≠ [] := List.cons_ne_nil _ _
  have hlt : twoSymbolInput.length < 2 ^ 31 := by decide
  obtain ⟨tree, hbuild, hsym⟩ := build_some hb (enum_spec he hne hlt).1
  have hleaves : tree.symbols.length = 2 := by
    rw [hsym.length_eq, List.length_map, (he _).length_eq, analyze_twoSymbolInput]
    rfl
  exact ⟨analyze_twoSymbolInput, ⟨tree, hbuild, hleaves, deriveCodes_length_one hleaves⟩,
    roundTrips he hne hlt hb hm hi hm' hi'⟩

end

/-- Settles O56: the container reads back as the table and the packed codes, and the tree of that table is the one the
codes are from. -/
theorem decompressOfCompressIsTheInput : Obligations.DecompressOfCompressIsTheInput :=
  ⟨emptyInputRejected, fun _ _ _ _ hb he hne hlt hm hi hm' hi' => roundTrips he hne hlt hb hm hi hm' hi'⟩

/-- Settles O57: the packed form of the codes has their bits and the padding. -/
theorem compressReportsItsStatistics : Obligations.CompressReportsItsStatistics := by
  intro hp input s hb he hne hlt hm hi
  obtain ⟨tree, codes, r, hr, hof⟩ := compress_result he hne hlt hb hm hi
  obtain ⟨-, -, -, -, hsum⟩ := enum_spec he hne hlt
  have hbits : 8 * (packBits codes.flatten).length = codes.flatten.length + padCount codes.flatten.length := by
    rw [packBits_length, byteCount_padCount]
  refine ⟨r, _, tree, codes, hr, hof.readContainer_eq he hne hlt, hof.build_eq, hof.codes_length, hof.codes_mem,
    ?_, hsum, ?_, ?_, ?_, ?_⟩
  · rw [hof.statistics_eq]; rfl
  · rw [hof.statistics_eq]; rfl
  · simp only; omega
  · rw [hof.statistics_eq, ← List.length_flatten]
    simp only [statisticsOf, encodedBitCount]
    omega
  · rw [hof.statistics_eq]; rfl

/-- Settles O58: each property of R196 by its own lemma. -/
theorem testablePropertiesOfTheSource : Obligations.TestablePropertiesOfTheSource := by
  intro hp s s' hb he hm hi hm' hi'
  refine ⟨emptyInputRejected hp s, twoSymbolCase hb he hm hi hm' hi',
    fun sym n hn hlt => singleSymbolCase hb he hm hi hm' hi' sym hn hlt, deriveCodes_prefixFree,
    fun input hne hlt => ?_⟩
  exact ⟨roundTrips he hne hlt hb hm hi hm' hi', deterministic he hne hlt hb hm hi hm' hi',
    frequencyConserved he hne hlt hb hm hi hm' hi', paddingBounded he hne hlt hb hm hi,
    truncationRejected he hne hlt hb hm hi⟩

end Sys2Proof.Software
end

section
/-! SUPPORT. The statements about the exceptions (60_exceptions.md): what a step performs, when a command raises
SequenceError, the refusals of a faulted block, and the one effect of a fault. -/

namespace Sys2Proof.Machine

/-! ### The phase precondition (R217) -/

/-- A body under the phase test raises SequenceError by that test alone, when it raises none itself. -/
theorem needPhase_sequenceError_iff {phase : State → Phase} {need : Phase} {body : State → Effect} {s : State}
    (hbody : body s ≠ .raise .sequenceError) :
    needPhase phase need body s = .raise .sequenceError ↔ decide (phase s = need) = false := by
  rw [decide_eq_false_iff_not]
  by_cases hp : phase s = need
  · simp [needPhase_ok hp, hp, hbody]
  · simp [needPhase_bad hp, hp]

theorem encodeSymbol_ne_sequenceError (sym : Symbol) (s : State) :
    encodeSymbol sym s ≠ .raise .sequenceError := by
  cases hc : s.readCT sym with
  | none => simp [encodeSymbol_of_none hc]
  | some c => simp [encodeSymbol_of_code hc]

theorem takeByte_ne_sequenceError (b : Byte) (s : State) : takeByte b s ≠ .raise .sequenceError := by
  cases hw : consumeHeld s 8 with
  | none => simp [takeByte_of_noWalk b hw]
  | some w => simp [takeByte_of_walk b hw]

theorem endStream_ne_sequenceError (pad : Byte) (s : State) : endStream pad s ≠ .raise .sequenceError := by
  unfold endStream
  repeat' split
  all_goals nofun

/-- A store-writing command that exists is in a block whose stores are written (30_encoding.md R81). -/
theorem loadable_of_writesStore {i : Instr} {m : StoreMode} (he : i.existsIn m = true) (hw : i.writesStore = true) :
    m = .loadable := by
  cases m with
  | loadable => rfl
  | rom => exact absurd ((existsIn_iff .rom i).mp he rfl) (by simp [hw])

/-- The phase test is the one source of SequenceError in the body of a legal command that exists in the mode. -/
theorem bodyOf_sequenceError_iff {i : Instr} {s : State} (hwf : i.wf = true)
    (he : i.existsIn s.cfg.storeMode = true) :
    bodyOf i s = .raise .sequenceError ↔ phaseOk i s = false := by
  cases i with
  | rst | stat => exact iff_of_false nofun nofun
  | clrc | clrt | ldl | ldi =>
    have hm := loadable_of_writesStore he rfl
    simp only [bodyOf, needLoadable_ok hm]
    exact needPhase_sequenceError_iff nofun
  | ldc =>
    have hm := loadable_of_writesStore he rfl
    simp only [bodyOf, needLoadable_ok hm, needLegalCode_ok hwf]
    exact needPhase_sequenceError_iff nofun
  | est | efl | dst =>
    simp only [bodyOf]
    exact needPhase_sequenceError_iff nofun
  | esym sym => exact needPhase_sequenceError_iff (encodeSymbol_ne_sequenceError sym s)
  | dbyte b => exact needPhase_sequenceError_iff (takeByte_ne_sequenceError b s)
  | dend pad => exact needPhase_sequenceError_iff (endStream_ne_sequenceError pad s)

/-- Settles O7: a body under a wrong phase raises SequenceError, and a body under the right one completes or raises
another cause. -/
theorem sequenceErrorExactlyWhenThePhaseIsWrong : Obligations.SequenceErrorExactlyWhenThePhaseIsWrong := by
  intro s i hf hwf he
  have hseq := bodyOf_sequenceError_iff hwf he
  refine ⟨fun hbad => ?_, fun hok => ?_⟩
  · rw [exec_eq_perform (by rintro rfl; cases hbad) (by rintro rfl; cases hbad)]
    exact congrArg _ (perform_raise hf (hseq.mpr hbad))
  · obtain ⟨t, ht⟩ := exec_next i s
    obtain ⟨-, rfl⟩ | ⟨-, rfl⟩ | ⟨-, -, ⟨c, hc, -⟩ | ⟨c, -, hb, rfl⟩ | ⟨u, p, -, -, rfl⟩⟩ := exec_cases ht
    · exact ⟨_, _, ht, lastResponse_complete _ _, nofun⟩
    · exact ⟨_, _, ht, lastResponse_complete _ _, nofun⟩
    · exact absurd (hf.symm.trans hc) nofun
    · refine ⟨_, _, ht, lastResponse_raiseFault _ _, fun hc => ?_⟩
      cases hc
      exact absurd (hseq.mp hb) (by simp [hok])
    · exact ⟨_, _, ht, lastResponse_complete _ _, nofun⟩

/-! ### The faulted block (R219) -/

/-- Settles O8: only `01` and `02` decode to the two commands that no fault gates, and the rest is refused. -/
theorem faultedBlockRefuses : Obligations.FaultedBlockRefuses := by
  intro s c t rest hf hs hrst hstat
  cases hd : decode s.cfg.storeMode t with
  | command i =>
    have h1 : i ≠ .rst := fun h => hrst (decode_rst (h ▸ hd))
    have h2 : i ≠ .stat := fun h => hstat (decode_stat (h ▸ hd))
    rw [step_command hs hd, exec_eq_perform h1 h2]
    exact congrArg _ (perform_faulted (s := { s with inbox := rest }) hf _)
  | illegal why => exact step_illegal_refused hf hs hd

/-! ### The effect of a fault (R216) -/

theorem lastResponse_refuse (c : Cause) (s : State) :
    (refuse c s).lastResponse = some { status := .refused c, payload := [] } := by
  simp [State.lastResponse]

/-- A step takes the oldest transaction delivered, if there is one. -/
theorem step_inbox {s t : State} (h : step s = .next t) : t.inbox = s.inbox.tail := by
  cases hs : s.inbox with
  | nil =>
    rw [step_idle hs] at h
    cases h
    exact hs
  | cons x rest => exact (commandSeesNoLaterCommand s t x rest rest hs h).1

/-- Settles O9: of the outcomes of a step only the taking of a fault answers `FAULT`. -/
theorem faultIsPrecise : Obligations.FaultIsPrecise := by
  intro s t r c h hout hr
  have hlast : t.lastResponse = some r := by simp [State.lastResponse, hout]
  have htaken := step_inbox h
  cases step_outcome h with
  | idle => simp at hout
  | restarted => rw [lastResponse_complete] at hlast; cases hlast; cases hr
  | reported => rw [lastResponse_complete] at hlast; cases hlast; cases hr
  | refused => rw [lastResponse_refuse] at hlast; cases hlast; cases hr
  | completed => rw [lastResponse_complete] at hlast; cases hlast; cases hr
  | raised rest c' hf =>
    rw [lastResponse_raiseFault] at hlast
    cases hlast
    cases hr
    exact ⟨hf, htaken ▸ rfl⟩

/-! ### One step (R218) -/

/-- Settles O6: what a step does with a command, and with nothing delivered. -/
theorem stepPerformsTheDecodedCommand : Obligations.StepPerformsTheDecodedCommand :=
  ⟨fun _ _ _ _ => step_command, fun _ => step_idle⟩

end Sys2Proof.Machine
end

section
/-! SUPPORT. The statements about reset and hazards (70_reset_and_hazards.md): the stores of a ROM block, and the
pipeline that runs on them. -/

namespace Sys2Proof.Machine

/-! ### The stores of a ROM block (R243) -/

/-- Settles O40: of the outcomes of a step only `RST` and a command's body write a store, and in `ROM` mode `RST` writes
the images and no body writes at all. -/
theorem romStoresNeverChange : Obligations.RomStoresNeverChange := by
  refine ⟨fun cfg hm => ⟨resetOf_ct_rom hm, resetOf_ts_rom hm⟩, fun s t hm hct hts h => ?_⟩
  cases step_outcome h with
  | idle => exact ⟨rfl, hct, hts⟩
  | restarted => exact ⟨rfl, resetOf_ct_rom hm, resetOf_ts_rom hm⟩
  | reported => exact ⟨rfl, hct, hts⟩
  | refused => exact ⟨rfl, hct, hts⟩
  | raised => exact ⟨rfl, hct, hts⟩
  | completed rest i u p hf hb =>
    obtain ⟨-, hcfg, -, -⟩ := bodyOf_frame hb
    obtain ⟨huct, huts⟩ := body_rom hb hm
    exact ⟨hcfg, huct.trans hct, huts.trans hts⟩

end Sys2Proof.Machine

namespace Sys2Proof.Software

open Sys2Proof.Machine

/-! ### The pipeline on a ROM block (R245) -/

/-- The container of an input whose bytes have these codes, one for one (45_host_context.md R184, log 19). -/
def containerOf (hp : HostParams) (input : List Byte) (codes : List Code) : List Byte :=
  writeContainer (hp.enumOrder (analyze input)) (packBits codes.flatten) (padCount codes.flatten.length)

/-- Held bytes have codes in an image and in a code table that matches it, the same in both. -/
theorem codes_of_tableMatches {ct : Store CTEntry} {ts : Store Node} (hmatch : TableMatches ct ts) {input : List Byte}
    (hheld : ∀ b ∈ input, HeldSymbol ts b) :
    ∃ codes : List Code, codes.length = input.length ∧
      (input.map fun b => Store.read none ct b.toNat) = codes.map some ∧
      ∀ e ∈ input.zip codes, IsCodeOf ts e.1 e.2 := by
  obtain ⟨pairs, rfl, hpairs⟩ := hmatch.codes hheld
  refine ⟨pairs.map Prod.snd, by simp, ?_, ?_⟩
  · rw [List.map_map, List.map_map]
    exact List.map_congr_left fun e he => (hpairs e he).2
  · rw [← List.zip_of_prod rfl rfl]
    exact fun e he => (hpairs e he).1

section

variable {hp : HostParams} {input : List Byte} (hb : hp.tieBreak.Admissible)
  (he : ∀ table, (hp.enumOrder table).Perm table) (hne : input ≠ []) (hlt : input.length < 2 ^ 31) {s : State}
  (hm : s.cfg.storeMode = .rom) (hi : s.inbox = [])
include hb he hne hlt hm hi

/-- A ROM block compresses an input whose bytes `ROM_CT` gives codes. -/
theorem compress_rom {codes : List Code}
    (hcodes : (input.map fun b => Store.read none s.cfg.romCt b.toNat) = codes.map some) :
    ∃ r, compress hp input s = .ok r ∧ r.container = containerOf hp input codes := by
  obtain ⟨tree, hbuild, -, -⟩ := build_input hb he hne hlt
  obtain ⟨u, ps, hreset, hidle, hct, -⟩ := ready_rom (ldCodes tree) hi hm
  rw [← hct] at hcodes
  obtain ⟨v, hv⟩ := compress_run he hne hlt hbuild hreset hidle hcodes
  exact ⟨_, hv, rfl⟩

/-- A ROM block answers LookupError to an input with a byte that `ROM_CT` gives no code. -/
theorem compress_rom_uncoded (huncoded : ∃ b ∈ input, Store.read none s.cfg.romCt b.toNat = none) :
    compress hp input s = .error .lookupError := by
  obtain ⟨tree, hbuild, -, -⟩ := build_input hb he hne hlt
  obtain ⟨u, ps, hreset, hidle, hct, -⟩ := ready_rom (ldCodes tree) hi hm
  rw [← hct] at huncoded
  exact compress_lookup he hne hlt hbuild hreset hidle huncoded

/-- A ROM block decompresses a container packed with the codes of `ROM_TS`. -/
theorem decompress_rom {codes : List Code} (hlen : codes.length = input.length)
    (hcodes : ∀ e ∈ input.zip codes, IsCodeOf s.cfg.romTs e.1 e.2) :
    ∃ t, decompress hp (containerOf hp input codes) s = .ok (t, input) := by
  obtain ⟨htne, hnodup, hcount, -, -⟩ := enum_spec he hne hlt
  obtain ⟨tree, hbuild, -, -⟩ := build_input hb he hne hlt
  obtain ⟨u, ps, hreset, hidle, -, hts⟩ := ready_rom (ldTree tree) hi hm
  have hread := readContainer_writeContainer (packBits codes.flatten) htne hnodup hcount
    (Nat.le_of_lt_succ (padCount_lt codes.flatten.length))
  rw [← hts] at hcodes
  exact decompress_run hread ((build_perm hb (he _)).trans hbuild) hreset hidle hlen hcodes

end

/-- Settles O59: the codes of the input are those of the images, which the two blocks share. -/
theorem romBlocksCompressWithTheirImages : Obligations.RomBlocksCompressWithTheirImages := by
  intro hp input s s' hb he hne hlt hm hcfg hi hi'
  refine ⟨fun hmatch hheld => ?_, compress_rom_uncoded hb he hne hlt hm hi⟩
  obtain ⟨codes, hlen, hct, hts⟩ := codes_of_tableMatches hmatch hheld
  obtain ⟨r, hr, hcontainer⟩ := compress_rom hb he hne hlt hm hi hct
  rw [← hcfg] at hm hct hts
  obtain ⟨r', hr', hcontainer'⟩ := compress_rom hb he hne hlt hm hi' hct
  have hback := decompress_rom hb he hne hlt hm hi' hlen hts
  rw [← hcontainer] at hback
  exact ⟨⟨r, hr, hback⟩, r, r', hr, hr', hcontainer.trans hcontainer'.symm⟩

end Sys2Proof.Software
end
